-- ==== Sys2Proof/Word.lean ====
section
/-! DEFINITION. The widths of the core's values (R11: every value is unsigned; R60: u8 and u32 elements). -/

namespace Sys2Proof

/-- A u8: an element of space `OUT`, a literal byte, a byte of host memory. -/
abbrev Byte := BitVec 8

/-- A u32: a token word, an element of every other space, a control register. -/
abbrev Word := BitVec 32

end Sys2Proof
end

