-- ==== Sys2Proof/Syntax.lean ====
section
/-! DEFINITION. The opcode table's rows: four token words and the START operation. -/

namespace Sys2Proof

/-- One constructor per row of spec/opcode_table.json. Bits the encoding ignores are no operand: any value there
decodes to the same token (R92, R93, R94(c)). -/
inductive Instr
  /-- `LIT`: the literal byte (R92). -/
  | lit (b : Byte)
  /-- `RSV_LEN1`: the reserved token with `LEN` = 1 (R94(a)). -/
  | rsvLen1
  /-- `RSV_LEN2`: the reserved token with `LEN` = 2 (R94(a)). -/
  | rsvLen2
  /-- `MATCH`: the match length `LEN` and `OFF`, the distance minus 1 (R93). -/
  | matchTok (len : Byte) (off : BitVec 16)
  /-- `START`: a host write of `CTRL` with bit 0 set (R150). -/
  | start
deriving DecidableEq, Repr

end Sys2Proof
end

