-- ==== Sys2Proof/WellFormed.lean ====
section
/-! DEFINITION. Which terms of Instr some word encodes, and which of them R94 calls legal. -/

namespace Sys2Proof

/-- A term that some word decodes to: `LEN` of a match token is at least 3, because `LEN` 0, 1 and 2 select the
other tokens (R91). -/
def Instr.wf : Instr → Bool
  | .lit _ => true
  | .rsvLen1 => true
  | .rsvLen2 => true
  | .matchTok len _ => decide (3 ≤ len.toNat)
  | .start => true

/-- A well-formed term that is neither reserved (R94(a)) nor a match beyond distance 32768 (R93, R94(b)). -/
def Instr.legal : Instr → Bool
  | .lit _ => true
  | .rsvLen1 => false
  | .rsvLen2 => false
  | .matchTok len off => decide (3 ≤ len.toNat) && decide (off.toNat ≤ 32767)
  | .start => true

end Sys2Proof
end

