-- ==== Sys2Proof/Decode.lean ====
section
/-! DEFINITION. Token decode (R90 to R94), the START write (R24, R150), the encoder (R96), and the host's question
decodeTableWord. -/

namespace Sys2Proof

/-- Why bytes or a control write are no instruction. -/
inductive DecodeError
  /-- Fewer than the four bytes of a token word (R108). -/
  | truncated
  /-- A write of `CTRL` with bit 0 = 0 requests nothing (R24). -/
  | noStartBit
deriving DecidableEq, Repr

/-- Where the core meets an instruction: a word of space `TOK`, or a host write of `CTRL`. -/
inductive Fetched
  | token (w : Word)
  | ctrlWrite (w : Word)
deriving DecidableEq, Repr

/-- Field `LIT`, bits 7:0 (R90). -/
def litField (w : Word) : Byte := w.extractLsb' 0 8

/-- Field `LEN`, bits 15:8 (R90). -/
def lenField (w : Word) : Byte := w.extractLsb' 8 8

/-- Field `OFF`, bits 31:16 (R90). -/
def offField (w : Word) : BitVec 16 := w.extractLsb' 16 16

/-- Token decode, total on all 2^32 words, by `LEN` alone (R91). -/
def decodeToken (w : Word) : Instr :=
  if lenField w = 0#8 then .lit (litField w)
  else if lenField w = 1#8 then .rsvLen1
  else if lenField w = 2#8 then .rsvLen2
  else .matchTok (lenField w) (offField w)

/-- A write of `CTRL` is a START exactly when its bit 0 is 1; bits 31:1 are ignored (R24). -/
def decodeCtrl (w : Word) : Except DecodeError Instr :=
  if w.getLsbD 0 then .ok .start else .error .noStartBit

/-- The decoder. -/
def decode : Fetched → Except DecodeError Instr
  | .token w => .ok (decodeToken w)
  | .ctrlWrite w => decodeCtrl w

/-- The u32 element that four bytes of host memory hold: little-endian, byte 0 is bits 7:0 (R65). -/
def wordOfBytes (b0 b1 b2 b3 : Byte) : Word := b3 ++ b2 ++ b1 ++ b0

/-- Byte k of a u32 element as host memory holds it (R65). -/
def byteOfWord (w : Word) (k : Nat) : Byte := w.extractLsb' (8 * k) 8

/-- One token read from the bytes of the token buffer, and the bytes after it (R65, R108). -/
def decodeBytes : List Byte → Except DecodeError (Instr × List Byte)
  | b0 :: b1 :: b2 :: b3 :: rest => .ok (decodeToken (wordOfBytes b0 b1 b2 b3), rest)
  | _ => .error .truncated

/-- The word of a match token: `(OFF << 16) | (LEN << 8)` (R96). -/
def matchWord (len : Byte) (off : BitVec 16) : Word := off ++ len ++ 0#8

/-- The encoder. A literal's word is its byte zero-extended, a match's is that of R96. Where the encoding ignores
bits and R96 gives no word (the reserved tokens, START), the encoder writes them 0: DESIGN CHOICE (log 20). -/
def encode : Instr → Fetched
  | .lit b => .token (b.zeroExtend 32)
  | .rsvLen1 => .token 0x00000100#32
  | .rsvLen2 => .token 0x00000200#32
  | .matchTok len off => .token (matchWord len off)
  | .start => .ctrlWrite 0x00000001#32

/-- Which of the two places a word of the opcode table is read at. The table numbers token words and control writes
in the same 32 bits, so one number can be both. DESIGN CHOICE (log 10): 0x00000001 is the host's START write
(R315 step 4) and every other word is a token. -/
def tableFetched (nbits w : Nat) : Option Fetched :=
  if 32 < nbits then none
  else
    let v : Word := BitVec.ofNat 32 (w % 2 ^ nbits)
    if v = 0x00000001#32 then some (.ctrlWrite v) else some (.token v)

/-- The host's question: what the decoder reads from a word of the opcode table. -/
def decodeTableWord (nbits w : Nat) : Option Instr :=
  match tableFetched nbits w with
  | none => none
  | some f => (decode f).toOption

end Sys2Proof
end

