-- ==== Sys2Proof/Config.lean ====
section
/-! DEFINITION. The OPEN parameters of R10, and the free values. -/

namespace Sys2Proof

/-- `P_FLUSH` (R10): how a non-final block is brought to a byte boundary. -/
inductive FlushKind
  | sync
  | pad
deriving DecidableEq, Repr

/-- `P_BFINAL` (R10): whether the last block of an invocation carries BFINAL = 1. -/
inductive FinalPolicy
  | never
  | last
deriving DecidableEq, Repr

/-- `P_CODE_ORDER` (R10, R109): the bit order of a stored code. -/
inductive CodeOrder
  | reversed
  | canonical
deriving DecidableEq, Repr

/-- The parameters R10 marks OPEN: "the model takes it as an argument". They are fixed for a machine and no step
changes them. DESIGN CHOICE (log 1): they stand in State, so that every claim about a state holds for all of them. -/
structure Config where
  /-- `MAX_BLOCK_BYTES`, the internal block-size ceiling. -/
  maxBlockBytes : Word
  /-- `TOK_WORDS`, the capacity of `TOK`. -/
  tokWords : Word
  /-- `OUT_BYTES`, the capacity of `OUT`. -/
  outBytes : Word
  /-- `MAX_BLOCKS`, the capacity of `DESC`, `SIZE` and (times the stride) of the table spaces. -/
  maxBlocks : Word
  /-- `P_FLUSH`. -/
  flush : FlushKind
  /-- `P_BFINAL`. -/
  bfinal : FinalPolicy
  /-- `P_CODE_ORDER`. -/
  codeOrder : CodeOrder
deriving DecidableEq, Repr

/-- The defaults of R10. `TOK_WORDS`, `OUT_BYTES` and `MAX_BLOCKS` have none: DESIGN CHOICE (log 1), the largest. -/
def Config.default : Config where
  maxBlockBytes := 0xFFFFFFFF#32
  tokWords := 0xFFFFFFFF#32
  outBytes := 0xFFFFFFFF#32
  maxBlocks := 0xFFFFFFFF#32
  flush := .sync
  bfinal := .never
  codeOrder := .reversed

/-- The free values: what a host read of `OUT` or `SIZE` returns before `DONE = 1` or beyond `op - 1`, `blk - 1`
("any value, which the model takes as a draw", R71(d), U18; log 12). No body, so nothing can be proved of it. -/
opaque Config.freeWord : Nat → Word

end Sys2Proof
end

