-- ==== Sys2Proof/Machine/State.lean ====
section
/-! DEFINITION. The state of 10_state.md and the spaces of 20_memory.md as plain data, with the reset state (R41). -/

namespace Sys2Proof.Machine

/-- The fault codes of R270. The `fault` register holds none (0) or one of them. -/
inductive FaultCode
  /-- `F_BAD_BLOCK_SIZE` (1), raised by `BLK_START`. -/
  | badBlockSize
  /-- `F_BAD_MAXCODES` (2), raised by `BLK_START`. -/
  | badMaxCodes
  /-- `F_TOKEN_RSV` (3), raised by `WRITE_TOKEN` on a reserved token. -/
  | tokenRsv
  /-- `F_DIST_RANGE` (4), raised by `WRITE_TOKEN`. -/
  | distRange
  /-- `F_BOUNDARY` (5), raised by `WRITE_TOKEN`. -/
  | boundary
  /-- `F_DIST_HISTORY` (6), raised by `WRITE_TOKEN`. -/
  | distHistory
  /-- `F_TOKEN_OVERRUN` (7), raised by a read of `TOK` at or beyond its capacity. -/
  | tokenOverrun
  /-- `F_ZERO_LEN` (8), raised by `EmitCode`. -/
  | zeroLen
  /-- `F_LEN_RANGE` (9), raised by `EmitCode`, `HDR_CLEN` and `SendTree`. -/
  | lenRange
  /-- `F_CODE_RANGE` (10), raised by `EmitCode`. -/
  | codeRange
  /-- `F_OUT_OVERFLOW` (11), raised by `OutByte`. -/
  | outOverflow
  /-- `F_BLOCK_OVERRUN` (12), raised by an access of `DESC`, `SIZE`, `MAXC` or a table at or beyond its capacity. -/
  | blockOverrun
deriving DecidableEq, Repr

/-- The states of the state register `st` (R27). -/
inductive St
  | writeToken
  | mlDistRep
  | litRep
  | sendOutput
  | mlExtra
  | distRep
  | distExtra
  | idle
  | blkStart
  | hdrFixed
  | hdrClen
  | hdrTree
  | fault
deriving DecidableEq, Repr

/-- The eleven address spaces of R60. -/
inductive Space
  | tok
  | desc
  | litc
  | litl
  | distc
  | distl
  | blc
  | bll
  | maxc
  | out
  | size
deriving DecidableEq, Repr

/-- The contents of one space, as (byte address, byte) pairs in the canonical form of `Memory.wf` (Machine/Ops.lean).
Element i of a u32 space is the bytes 4i..4i+3 (R65); element i of `OUT` is byte i. -/
abbrev Memory := List Host.Cell

/-- The eleven spaces: separate, each with its own element 0 (R60, R64). -/
structure Arrays where
  tok : Memory
  desc : Memory
  litc : Memory
  litl : Memory
  distc : Memory
  distl : Memory
  blc : Memory
  bll : Memory
  maxc : Memory
  out : Memory
  size : Memory
deriving DecidableEq, Repr

/-- One move of the host (R20(b)). `width` is the access's width in bytes. -/
inductive HostAct
  /-- A control write (R23 to R25). -/
  | writeCtrl (off width : Nat) (v : Word)
  /-- A control read (R23 to R25). -/
  | readCtrl (off width : Nat)
  /-- A write of element i of a space (R71, R315 step 2). -/
  | writeArray (sp : Space) (i : Nat) (v : Word)
  /-- A read of element i of a space (R71(d), R315 step 6). -/
  | readArray (sp : Space) (i : Nat)
  /-- Reset (R310). -/
  | reset
deriving DecidableEq, Repr

/-- Whose move is next. -/
inductive Turn
  | core
  | host (a : HostAct)
deriving DecidableEq, Repr

/-- The machine's state. -/
structure State where
  /-- `INPUT_SIZE` (R25). -/
  inputSize : Word
  /-- `BLOCK_SIZE_KB` (R25). -/
  blockSizeKb : Word
  /-- `CTRL.DONE` (R24). -/
  done : Bool
  /-- `st` (R27). -/
  st : St
  /-- `tp`, the token pointer (R28). -/
  tp : Word
  /-- `blk`, the index of the current block (R29). -/
  blk : Word
  /-- `consumed` (R30). -/
  consumed : Word
  /-- `blk_rem` (R31). -/
  blkRem : Word
  /-- `op`, the index of the next output byte (R32). -/
  op : Word
  /-- `blk_out` (R33). -/
  blkOut : Word
  /-- `acc`, the pending bits (R34). -/
  acc : Word
  /-- `nbits`, how many bits are pending (R34). -/
  nbits : BitVec 5
  /-- `t_lit` (R35). -/
  tLit : Byte
  /-- `t_len` (R35). -/
  tLen : Byte
  /-- `t_off`, the distance minus 1 (R35). -/
  tOff : BitVec 16
  /-- `lc` (R36). -/
  lc : BitVec 5
  /-- `dc` (R36). -/
  dc : BitVec 5
  /-- `m0` (R37). -/
  m0 : BitVec 9
  /-- `m1` (R37). -/
  m1 : BitVec 5
  /-- `m2` (R37). -/
  m2 : BitVec 5
  /-- `bfinal` (R37). -/
  bfinal : BitVec 1
  /-- `lat_input_size` (R38). -/
  latInputSize : Word
  /-- `lat_bskb` (R38). -/
  latBskb : Word
  /-- `fault` (R40): none is 0, some c is the code of c. -/
  fault : Option FaultCode
  /-- The memory arrays (R60). -/
  mem : Arrays
  /-- The OPEN parameters (R10); no step changes them. -/
  cfg : Config
  /-- The MODEL's own field: the moves still to come, oldest first; when it is empty the core moves (log 5). -/
  turns : List Turn
  /-- The MODEL's own field: what the host's last read returned (log 12). -/
  hostRd : Word
  /-- The MODEL's own field: how many free values have been drawn (log 12). -/
  drawn : Nat
deriving DecidableEq, Repr

/-- Why a step stops with a fault. A raise of R271 is NOT one of these: it is a next state, with `fault` and `st`
written. -/
inductive Fault
  /-- The core is faulted (R272) and no host move is pending, so nothing can move until a reset. Raised by step.
  Safe: the model stops where the hardware writes output nobody specifies (R273). -/
  | coreFaulted (c : FaultCode)
  /-- `st` is `FAULT` and `fault` is 0: no step writes such a state (R271), and it has no move. Raised by step.
  Safe: no run reaches it. -/
  | stuckInFault
  /-- A host access names an element at or beyond a space's capacity: it does not exist (R60). Raised by a host move.
  Safe: the model stops. -/
  | hostIndexBeyondCapacity
  /-- A host access names a control offset outside the 32-byte control space (R23). Raised by a host move.
  Safe: the model stops. -/
  | outsideControlSpace
deriving DecidableEq, Repr

/-- Why the model has no move. -/
inductive Refusal
  /-- exec has no meaning for the instruction. No arm uses it now. Safe. -/
  | notModelled (mnemonic : String)
  /-- exec was asked for a token in a state in which no step of the core runs it: the core has no step, or `st` names
  another rule (R21). step never asks this. Raised by the token meanings. Safe. -/
  | notAtToken
  /-- A control access that is not a whole aligned 32-bit word ("refused by the model", R23, U19). Raised by a host
  move. Safe. -/
  | ctrlAccessNotAlignedWord
  /-- A host access of an array while `CTRL.IDLE = 0` ("no move in the model", R71(e), R281, U16). Raised by a host
  move. Safe. -/
  | arrayAccessWhileBusy
deriving DecidableEq, Repr

/-- Nothing listed in any space (log 3). -/
def Arrays.empty : Arrays where
  tok := []
  desc := []
  litc := []
  litl := []
  distc := []
  distl := []
  blc := []
  bll := []
  maxc := []
  out := []
  size := []

/-- The machine after reset (R41). `st`, `done` and `fault` are the spec's; DESIGN CHOICE (log 2): every register the
spec leaves unspecified is 0. -/
def State.reset : State where
  inputSize := 0
  blockSizeKb := 0
  done := false
  st := .idle
  tp := 0
  blk := 0
  consumed := 0
  blkRem := 0
  op := 0
  blkOut := 0
  acc := 0
  nbits := 0
  tLit := 0
  tLen := 0
  tOff := 0
  lc := 0
  dc := 0
  m0 := 0
  m1 := 0
  m2 := 0
  bfinal := 0
  latInputSize := 0
  latBskb := 0
  fault := none
  mem := Arrays.empty
  cfg := Config.default
  turns := []
  hostRd := 0
  drawn := 0

end Sys2Proof.Machine
end

