-- ==== Sys2Proof/Machine/Operands.lean ====
section
/-! DEFINITION. The fixed parameters of R10, the tables of 30_encoding.md, and the operand computations over them:
length codes, distance codes, bit reversal, the code-length order. -/

namespace Sys2Proof.Machine

/-- The numbers of R27. No rule depends on them. -/
def St.code : St → BitVec 4
  | .writeToken => 0
  | .mlDistRep => 1
  | .litRep => 2
  | .sendOutput => 3
  | .mlExtra => 4
  | .distRep => 5
  | .distExtra => 6
  | .idle => 7
  | .blkStart => 8
  | .hdrFixed => 9
  | .hdrClen => 10
  | .hdrTree => 11
  | .fault => 12

/-- The codes of R270. -/
def FaultCode.code : FaultCode → BitVec 4
  | .badBlockSize => 1
  | .badMaxCodes => 2
  | .tokenRsv => 3
  | .distRange => 4
  | .boundary => 5
  | .distHistory => 6
  | .tokenOverrun => 7
  | .zeroLen => 8
  | .lenRange => 9
  | .codeRange => 10
  | .outOverflow => 11
  | .blockOverrun => 12

/-- The `fault` register as the u4 of R40. -/
def faultReg (s : State) : BitVec 4 :=
  match s.fault with
  | none => 0
  | some c => c.code

/-- `MIN_BLOCK_BYTES` (R10, C9). -/
def minBlockBytes : Nat := 116

/-- `MAX_LEN_LD` (R10). -/
def maxLenLd : Nat := 15

/-- `MAX_LEN_BL` (R10). -/
def maxLenBl : Nat := 7

/-- `LIT_STRIDE` (R62). -/
def litStride : Nat := 286

/-- `DIST_STRIDE` (R62). -/
def distStride : Nat := 30

/-- `BL_STRIDE` (R62). -/
def blStride : Nat := 19

/-- `MAXC_STRIDE` (R62). -/
def maxcStride : Nat := 3

/-- The end-of-block symbol (R14, R102). -/
def eobSymbol : Nat := 256

/-- `rev(v, n)`: bit i of the result is bit n-1-i of v, for i < n (R11). -/
def rev (v : Word) : Nat → Word
  | 0 => 0
  | n + 1 => rev (v >>> 1) n ||| ((v &&& 1) <<< n)

/-- `LBASE` (R103). -/
def lbaseTable : List Nat :=
  [3, 4, 5, 6, 7, 8, 9, 10, 11, 13, 15, 17, 19, 23, 27, 31, 35, 43, 51, 59, 67, 83, 99, 115, 131, 163, 195, 227, 258]

/-- `LEXT` (R103). -/
def lextTable : List Nat :=
  [0, 0, 0, 0, 0, 0, 0, 0, 1, 1, 1, 1, 2, 2, 2, 2, 3, 3, 3, 3, 4, 4, 4, 4, 5, 5, 5, 5, 0]

/-- `DBASE` (R104). -/
def dbaseTable : List Nat :=
  [1, 2, 3, 4, 5, 7, 9, 13, 17, 25, 33, 49, 65, 97, 129, 193, 257, 385, 513, 769, 1025, 1537, 2049, 3073, 4097, 6145,
    8193, 12289, 16385, 24577]

/-- `DEXT` (R104). -/
def dextTable : List Nat :=
  [0, 0, 0, 0, 1, 1, 2, 2, 3, 3, 4, 4, 5, 5, 6, 6, 7, 7, 8, 8, 9, 9, 10, 10, 11, 11, 12, 12, 13, 13]

/-- `BL_ORDER` (R100). -/
def blOrder : List Nat := [16, 17, 18, 0, 8, 7, 9, 6, 10, 5, 11, 4, 12, 3, 13, 2, 14, 1, 15]

def lbase (c : Nat) : Nat := lbaseTable.getD c 0
def lext (c : Nat) : Nat := lextTable.getD c 0
def dbase (c : Nat) : Nat := dbaseTable.getD c 0
def dext (c : Nat) : Nat := dextTable.getD c 0

/-- The largest c below n + 1 with `base c ≤ v`, and 0 where there is none. -/
def largestCode (base : Nat → Nat) (v : Nat) : Nat → Nat
  | 0 => 0
  | n + 1 => if base (n + 1) ≤ v then n + 1 else largestCode base v n

/-- `LCODE(len)` (R103): the largest c in 0..27 with `LBASE[c] ≤ len`, and 28 for len = 258. -/
def lcode (len : Nat) : Nat :=
  if len = 258 then 28 else largestCode lbase len 27

/-- The first 256 entries of `DIST_CODE` (R106): code c, `2^DEXT[c]` times, for c in 0..15. -/
def distCodeLow : List Nat := (List.range 16).flatMap fun c => List.replicate (2 ^ dext c) c

/-- Entries 258 to 511 of `DIST_CODE` (R106): code c, `2^(DEXT[c] - 7)` times, for c in 16..29. -/
def distCodeHigh : List Nat := (List.range' 16 14).flatMap fun c => List.replicate (2 ^ (dext c - 7)) c

/-- `DIST_CODE` (R106). Entries 256 and 257 are "never read"; they stand as 0 (log 16). -/
def distCodeTable : List Nat := distCodeLow ++ [0, 0] ++ distCodeHigh

/-- `DCODE(off)` as the core computes it (R105, R226): the direct branch below 256, the shifted branch from 256. -/
def dcode (off : Nat) : Nat :=
  if off < 256 then distCodeTable.getD off 0 else distCodeTable.getD (256 + (off >>> 7)) 0

end Sys2Proof.Machine
end

