-- ==== Sys2Proof/Machine/Ops.lean ====
section
/-! DEFINITION. The named operations: memory in canonical form, `MemRead` and `MemWrite` (R61), `raise` (R271), the
bit-packer (R130 to R132) and the canonical code dispatcher (R134). -/

namespace Sys2Proof.Machine

/-- What a byte that nothing has written reads as. DESIGN CHOICE (log 3): the spec leaves the arrays unspecified. -/
def unlistedByte : Byte := 0

/-- The byte at an address. -/
def Memory.read : Memory → Nat → Byte
  | [], _ => unlistedByte
  | (k, b) :: rest, a => if a = k then b else Memory.read rest a

/-- Writes one byte, keeping the canonical form: writing what an unlisted address reads as removes the entry. -/
def Memory.write : Memory → Nat → Byte → Memory
  | [], a, v => if v = unlistedByte then [] else [(a, v)]
  | (k, b) :: rest, a, v =>
    if a < k then (if v = unlistedByte then (k, b) :: rest else (a, v) :: (k, b) :: rest)
    else if a = k then (if v = unlistedByte then rest else (a, v) :: rest)
    else (k, b) :: Memory.write rest a v

/-- The canonical form: addresses strictly rising, no entry equal to what an unlisted address reads as. -/
def Memory.wf : Memory → Bool
  | [] => true
  | (k, b) :: rest => decide (b ≠ unlistedByte) && rest.all (fun c => decide (k < c.1)) && Memory.wf rest

/-- Element i of a u32 space: bytes 4i..4i+3, little-endian (R65). -/
def Memory.readWord (m : Memory) (i : Nat) : Word :=
  wordOfBytes (Memory.read m (4 * i)) (Memory.read m (4 * i + 1)) (Memory.read m (4 * i + 2)) (Memory.read m (4 * i + 3))

/-- Sets element i of a u32 space (R65). -/
def Memory.writeWord (m : Memory) (i : Nat) (v : Word) : Memory :=
  Memory.write
    (Memory.write (Memory.write (Memory.write m (4 * i) (byteOfWord v 0)) (4 * i + 1) (byteOfWord v 1)) (4 * i + 2)
      (byteOfWord v 2))
    (4 * i + 3) (byteOfWord v 3)

/-- The contents of one space. -/
def Arrays.get (m : Arrays) : Space → Memory
  | .tok => m.tok
  | .desc => m.desc
  | .litc => m.litc
  | .litl => m.litl
  | .distc => m.distc
  | .distl => m.distl
  | .blc => m.blc
  | .bll => m.bll
  | .maxc => m.maxc
  | .out => m.out
  | .size => m.size

/-- The arrays with the contents of one space replaced. -/
def Arrays.set (m : Arrays) : Space → Memory → Arrays
  | .tok, v => { m with tok := v }
  | .desc, v => { m with desc := v }
  | .litc, v => { m with litc := v }
  | .litl, v => { m with litl := v }
  | .distc, v => { m with distc := v }
  | .distl, v => { m with distl := v }
  | .blc, v => { m with blc := v }
  | .bll, v => { m with bll := v }
  | .maxc, v => { m with maxc := v }
  | .out, v => { m with out := v }
  | .size, v => { m with size := v }

/-- Every space is in canonical form. -/
def Arrays.wf (m : Arrays) : Bool :=
  Memory.wf m.tok && Memory.wf m.desc && Memory.wf m.litc && Memory.wf m.litl && Memory.wf m.distc &&
    Memory.wf m.distl && Memory.wf m.blc && Memory.wf m.bll && Memory.wf m.maxc && Memory.wf m.out && Memory.wf m.size

/-- `capacity(S)`, in elements (R60). -/
def capacity (c : Config) : Space → Nat
  | .tok => c.tokWords.toNat
  | .desc => c.maxBlocks.toNat
  | .litc => c.maxBlocks.toNat * litStride
  | .litl => c.maxBlocks.toNat * litStride
  | .distc => c.maxBlocks.toNat * distStride
  | .distl => c.maxBlocks.toNat * distStride
  | .blc => c.maxBlocks.toNat * blStride
  | .bll => c.maxBlocks.toNat * blStride
  | .maxc => c.maxBlocks.toNat * maxcStride
  | .out => c.outBytes.toNat
  | .size => c.maxBlocks.toNat

/-- What an access at or beyond the capacity raises (R61). -/
def overrunCode : Space → FaultCode
  | .tok => .tokenOverrun
  | .out => .outOverflow
  | _ => .blockOverrun

/-- Element i of a space, with no capacity check: a u8 of `OUT` zero-extended, a u32 of any other space (R60, R68). -/
def element (m : Arrays) (sp : Space) (i : Nat) : Word :=
  match sp with
  | .out => (Memory.read m.out i).zeroExtend 32
  | _ => Memory.readWord (m.get sp) i

/-- The arrays with element i of a space set, with no capacity check (R60, R68). R61 requires v to fit the element and
says nothing of a value that does not: DESIGN CHOICE (log 25): `OUT` takes its low 8 bits. -/
def withElement (m : Arrays) (sp : Space) (i : Nat) (v : Word) : Arrays :=
  match sp with
  | .out => m.set .out (Memory.write m.out i (v.setWidth 8))
  | _ => m.set sp (Memory.writeWord (m.get sp) i v)

/-- `MemRead(S, i)` (R61). -/
def memRead (sp : Space) (i : Nat) (s : State) : Except FaultCode Word :=
  if i < capacity s.cfg sp then .ok (element s.mem sp i) else .error (overrunCode sp)

/-- `MemWrite(S, i, v)` (R61). -/
def memWrite (sp : Space) (i : Nat) (v : Word) (s : State) : Except FaultCode State :=
  if i < capacity s.cfg sp then .ok { s with mem := withElement s.mem sp i v } else .error (overrunCode sp)

/-- `raise F_X` (R271): `fault <- code(F_X)`, `st <- FAULT`, and nothing else. The one operation that takes a fault. -/
def raise (c : FaultCode) (s : State) : State := { s with fault := some c, st := .fault }

/-- `goto` (R12): the state register for the next step. -/
def goto (t : St) (s : State) : State := { s with st := t }

/-- Part of a step: it goes on in a state (`ok`), or a `raise` has ended the step in a state (`error`, R21, R271). -/
abbrev Act := Except State State

/-- The next action of the same step, which a raise skips (R271: "No later action of the step is performed"). -/
def andThen (a : Act) (k : State → Act) : Act :=
  match a with
  | .ok s => k s
  | .error s => .error s

/-- The state a step ends in. -/
def finish : Act → State
  | .ok s => s
  | .error s => s

/-- `OutByte(b)` (R131). The capacity test is that of `MemWrite` on `OUT`, which raises `F_OUT_OVERFLOW` (R61). -/
def outByte (b : Byte) (s : State) : Act :=
  match memWrite .out s.op.toNat (b.zeroExtend 32) s with
  | .error c => .error (raise c s)
  | .ok t => .ok { t with op := t.op + 1, blkOut := t.blkOut + 1 }

/-- k rounds of the loop of `PutBits` (R130): each emits the oldest eight pending bits. -/
def drain : Nat → State → Act
  | 0, s => .ok s
  | k + 1, s =>
    andThen (outByte (s.acc.setWidth 8) s) fun t =>
      drain k { t with acc := t.acc >>> 8, nbits := t.nbits - 8 }

/-- The bits of v placed just above the pending ones (R130, its first two lines). -/
def appendBits (v : Word) (n : Nat) (s : State) : State :=
  { s with acc := s.acc ||| (v <<< s.nbits.toNat), nbits := s.nbits + BitVec.ofNat 5 n }

/-- `PutBits(v, n)` (R130). The loop `while nbits >= 8` runs once for each whole byte pending. -/
def putBits (v : Word) (n : Nat) (s : State) : Act :=
  drain ((s.nbits.toNat + n) / 8) (appendBits v n s)

/-- `PadToByte()` (R132). -/
def padToByte (s : State) : Act :=
  if 0 < s.nbits.toNat then putBits 0 (8 - s.nbits.toNat) s else .ok s

/-- The code tables of `EmitCode` (R134). -/
inductive Table
  | lit
  | dist
  | bl
deriving DecidableEq, Repr

/-- The space of a table's code values (R60). -/
def Table.codeSpace : Table → Space
  | .lit => .litc
  | .dist => .distc
  | .bl => .blc

/-- The space of a table's code lengths (R60). -/
def Table.lenSpace : Table → Space
  | .lit => .litl
  | .dist => .distl
  | .bl => .bll

/-- The stride of a table (R62). -/
def Table.stride : Table → Nat
  | .lit => litStride
  | .dist => distStride
  | .bl => blStride

/-- The largest code length of a table (R134). -/
def Table.maxLen : Table → Nat
  | .lit => maxLenLd
  | .dist => maxLenLd
  | .bl => maxLenBl

/-- The index of a symbol's entry in the current block's table set: `blk·STRIDE + s` (R62). -/
def tableIndex (t : Table) (sym : Nat) (s : State) : Nat := s.blk.toNat * t.stride + sym

/-- `T.len[s]` of the current block (R62). -/
def codeLen (t : Table) (sym : Nat) (s : State) : Except FaultCode Word :=
  memRead t.lenSpace (tableIndex t sym s) s

/-- `T.code[s]` of the current block (R62). -/
def codeValue (t : Table) (sym : Nat) (s : State) : Except FaultCode Word :=
  memRead t.codeSpace (tableIndex t sym s) s

/-- The field `EmitCode` hands to `PutBits`: the stored code, reversed when tables hold canonical codes (R109, R134). -/
def codeField (o : CodeOrder) (code : Word) (len : Nat) : Word :=
  match o with
  | .reversed => code
  | .canonical => rev code len

/-- The checks of `EmitCode` on an entry, in its order (R134, R275). -/
def checkCode (t : Table) (len code : Word) : Except FaultCode Unit :=
  if len.toNat = 0 then .error .zeroLen
  else if t.maxLen < len.toNat then .error .lenRange
  else if 2 ^ len.toNat ≤ code.toNat then .error .codeRange
  else .ok ()

/-- The entry `EmitCode` looks up, checked: its length and the field to append (R134). -/
def lookupCode (t : Table) (sym : Nat) (s : State) : Except FaultCode (Nat × Word) :=
  match codeLen t sym s, codeValue t sym s with
  | .error c, _ => .error c
  | .ok _, .error c => .error c
  | .ok len, .ok code =>
    match checkCode t len code with
    | .error c => .error c
    | .ok () => .ok (len.toNat, codeField s.cfg.codeOrder code len.toNat)

/-- `EmitCode(T, s)` (R134). -/
def emitCode (t : Table) (sym : Nat) (s : State) : Act :=
  match lookupCode t sym s with
  | .error c => .error (raise c s)
  | .ok (len, v) => putBits v len s

/-- `PutBits` of extra bits, skipped when there are none (R223, R229). -/
def putExtra (v e : Nat) (s : State) : Act :=
  if e = 0 then .ok s else putBits (BitVec.ofNat 32 v) e s

end Sys2Proof.Machine
end

