-- ==== Sys2Proof/Machine/Flags.lean ====
section
/-! DEFINITION. The status flags `CTRL.DONE` and `CTRL.IDLE` (R24, R39), the only flags the core has. -/

namespace Sys2Proof.Machine

/-- `CTRL.IDLE` reads 1 exactly when `st = IDLE` (R24). -/
def idleFlag (s : State) : Bool := decide (s.st = .idle)

/-- What a read of `CTRL` returns: START reads 0, bit 1 is DONE, bit 2 is IDLE, bits 31:3 read 0 (R24). -/
def ctrlWord (s : State) : Word :=
  (if s.done then 0x00000002#32 else 0#32) ||| (if idleFlag s then 0x00000004#32 else 0#32)

/-- `CTRL.DONE <- 1` (R150, R257). -/
def setDone (s : State) : State := { s with done := true }

/-- `CTRL.DONE <- 0` (R150). -/
def clearDone (s : State) : State := { s with done := false }

end Sys2Proof.Machine
end

