-- ==== Sys2Proof/Machine/Block.lean ====
section
/-! DEFINITION. The states that belong to a block and to no token: `BLK_START` (R152), the header (R180 to R188) and
`SEND_OUTPUT` (R250 to R257). -/

namespace Sys2Proof.Machine

/-- The block-size test of `BLK_START`, in mathematical integers (R152): too small, too large, or past `INPUT_SIZE`. -/
def badBlockSize (bs : Nat) (s : State) : Bool :=
  decide (bs < minBlockBytes) || decide (s.latBskb.toNat * 1024 < bs) || decide (s.cfg.maxBlockBytes.toNat < bs) ||
    decide (s.latInputSize.toNat < s.consumed.toNat + bs)

/-- The legal ranges of the three `MAXC` entries (R111). -/
def maxCodesInRange (a b c : Nat) : Bool :=
  decide (257 ≤ a) && decide (a ≤ 286) && decide (1 ≤ b) && decide (b ≤ 30) && decide (4 ≤ c) && decide (c ≤ 19)

/-- BFINAL of the block (R152): 1 only under `LAST`, for the block that completes the input. -/
def bfinalOf (bs : Nat) (s : State) : BitVec 1 :=
  if s.cfg.bfinal = .last ∧ s.consumed.toNat + bs = s.latInputSize.toNat then 1 else 0

/-- The three `MAXC` entries of the current block (R62, R111, R152). -/
def readMaxCodes (s : State) : Except FaultCode (Word × Word × Word) :=
  match memRead .maxc (maxcStride * s.blk.toNat) s, memRead .maxc (maxcStride * s.blk.toNat + 1) s,
    memRead .maxc (maxcStride * s.blk.toNat + 2) s with
  | .ok a, .ok b, .ok c => .ok (a, b, c)
  | _, _, _ => .error (overrunCode .maxc)

/-- What `BLK_START` writes when its checks pass (R152). -/
def openBlock (bs a b c : Word) (s : State) : State :=
  { s with
    m0 := a.setWidth 9
    m1 := b.setWidth 5
    m2 := c.setWidth 5
    bfinal := bfinalOf bs.toNat s
    blkRem := bs
    blkOut := 0
    acc := 0
    nbits := 0
    st := .hdrFixed }

/-- `BLK_START` (R152), its checks in the order of R275. -/
def blkStart (s : State) : State :=
  match memRead .desc s.blk.toNat s with
  | .error f => raise f s
  | .ok bs =>
    if badBlockSize bs.toNat s then raise .badBlockSize s
    else
      match readMaxCodes s with
      | .error f => raise f s
      | .ok (a, b, c) =>
        if maxCodesInRange a.toNat b.toNat c.toNat then openBlock bs a b c s else raise .badMaxCodes s

/-- `HDR_FIXED` (R180): BFINAL and BTYPE, HLIT, HDIST, HCLEN. -/
def hdrFixed (s : State) : State :=
  finish
    (andThen (putBits ((2#32 <<< 1) ||| s.bfinal.zeroExtend 32) 3 s) fun t =>
      andThen (putBits (BitVec.ofNat 32 (s.m0.toNat - 257)) 5 t) fun t =>
        andThen (putBits (BitVec.ofNat 32 (s.m1.toNat - 1)) 5 t) fun t =>
          andThen (putBits (BitVec.ofNat 32 (s.m2.toNat - 4)) 4 t) fun t => .ok (goto .hdrClen t))

/-- One rank of `HDR_CLEN` (R183): the length of a code-length symbol, checked, as 3 bits. -/
def putClen (sym : Nat) (s : State) : Act :=
  match codeLen .bl sym s with
  | .error c => .error (raise c s)
  | .ok v => if maxLenBl < v.toNat then .error (raise .lenRange s) else putBits v 3 s

/-- The ranks of `HDR_CLEN` in order (R183). -/
def putClens : List Nat → State → Act
  | [], s => .ok s
  | sym :: rest, s => andThen (putClen sym s) (putClens rest)

/-- `HDR_CLEN` (R183): the symbols at the first `m2` positions of `BL_ORDER`. -/
def hdrClen (s : State) : State :=
  finish (andThen (putClens (blOrder.take s.m2.toNat) s) fun t => .ok (goto .hdrTree t))

/-- One code-length item: symbol, extra value, number of extra bits (R99, R188). -/
structure Item where
  sym : Nat
  extra : Nat
  bits : Nat
deriving DecidableEq, Repr

/-- The lengths `SendTree` reads, symbols k to k + n - 1, each checked before any item is written (R187, R275). -/
def readLens (t : Table) : Nat → Nat → State → Except FaultCode (List Nat)
  | _, 0, _ => .ok []
  | k, n + 1, s =>
    match codeLen t k s with
    | .error c => .error c
    | .ok v =>
      if t.maxLen < v.toNat then .error .lenRange
      else
        match readLens t (k + 1) n s with
        | .error c => .error c
        | .ok rest => .ok (v.toNat :: rest)

/-- The longest and the shortest run that one repeat item may stand for, chosen from the length of the next run and
the length of the run just written (R187; none: no run yet). -/
def runLimits (next : Option Nat) (cur : Option Nat) : Nat × Nat :=
  if next = some 0 then (138, 3) else if next = cur then (6, 3) else (7, 4)

/-- The items that stand for a run of `count` lengths `cur` (R187). -/
def runItems (prev : Option Nat) (cur count minc : Nat) : List Item :=
  if count < minc then List.replicate count ⟨cur, 0, 0⟩
  else if cur ≠ 0 then
    if some cur ≠ prev then [⟨cur, 0, 0⟩, ⟨16, count - 1 - 3, 2⟩] else [⟨16, count - 3, 2⟩]
  else if count ≤ 10 then [⟨17, count - 3, 3⟩]
  else [⟨18, count - 11, 7⟩]

/-- The loop of `SendTree` (R187) from the length at hand: `prev` is the length of the run last written (none: NONE),
`count` the run so far; the guard after the last length equals no length (none). -/
def treeItemsFrom (prev : Option Nat) (count : Nat) (limits : Nat × Nat) : List Nat → List Item
  | [] => []
  | cur :: rest =>
    if count + 1 < limits.1 ∧ rest.head? = some cur then treeItemsFrom prev (count + 1) limits rest
    else
      runItems prev cur (count + 1) limits.2 ++
        treeItemsFrom (some cur) 0 (runLimits rest.head? (some cur)) rest

/-- The items of a table's lengths (R187). Before the first run the limits are (138, 3) for a zero, else (7, 4). -/
def treeItems (lens : List Nat) : List Item :=
  treeItemsFrom none 0 (if lens.head? = some 0 then (138, 3) else (7, 4)) lens

/-- `Item(sym, v, k)` (R188). -/
def putItem (i : Item) (s : State) : Act :=
  andThen (emitCode .bl i.sym s) (putBits (BitVec.ofNat 32 i.extra) i.bits)

/-- Items in order. -/
def putItems : List Item → State → Act
  | [], s => .ok s
  | i :: rest, s => andThen (putItem i s) (putItems rest)

/-- `SendTree(T, N)` (R187). -/
def sendTree (t : Table) (n : Nat) (s : State) : Act :=
  match readLens t 0 n s with
  | .error c => .error (raise c s)
  | .ok lens => putItems (treeItems lens) s

/-- `HDR_TREE` (R186): the two tables, coded separately. -/
def hdrTree (s : State) : State :=
  finish
    (andThen (sendTree .lit s.m0.toNat s) fun t =>
      andThen (sendTree .dist t.m1.toNat t) fun t => .ok (goto .writeToken t))

/-- `FlushSync()` (R251): the sync marker of R107. -/
def flushSync (s : State) : Act :=
  andThen (putBits 0 3 s) fun t =>
    andThen (padToByte t) fun t =>
      andThen (outByte 0x00#8 t) fun t =>
        andThen (outByte 0x00#8 t) fun t => andThen (outByte 0xFF#8 t) (outByte 0xFF#8)

/-- The block flush (R250 to R252). -/
def flushBlock (s : State) : Act :=
  if s.cfg.flush = .sync ∧ s.bfinal = 0#1 then flushSync s else padToByte s

/-- `RecordSize()` (R255). -/
def recordSize (s : State) : Act :=
  match memWrite .size s.blk.toNat s.blkOut s with
  | .error c => .error (raise c s)
  | .ok t => .ok { t with blk := t.blk + 1 }

/-- `NextOrDone()` (R257). -/
def nextOrDone (s : State) : State :=
  if s.consumed = s.latInputSize then goto .idle (setDone s) else goto .blkStart s

/-- `SEND_OUTPUT` (R250). -/
def sendOutput (s : State) : State :=
  finish
    (andThen (emitCode .lit eobSymbol s) fun t =>
      andThen (flushBlock t) fun t => andThen (recordSize t) fun t => .ok (nextOrDone t))

end Sys2Proof.Machine
end

