-- ==== Sys2Proof/Machine/HostAccess.lean ====
section
/-! DEFINITION. The host's moves other than START: the control registers (R23 to R25), the arrays (R71, R281, R315)
and reset (R310). -/

namespace Sys2Proof.Machine

/-- The control offset of `CTRL` (R23). -/
def ctrlOffset : Nat := 0x00

/-- The control offset of `INPUT_SIZE` (R23). -/
def inputSizeOffset : Nat := 0x10

/-- The control offset of `BLOCK_SIZE_KB` (R23). -/
def blockSizeKbOffset : Nat := 0x18

/-- The control space holds 32 bytes (R23). -/
def ctrlSpaceBytes : Nat := 32

/-- What a control read returns; an offset not listed reads 0 (R23, U20). -/
def ctrlRead (off : Nat) (s : State) : Word :=
  if off = ctrlOffset then ctrlWord s
  else if off = inputSizeOffset then s.inputSize
  else if off = blockSizeKbOffset then s.blockSizeKb
  else 0

/-- A control write that requests no START: the two argument registers are written, every other write is ignored
(R23 to R25). -/
def ctrlWrite (off : Nat) (v : Word) (s : State) : State :=
  if off = inputSizeOffset then { s with inputSize := v }
  else if off = blockSizeKbOffset then { s with blockSizeKb := v }
  else s

/-- The control access is a whole aligned 32-bit word (R23). -/
def wholeAlignedWord (off width : Nat) : Bool := decide (width = 4) && decide (off % 4 = 0)

/-- A host read hands its value to the host; a read changes nothing else (R24, R68). -/
def hostReads (v : Word) (s : State) : State := { s with hostRd := v }

/-- A host read that may return any value: the next draw (R71(d), U18; log 12). An element of `OUT` is a u8. -/
def hostReadsAny (sp : Space) (s : State) : State :=
  let v := Config.freeWord s.drawn
  { s with hostRd := (if sp = .out then (v.setWidth 8).zeroExtend 32 else v), drawn := s.drawn + 1 }

/-- A result the core wrote and the host may rely on: `OUT[j]` for j < op and `SIZE[i]` for i < blk once `DONE` reads 1
(R71(d)). -/
def resultReady (sp : Space) (i : Nat) (s : State) : Bool :=
  s.done &&
    match sp with
    | .out => decide (i < s.op.toNat)
    | .size => decide (i < s.blk.toNat)
    | _ => false

/-- A space the core writes (R63). -/
def Space.isOutput : Space → Bool
  | .out => true
  | .size => true
  | _ => false

/-- A host read of element i of a space (R71, R281; log 12, log 13). -/
def hostReadArray (sp : Space) (i : Nat) (s : State) : Host.Outcome State Fault Refusal :=
  if capacity s.cfg sp ≤ i then .fault .hostIndexBeyondCapacity
  else if sp.isOutput then
    if resultReady sp i s then .next (hostReads (element s.mem sp i) s) else .next (hostReadsAny sp s)
  else if idleFlag s then .next (hostReads (element s.mem sp i) s)
  else .refused .arrayAccessWhileBusy

/-- A host write of element i of a space: only while `CTRL.IDLE = 1` (R71(e), R281, R315; log 13). It lands in any space
(log 23); of a value above 255 `OUT` takes the low 8 bits (DESIGN CHOICE, log 25). -/
def hostWriteArray (sp : Space) (i : Nat) (v : Word) (s : State) : Host.Outcome State Fault Refusal :=
  if capacity s.cfg sp ≤ i then .fault .hostIndexBeyondCapacity
  else if idleFlag s then .next { s with mem := withElement s.mem sp i v }
  else .refused .arrayAccessWhileBusy

/-- Reset as an event (R310): every register takes its value of R41 (log 2, log 15), the arrays do not change. The
parameters, the moves still to come and what the host has read are not the block's registers. -/
def resetEvent (s : State) : State :=
  { State.reset with mem := s.mem, cfg := s.cfg, turns := s.turns, hostRd := s.hostRd, drawn := s.drawn }

end Sys2Proof.Machine
end

