-- ==== Sys2Proof/Machine/Token.lean ====
section
/-! DEFINITION. What the token meanings share: the part of `WRITE_TOKEN` before the branch (R155), and in which states
a token's steps run (R21, R157). A token instruction runs over several steps of the core; exec of it is the ONE step
that `st` names (log 9). -/

namespace Sys2Proof.Machine

/-- The core reads and decodes a token in this state: not faulted, in `WRITE_TOKEN`, block not at its end (R21, R155). -/
def atToken (s : State) : Bool :=
  decide (s.fault = none) && decide (s.st = .writeToken) && decide (s.blkRem ≠ 0#32)

/-- The core's next step is the action of state t (R21). -/
def atState (t : St) (s : State) : Bool := decide (s.fault = none) && decide (s.st = t)

/-- `tp <- tp + 1`: the word at `tp` has been read (R28, R155). -/
def nextToken (s : State) : State := { s with tp := s.tp + 1 }

/-- The block boundary detector counts a token's n uncompressed bytes (R95, R155). -/
def countBytes (n : Word) (s : State) : State :=
  { s with blkRem := s.blkRem - n, consumed := s.consumed + n }

end Sys2Proof.Machine
end

