-- ==== Sys2Proof/Machine/Literal.lean ====
section
/-! DEFINITION. `LIT`: the literal branch of `WRITE_TOKEN` (R155) and `LIT_REP` (R210). -/

namespace Sys2Proof.Machine

/-- The literal branch of `WRITE_TOKEN` (R155): latch the byte, count one byte, go to `LIT_REP`. -/
def acceptLit (b : Byte) (s : State) : State :=
  goto .litRep (countBytes 1 { nextToken s with tLit := b })

/-- `LIT_REP` (R210). -/
def litRep (s : State) : State :=
  finish (andThen (emitCode .lit s.tLit.toNat s) fun t => .ok (goto .writeToken t))

/-- `LIT b` (R92, R155, R210): the step of this token that `st` names. -/
def execLit (b : Byte) (s : State) : Host.Outcome State Fault Refusal :=
  if atToken s then .next (acceptLit b s)
  else if atState .litRep s && decide (s.tLit = b) then .next (litRep s)
  else .refused .notAtToken

end Sys2Proof.Machine
end

