-- ==== Sys2Proof/Machine/Match.lean ====
section
/-! DEFINITION. `MATCH`: the match branch of `WRITE_TOKEN` (R155) and the four states of 44_match.md. -/

namespace Sys2Proof.Machine

/-- The checks of `WRITE_TOKEN` on a match, in its order (R155, R275). -/
def checkMatch (len : Byte) (off : BitVec 16) (s : State) : Except FaultCode Unit :=
  if 32767 < off.toNat then .error .distRange
  else if s.blkRem.toNat < len.toNat then .error .boundary
  else if s.consumed.toNat < off.toNat + 1 then .error .distHistory
  else .ok ()

/-- The match branch of `WRITE_TOKEN` (R155): check, latch length and offset, count the bytes, go to `ML_DIST_REP`. -/
def acceptMatch (len : Byte) (off : BitVec 16) (s : State) : State :=
  match checkMatch len off s with
  | .error c => raise c (nextToken s)
  | .ok () => goto .mlDistRep (countBytes (len.zeroExtend 32) { nextToken s with tLen := len, tOff := off })

/-- `ML_DIST_REP` (R220). -/
def mlDistRep (s : State) : State :=
  let c := lcode s.tLen.toNat
  finish (andThen (emitCode .lit (257 + c) { s with lc := BitVec.ofNat 5 c }) fun t => .ok (goto .mlExtra t))

/-- `ML_EXTRA` (R223). -/
def mlExtra (s : State) : State :=
  let c := s.lc.toNat
  finish (andThen (putExtra (s.tLen.toNat - lbase c) (lext c) s) fun t => .ok (goto .distRep t))

/-- `DIST_REP` (R226). -/
def distRep (s : State) : State :=
  let c := dcode s.tOff.toNat
  finish (andThen (emitCode .dist c { s with dc := BitVec.ofNat 5 c }) fun t => .ok (goto .distExtra t))

/-- `DIST_EXTRA` (R229). -/
def distExtra (s : State) : State :=
  let c := s.dc.toNat
  finish (andThen (putExtra (s.tOff.toNat + 1 - dbase c) (dext c) s) fun t => .ok (goto .writeToken t))

/-- The match token the latches hold (R35). -/
def latchedMatch (len : Byte) (off : BitVec 16) (s : State) : Bool :=
  decide (s.tLen = len) && decide (s.tOff = off)

/-- `MATCH` with length `len` and distance `off + 1` (R93, R155, R220, R223, R226, R229): the step of this token that
`st` names. -/
def execMatch (len : Byte) (off : BitVec 16) (s : State) : Host.Outcome State Fault Refusal :=
  if atToken s then .next (acceptMatch len off s)
  else if latchedMatch len off s then
    if atState .mlDistRep s then .next (mlDistRep s)
    else if atState .mlExtra s then .next (mlExtra s)
    else if atState .distRep s then .next (distRep s)
    else if atState .distExtra s then .next (distExtra s)
    else .refused .notAtToken
  else .refused .notAtToken

end Sys2Proof.Machine
end

