-- ==== Sys2Proof/Machine/Reserved.lean ====
section
/-! DEFINITION. The reserved tokens (R94(a)): `WRITE_TOKEN` takes the fault `F_TOKEN_RSV` on them (R155). -/

namespace Sys2Proof.Machine

/-- `WRITE_TOKEN` on a reserved token: the word has been read, then `F_TOKEN_RSV` is raised (R155, R271). -/
def rejectReserved (s : State) : State := raise .tokenRsv (nextToken s)

/-- The token with `LEN` = 1 (R94(a), R155). -/
def execRsvLen1 (s : State) : Host.Outcome State Fault Refusal :=
  if atToken s then .next (rejectReserved s) else .refused .notAtToken

/-- The token with `LEN` = 2 (R94(a), R155). -/
def execRsvLen2 (s : State) : Host.Outcome State Fault Refusal :=
  if atToken s then .next (rejectReserved s) else .refused .notAtToken

end Sys2Proof.Machine
end

