-- ==== Sys2Proof/Machine/Start.lean ====
section
/-! DEFINITION. `START` (R150, R151), the core's only system operation. -/

namespace Sys2Proof.Machine

/-- A START is accepted only when `st = IDLE` and `fault = 0` (R24, R150). -/
def startAccepted (s : State) : Bool := decide (s.st = .idle) && decide (s.fault = none)

/-- What an accepted START writes before it branches (R150). -/
def latchArguments (s : State) : State :=
  clearDone
    { s with latInputSize := s.inputSize, latBskb := s.blockSizeKb, tp := 0, blk := 0, consumed := 0, op := 0 }

/-- `START` (R150, R151). A START that is not accepted has no effect. -/
def execStart (s : State) : Host.Outcome State Fault Refusal :=
  if startAccepted s then
    if (latchArguments s).latInputSize = 0#32 then .next (setDone (latchArguments s))
    else .next (goto .blkStart (latchArguments s))
  else .next s

end Sys2Proof.Machine
end

