-- ==== Sys2Proof/Machine/Control.lean ====
section
/-! DEFINITION. Whose move is next and what it is (R20, R21): a core step, which fetches a token in `WRITE_TOKEN`
(R155), or a host move. Step.lean runs the instruction this file selects. -/

namespace Sys2Proof.Machine

/-- What a step does: run an instruction in a state, or end with an outcome. -/
inductive Action
  | run (i : Instr) (s : State)
  | answer (o : Host.Outcome State Fault Refusal)

/-- `WRITE_TOKEN` up to its branch (R155): at the block's end go to `SEND_OUTPUT` and read nothing (D35), else read
`TOK[tp]` and run the token it decodes to. -/
def fetchToken (s : State) : Action :=
  if s.blkRem = 0#32 then .answer (.next (goto .sendOutput s))
  else
    match memRead .tok s.tp.toNat s with
    | .error c => .answer (.next (raise c s))
    | .ok w => .run (decodeToken w) s

/-- The core's move (R21): the action of the rule that defines `st`. In `IDLE`, and when faulted, the core has no step
and its turn passes. After `WRITE_TOKEN` the latched token (R35) is the instruction still running. -/
def coreMove (s : State) : Action :=
  if s.fault = none then
    match s.st with
    | .idle => .answer (.next s)
    | .fault => .answer (.next s)
    | .blkStart => .answer (.next (blkStart s))
    | .hdrFixed => .answer (.next (hdrFixed s))
    | .hdrClen => .answer (.next (hdrClen s))
    | .hdrTree => .answer (.next (hdrTree s))
    | .writeToken => fetchToken s
    | .litRep => .run (.lit s.tLit) s
    | .mlDistRep => .run (.matchTok s.tLen s.tOff) s
    | .mlExtra => .run (.matchTok s.tLen s.tOff) s
    | .distRep => .run (.matchTok s.tLen s.tOff) s
    | .distExtra => .run (.matchTok s.tLen s.tOff) s
    | .sendOutput => .answer (.next (sendOutput s))
  else .answer (.next s)

/-- A host write of the control space (R23 to R25): a write of `CTRL` with bit 0 set is the instruction START (R150). -/
def hostWriteCtrl (off width : Nat) (v : Word) (s : State) : Action :=
  if wholeAlignedWord off width = false then .answer (.refused .ctrlAccessNotAlignedWord)
  else if ctrlSpaceBytes ≤ off then .answer (.fault .outsideControlSpace)
  else if off = ctrlOffset then
    match decodeCtrl v with
    | .ok i => .run i s
    | .error _ => .answer (.next s)
  else .answer (.next (ctrlWrite off v s))

/-- A host read of the control space (R23, R24). -/
def hostReadCtrl (off width : Nat) (s : State) : Action :=
  if wholeAlignedWord off width = false then .answer (.refused .ctrlAccessNotAlignedWord)
  else if ctrlSpaceBytes ≤ off then .answer (.fault .outsideControlSpace)
  else .answer (.next (hostReads (ctrlRead off s) s))

/-- The host's move (R20(b)). -/
def hostMove (a : HostAct) (s : State) : Action :=
  match a with
  | .writeCtrl off width v => hostWriteCtrl off width v s
  | .readCtrl off width => hostReadCtrl off width s
  | .writeArray sp i v => .answer (hostWriteArray sp i v s)
  | .readArray sp i => .answer (hostReadArray sp i s)
  | .reset => .answer (.next (resetEvent s))

/-- The core's move when no move is listed: a faulted core is stuck until a reset (R272, U15), so the run stops here. -/
def unscheduledMove (s : State) : Action :=
  match s.fault with
  | some c => .answer (.fault (.coreFaulted c))
  | none => if s.st = .fault then .answer (.fault .stuckInFault) else coreMove s

/-- The next move: the oldest one listed in `turns`, which is taken off the list, or the core's (log 5). -/
def nextMove (s : State) : Action :=
  match s.turns with
  | [] => unscheduledMove s
  | .core :: rest => coreMove { s with turns := rest }
  | .host a :: rest => hostMove a { s with turns := rest }

/-- Places a token where the next step of the core reads it: at `TOK[tp]`, with the core in `WRITE_TOKEN`, not at a
block's end and not faulted, and no host move before it (log 11). -/
def placeToken (w : Word) (s : State) : State :=
  let room := decide (s.tp.toNat < capacity s.cfg .tok)
  let tp : Word := if room then s.tp else 0
  { s with
    st := .writeToken
    fault := none
    turns := []
    tp := tp
    blkRem := (if s.blkRem = 0#32 then 1024#32 else s.blkRem)
    cfg := (if tp.toNat < capacity s.cfg .tok then s.cfg else { s.cfg with tokWords := 1 })
    mem := withElement s.mem .tok tp.toNat w }

/-- Places an instruction where the next step meets it: a token in `TOK`, a START write as the host's next move. -/
def placeFetched (f : Fetched) (s : State) : State :=
  match f with
  | .token w => placeToken w s
  | .ctrlWrite w => { s with turns := [.host (.writeCtrl ctrlOffset 4 w)] }

end Sys2Proof.Machine
end

