-- ==== Sys2Proof/Machine/Dispatch.lean ====
section
/-! DEFINITION. One arm per constructor of Instr. -/

namespace Sys2Proof.Machine

def exec (i : Instr) (s : State) : Host.Outcome State Fault Refusal :=
  match i with
  | .lit b => Sys2Proof.Machine.execLit b s
  | .rsvLen1 => Sys2Proof.Machine.execRsvLen1 s
  | .rsvLen2 => Sys2Proof.Machine.execRsvLen2 s
  | .matchTok len off => Sys2Proof.Machine.execMatch len off s
  | .start => Sys2Proof.Machine.execStart s

end Sys2Proof.Machine
end

