-- ==== Sys2Proof/Machine/Step.lean ====
section
/-! DEFINITION. One step of the machine (R20, R21), and placing an instruction where the next step meets it. -/

namespace Sys2Proof.Machine

/-- Runs the instruction a move selects, or gives the move's own outcome. -/
def perform (a : Action) : Host.Outcome State Fault Refusal :=
  match a with
  | .run i t => exec i t
  | .answer o => o

/-- One step: the next move. -/
def step (s : State) : Host.Outcome State Fault Refusal := perform (nextMove s)

/-- s with an instruction of the opcode table placed where step meets its next one (log 11). -/
def State.withFetchWord (s : State) (nbits w : Nat) : State :=
  match tableFetched nbits w with
  | none => s
  | some f => placeFetched f s

end Sys2Proof.Machine
end

