-- ==== Sys2Proof/Safety.lean ====
section
/-! DEFINITION. The terms claims use: how a run ends (R159), the invariant, the bit stream a state has written (R66),
the entries a code may be emitted from (R109), the items of a run of lengths (R187), what an emitting step may change, the
accounts of R255 and R321, the transitions of R157, and what two runs of one session share (R312). -/

namespace Sys2Proof.Machine

/-- A run that has ended well (R159). -/
def EndedWell (s : State) : Prop := s.st = .idle ∧ s.done = true ∧ s.fault = none

/-- The states of the work on one block, from its header to its flush (R157). -/
def St.inBlock : St → Bool
  | .writeToken => true
  | .mlDistRep => true
  | .litRep => true
  | .sendOutput => true
  | .mlExtra => true
  | .distRep => true
  | .distExtra => true
  | .idle => false
  | .blkStart => false
  | .hdrFixed => true
  | .hdrClen => true
  | .hdrTree => true
  | .fault => false

/-- The states of a running invocation (R157). -/
def St.busy (t : St) : Bool := t.inBlock || decide (t = .blkStart)

/-- The states in which a latched match token is still running (R157). -/
def St.inMatch (t : St) : Bool :=
  decide (t = .mlDistRep) || decide (t = .mlExtra) || decide (t = .distRep) || decide (t = .distExtra)

/-- The accumulator between the steps of a block (R34): at most 7 pending bits, and nothing above them. -/
def Packed (s : State) : Prop := s.nbits.toNat ≤ 7 ∧ s.acc.toNat < 2 ^ s.nbits.toNat

/-- What every step keeps. -/
structure Inv (s : State) : Prop where
  /-- Every space is in its canonical form. -/
  memCanonical : Arrays.wf s.mem = true
  /-- `fault` is nonzero exactly in `FAULT` (R271, R272). -/
  faultState : s.fault = none ↔ s.st ≠ .fault
  /-- `DONE` reads 1 only in `IDLE` (R150, R257, R272). -/
  doneIdle : s.done = true → s.st = .idle
  /-- R34, while a block is at work; `BLK_START` clears `acc` and `nbits`, and R41 says nothing of them before. -/
  packed : s.st.inBlock = true → Packed s
  /-- The pointers stay within the capacities, and `consumed` within the input (R28, R30, R131, R255). -/
  counters : s.st.busy = true →
    s.tp.toNat ≤ s.cfg.tokWords.toNat ∧ s.op.toNat ≤ s.cfg.outBytes.toNat ∧ s.blk.toNat ≤ s.cfg.maxBlocks.toNat ∧
      s.consumed.toNat ≤ s.latInputSize.toNat
  /-- Inside a block: the bytes still to come fit the input (R152), the block's bytes are part of the output, its index
  is in range, and the header latch is in range (R111, R152). -/
  block : s.st.inBlock = true →
    s.consumed.toNat + s.blkRem.toNat ≤ s.latInputSize.toNat ∧ s.blkOut.toNat ≤ s.op.toNat ∧
      s.blk.toNat < s.cfg.maxBlocks.toNat ∧ maxCodesInRange s.m0.toNat s.m1.toNat s.m2.toNat = true
  /-- A block begins only while input is left (R150, R257). -/
  moreInput : s.st = .blkStart → s.consumed.toNat < s.latInputSize.toNat
  /-- The accumulator is empty at a block's header (R152). -/
  headerAligned : s.st = .hdrFixed → s.nbits = 0 ∧ s.blkOut = 0
  /-- The latched match is legal (R35, R93). -/
  matchLatch : s.st.inMatch = true → 3 ≤ s.tLen.toNat ∧ s.tOff.toNat ≤ 32767
  /-- The latched length code is that of the latched length (R36, R220). -/
  lengthCode : s.st = .mlExtra → s.lc.toNat = lcode s.tLen.toNat
  /-- The latched distance code is that of the latched offset (R36, R226). -/
  distanceCode : s.st = .distExtra → s.dc.toNat = dcode s.tOff.toNat
  /-- `SEND_OUTPUT` is entered at the block's end (R250). -/
  blockEnd : s.st = .sendOutput → s.blkRem = 0

/-- The n bits of an integer field, least significant first (R98). -/
def fieldBits (v : Word) (n : Nat) : List Bool := (List.range n).map fun i => v.getLsbD i

/-- The bits of an output byte, least significant first (R66). -/
def byteBits (b : Byte) : List Bool := (List.range 8).map fun i => b.getLsbD i

/-- The bit stream written so far (R66): the bytes `OUT[0..op-1]`, then the pending bits. -/
def streamBits (s : State) : List Bool :=
  ((List.range s.op.toNat).flatMap fun i => byteBits (Memory.read s.mem.out i)) ++ fieldBits s.acc s.nbits.toNat

/-- The count of bits written for the current block (R133). -/
def blockBits (s : State) : Nat := 8 * s.blkOut.toNat + s.nbits.toNat

/-- The output buffer has room for the bytes that n more bits complete (R131). -/
def Room (n : Nat) (s : State) : Prop := s.op.toNat + (s.nbits.toNat + n) / 8 ≤ s.cfg.outBytes.toNat

/-- `T.len[s]` of the current block, as the table holds it (R62). -/
def entryLen (t : Table) (sym : Nat) (s : State) : Nat := (element s.mem t.lenSpace (tableIndex t sym s)).toNat

/-- `T.code[s]` of the current block, as the table holds it (R62). -/
def entryCode (t : Table) (sym : Nat) (s : State) : Word := element s.mem t.codeSpace (tableIndex t sym s)

/-- An entry `EmitCode` emits: in a table of the block range, with a length in 1..max and a code that fits it
(R109, R134). -/
def GoodEntry (t : Table) (sym : Nat) (s : State) : Prop :=
  s.blk.toNat < s.cfg.maxBlocks.toNat ∧ sym < t.stride ∧ 1 ≤ entryLen t sym s ∧ entryLen t sym s ≤ t.maxLen ∧
    (entryCode t sym s).toNat < 2 ^ entryLen t sym s

/-- The bits a stored code stands for, in emission order (R109, R134): from bit 0 up under `REVERSED`, from bit
len - 1 down under `CANONICAL`. -/
def codeBits (t : Table) (sym : Nat) (s : State) : List Bool :=
  match s.cfg.codeOrder with
  | .reversed => fieldBits (entryCode t sym s) (entryLen t sym s)
  | .canonical => (fieldBits (entryCode t sym s) (entryLen t sym s)).reverse

/-- The bits of one code-length item: its code, then its extra bits (R188). -/
def itemBits (s : State) (i : Item) : List Bool := codeBits .bl i.sym s ++ fieldBits (BitVec.ofNat 32 i.extra) i.bits

/-- The bits of a code's extra field (R223, R229). -/
def extraBits (v e : Nat) : List Bool := fieldBits (BitVec.ofNat 32 v) e

/-- The lengths of a table's first n symbols in the current block (R187). -/
def tableLens (t : Table) (n : Nat) (s : State) : List Nat := (List.range n).map fun sym => entryLen t sym s

/-- The lengths a sequence of code-length items stands for (R99), after the lengths `done` already expanded. -/
def expandItems (done : List Nat) : List Item → List Nat
  | [] => done
  | i :: rest =>
    expandItems
      (done ++
        (if i.sym = 16 then List.replicate (3 + i.extra) (done.getLastD 0)
         else if i.sym = 17 then List.replicate (3 + i.extra) 0
         else if i.sym = 18 then List.replicate (11 + i.extra) 0
         else [i.sym]))
      rest

/-- An item of R99: a length 0..15 with no extra bits, or a repeat with its own field width and a value that fits it.
A repeat of the previous length needs a previous length. -/
def itemInRange (i : Item) : Bool :=
  (decide (i.sym ≤ 15) && decide (i.bits = 0) && decide (i.extra = 0)) ||
    (decide (i.sym = 16) && decide (i.bits = 2) && decide (i.extra < 4)) ||
    (decide (i.sym = 17) && decide (i.bits = 3) && decide (i.extra < 8)) ||
    (decide (i.sym = 18) && decide (i.bits = 7) && decide (i.extra < 128))

/-- The items of `HDR_TREE` (R186): those of the literal/length lengths, then those of the distance lengths. -/
def headerItems (s : State) : List Item :=
  treeItems (tableLens .lit s.m0.toNat s) ++ treeItems (tableLens .dist s.m1.toNat s)

/-- The items R187 writes for a whole run of n lengths v that follows another length: zeros in runs of up to 138; a
nonzero length first by itself with a repeat that makes up to 7 in all, then in repeats of up to 6; and what is too short
for a repeat one by one. -/
def runCode (v n : Nat) : List Item :=
  if v = 0 then
    List.replicate (n / 138) ⟨18, 127, 7⟩ ++
      (if n % 138 < 3 then List.replicate (n % 138) ⟨0, 0, 0⟩
       else if n % 138 ≤ 10 then [⟨17, n % 138 - 3, 3⟩]
       else [⟨18, n % 138 - 11, 7⟩])
  else if n < 4 then List.replicate n ⟨v, 0, 0⟩
  else if n ≤ 7 then [⟨v, 0, 0⟩, ⟨16, n - 4, 2⟩]
  else
    [⟨v, 0, 0⟩, ⟨16, 3, 2⟩] ++ List.replicate ((n - 7) / 6) ⟨16, 3, 2⟩ ++
      (if (n - 7) % 6 < 3 then List.replicate ((n - 7) % 6) ⟨v, 0, 0⟩ else [⟨16, (n - 7) % 6 - 3, 2⟩])

/-- The bits of the block flush (R107, R251, R252) when n bits of the current byte are pending. -/
def flushLength (n : Nat) (s : State) : Nat :=
  if s.cfg.flush = .sync ∧ s.bfinal = 0#1 then 3 + (8 - (n + 3) % 8) % 8 + 32 else (8 - n % 8) % 8

/-- The bits the step of an emitting state writes (R101). -/
def stepBits (s : State) : Nat :=
  match s.st with
  | .hdrFixed => 17
  | .hdrClen => 3 * s.m2.toNat
  | .hdrTree => ((headerItems s).flatMap (itemBits s)).length
  | .litRep => entryLen .lit s.tLit.toNat s
  | .mlDistRep => entryLen .lit (257 + lcode s.tLen.toNat) s
  | .mlExtra => lext (lcode s.tLen.toNat)
  | .distRep => entryLen .dist (dcode s.tOff.toNat) s
  | .distExtra => dext (dcode s.tOff.toNat)
  | .sendOutput => entryLen .lit 256 s + flushLength (s.nbits.toNat + entryLen .lit 256 s) s
  | .idle => 0
  | .blkStart => 0
  | .writeToken => 0
  | .fault => 0

/-- No table entry that the step of an emitting state looks up raises a fault (R134, R183, R187). -/
def EntriesGood (s : State) : Prop :=
  match s.st with
  | .hdrFixed => True
  | .hdrClen => ∀ sym ∈ blOrder.take s.m2.toNat, entryLen .bl sym s ≤ 7
  | .hdrTree =>
    (∀ l ∈ tableLens .lit s.m0.toNat s, l ≤ 15) ∧ (∀ l ∈ tableLens .dist s.m1.toNat s, l ≤ 15) ∧
      ∀ i ∈ headerItems s, GoodEntry .bl i.sym s
  | .litRep => GoodEntry .lit s.tLit.toNat s
  | .mlDistRep => GoodEntry .lit (257 + lcode s.tLen.toNat) s
  | .mlExtra => True
  | .distRep => GoodEntry .dist (dcode s.tOff.toNat) s
  | .distExtra => True
  | .sendOutput => GoodEntry .lit 256 s
  | .idle => True
  | .blkStart => True
  | .writeToken => True
  | .fault => True

/-- s with the code latch that its step writes before the look-up (R36, R220, R226). -/
def latchCode (s : State) : State :=
  { s with
    lc := (if s.st = .mlDistRep then BitVec.ofNat 5 (lcode s.tLen.toNat) else s.lc)
    dc := (if s.st = .distRep then BitVec.ofNat 5 (dcode s.tOff.toNat) else s.dc) }

/-- t differs from s at most in the bit-packer's registers, in bytes of `OUT` from `op` on that the pointer has passed,
and in `st`: what an emitting step may change. -/
def EmitsOnly (s t : State) : Prop :=
  t = { s with
        acc := t.acc
        nbits := t.nbits
        op := t.op
        blkOut := t.blkOut
        st := t.st
        mem := { s.mem with out := t.mem.out } } ∧
    s.op.toNat ≤ t.op.toNat ∧
    ∀ a, a < s.op.toNat ∨ t.op.toNat ≤ a → Memory.read t.mem.out a = Memory.read s.mem.out a

/-- t is s with bits appended to the stream (R98): only the bit-packer moves, by exactly these bits. -/
def Appends (bits : List Bool) (s t : State) : Prop :=
  EmitsOnly s t ∧ Packed t ∧ streamBits t = streamBits s ++ bits ∧
    t.op.toNat = s.op.toNat + (s.nbits.toNat + bits.length) / 8 ∧
    (s.blkOut.toNat ≤ s.op.toNat → blockBits t = blockBits s + bits.length)

/-- The sum of the first n elements of `SIZE`. -/
def sizeSum (m : Arrays) : Nat → Nat
  | 0 => 0
  | n + 1 => sizeSum m n + (element m .size n).toNat

/-- The bytes recorded in `SIZE` for the finished blocks, and those of the block at work, are the bytes written
(R255). -/
def SizesAccounted (s : State) : Prop :=
  s.st.busy = true →
    sizeSum s.mem s.blk.toNat + (if s.st.inBlock then s.blkOut.toNat else 0) = s.op.toNat

/-- The sum of the first n elements of `DESC`. -/
def descSum (m : Arrays) : Nat → Nat
  | 0 => 0
  | n + 1 => descSum m n + (element m .desc n).toNat

/-- The uncompressed bytes of the finished blocks, and those of the block at work that tokens have covered, are the
bytes consumed (R160). -/
def InputAccounted (s : State) : Prop :=
  s.st.busy = true →
    (s.st.inBlock = true → s.blkRem.toNat ≤ (element s.mem .desc s.blk.toNat).toNat) ∧
      descSum s.mem s.blk.toNat +
          (if s.st.inBlock then (element s.mem .desc s.blk.toNat).toNat - s.blkRem.toNat else 0) =
        s.consumed.toNat

/-- The bits a state may have written for its block before the tokens' 16 bits a byte (R321): the header's parts, less
what the running token may still add. -/
def headerAllowance : St → Nat
  | .hdrFixed => 0
  | .hdrClen => 17
  | .hdrTree => 74
  | .litRep => 4498 - 16
  | .mlDistRep => 4498 - 48
  | .mlExtra => 4498 - 33
  | .distRep => 4498 - 28
  | .distExtra => 4498 - 13
  | _ => 4498

/-- The running bound behind R321, for the states of a block: `DESC[blk]` uncompressed bytes, of which `blk_rem` are
still to come. -/
def WithinBudget (s : State) : Prop :=
  s.st.inBlock = true →
    s.blkRem.toNat ≤ (element s.mem .desc s.blk.toNat).toNat ∧
      blockBits s ≤ headerAllowance s.st + 16 * ((element s.mem .desc s.blk.toNat).toNat - s.blkRem.toNat)

/-- The states a core step may lead to (R157). -/
def successors : St → List St
  | .idle => [.idle]
  | .blkStart => [.hdrFixed, .fault]
  | .hdrFixed => [.hdrClen, .fault]
  | .hdrClen => [.hdrTree, .fault]
  | .hdrTree => [.writeToken, .fault]
  | .writeToken => [.sendOutput, .litRep, .mlDistRep, .fault]
  | .litRep => [.writeToken, .fault]
  | .mlDistRep => [.mlExtra, .fault]
  | .mlExtra => [.distRep, .fault]
  | .distRep => [.distExtra, .fault]
  | .distExtra => [.writeToken, .fault]
  | .sendOutput => [.blkStart, .idle, .fault]
  | .fault => []

/-- The input arrays of an invocation (R63): the spaces the core reads. -/
def sameInputArrays (a b : Arrays) : Prop :=
  a.tok = b.tok ∧ a.desc = b.desc ∧ a.litc = b.litc ∧ a.litl = b.litl ∧ a.distc = b.distc ∧ a.distl = b.distl ∧
    a.blc = b.blc ∧ a.bll = b.bll ∧ a.maxc = b.maxc

/-- The same results: output position, block count, and what the core wrote below them (R71(d)). -/
def SameResults (s t : State) : Prop :=
  s.op = t.op ∧ s.blk = t.blk ∧ (∀ a, a < s.op.toNat → Memory.read s.mem.out a = Memory.read t.mem.out a) ∧
    ∀ i, i < s.blk.toNat → element s.mem .size i = element t.mem .size i

/-- Two states of one session (R312): the same parameters, inputs and results, and the same value in every register
that the rest of the invocation reads before it writes it. -/
structure SameSession (s t : State) : Prop where
  cfg : s.cfg = t.cfg
  arrays : sameInputArrays s.mem t.mem
  st : s.st = t.st
  fault : s.fault = t.fault
  done : s.done = t.done
  arguments : s.latInputSize = t.latInputSize ∧ s.latBskb = t.latBskb
  pointers : s.tp = t.tp ∧ s.consumed = t.consumed
  results : SameResults s t
  block : s.st.inBlock = true →
    s.blkRem = t.blkRem ∧ s.blkOut = t.blkOut ∧ s.acc = t.acc ∧ s.nbits = t.nbits ∧ s.m0 = t.m0 ∧ s.m1 = t.m1 ∧
      s.m2 = t.m2 ∧ s.bfinal = t.bfinal
  literal : s.st = .litRep → s.tLit = t.tLit
  matchLatch : s.st.inMatch = true → s.tLen = t.tLen ∧ s.tOff = t.tOff
  lengthCode : s.st = .mlExtra → s.lc = t.lc
  distanceCode : s.st = .distExtra → s.dc = t.dc

end Sys2Proof.Machine
end

