-- ==== Sys2Proof/Certificates/Slice0/Obligations.lean ====
section
/-! DEFINITION. The statements for the provers, one definition each. A statement about a state of the core holds for
every value of the OPEN parameters (R10), which stand in the state. -/

open Sys2Proof Sys2Proof.Machine

/-! ## Encodings -/

/-- Words written out bit by bit from R90 to R94, R24 and the table, with what they stand for. -/
def Obligations.WrittenWordsDecode : Prop :=
  decodeToken 0b00000000000000000000000001100001#32 = .lit 0x61#8 ∧
    decodeToken 0b10101011110011010000000011111111#32 = .lit 0xFF#8 ∧
    decodeToken 0b00000000000000000000000100000000#32 = .rsvLen1 ∧
    decodeToken 0b11111111111111110000001011111111#32 = .rsvLen2 ∧
    decodeToken 0b00000001011111110110111000000000#32 = .matchTok 110#8 383#16 ∧
    decodeToken 0b00000000000000000111001110101011#32 = .matchTok 115#8 0#16 ∧
    decode (.ctrlWrite 0b00000000000000000000000000000001#32) = .ok .start ∧
    decode (.ctrlWrite 0b00000000000000000000000000000110#32) = .error .noStartBit

/-- Every well-formed instruction, with every value of its operands, is what its encoding decodes to. -/
def Obligations.DecodeUndoesEncode : Prop :=
  ∀ i : Instr, i.wf = true → decode (encode i) = .ok i

/-- Every token word decodes to a well-formed instruction, and encoding that gives the word back but for the bits its
token ignores (R92, R93, R94(c)). -/
def Obligations.EncodeUndoesDecode : Prop :=
  ∀ w : Word, (decodeToken w).wf = true ∧
    encode (decodeToken w) = .token (w &&&
      (if lenField w = 0#8 then 0x0000FFFF#32
       else if (lenField w).toNat < 3 then 0x0000FF00#32
       else 0xFFFFFF00#32))

/-- R92: the literal byte is bits 7:0, and bits 31:16 do not matter. -/
def Obligations.LiteralOperandBits : Prop :=
  ∀ (w : Word) (junk : BitVec 16), w.extractLsb' 8 8 = 0#8 →
    decodeToken w = .lit (w.extractLsb' 0 8) ∧ decodeToken (junk ++ w.extractLsb' 0 16) = decodeToken w

/-- R65: a token in host memory is four bytes, byte 0 bits 7:0. That the model keeps a u32 element so, byte k at
address 4i + k of its space, is the model's reading of R65 (log 4: R65 fixes only the host's view of one element). -/
def Obligations.TokenBytesAreLittleEndian : Prop :=
  ∀ (w : Word) (rest : List Byte) (m : Memory) (i : Nat), Memory.wf m = true →
    decodeBytes (w.extractLsb' 0 8 :: w.extractLsb' 8 8 :: w.extractLsb' 16 8 :: w.extractLsb' 24 8 :: rest) =
        .ok (decodeToken w, rest) ∧
      Memory.readWord (Memory.writeWord m i w) i = w ∧
      ∀ k < 4, Memory.read (Memory.writeWord m i w) (4 * i + k) = w.extractLsb' (8 * k) 8

/-! ## Operand computations -/

/-- R11: `rev` sends bit n-1-i to bit i, clears the rest, and undoes itself on n-bit values. -/
def Obligations.BitReversal : Prop :=
  ∀ (v : Word) (n : Nat), n ≤ 32 →
    (∀ i, (rev v n).getLsbD i = (decide (i < n) && v.getLsbD (n - 1 - i))) ∧
      (v.toNat < 2 ^ n → rev (rev v n) n = v)

/-- R103: for the lengths 3..258, `LCODE` is the largest code in 0..27 whose base is at most the length (28 for 258),
and the extra value fits the code's extra bits. -/
def Obligations.LengthCodeIsLargest : Prop :=
  ∀ len, 3 ≤ len → len ≤ 258 →
    (len ≤ 257 → lcode len ≤ 27 ∧ lbase (lcode len) ≤ len ∧ ∀ c ≤ 27, lbase c ≤ len → c ≤ lcode len) ∧
      (len = 258 → lcode len = 28) ∧ len - lbase (lcode len) < 2 ^ lext (lcode len)

/-- R105: `DCODE` is the largest distance code whose base is at most `off + 1`, computed as the two-branch lookup of
`DIST_CODE`, and the extra value fits the code's extra bits. -/
def Obligations.DistanceCodeIsLargest : Prop :=
  ∀ off, off ≤ 32767 →
    (off < 256 → distCodeTable[off]? = some (dcode off)) ∧
      (256 ≤ off → distCodeTable[256 + (off >>> 7)]? = some (dcode off)) ∧
      dcode off ≤ 29 ∧ dbase (dcode off) ≤ off + 1 ∧ (∀ c ≤ 29, dbase c ≤ off + 1 → c ≤ dcode off) ∧
      off + 1 - dbase (dcode off) < 2 ^ dext (dcode off)

/-- The items `SendTree` writes for a list of code lengths are items of the code-length alphabet, and read back by the
meaning R99 gives that alphabet they are that list: the header says exactly the table's lengths. -/
def Obligations.TreeItemsReadBack : Prop :=
  ∀ lens : List Nat, (∀ l ∈ lens, l ≤ 15) →
    expandItems [] (treeItems lens) = lens ∧ (∀ i ∈ treeItems lens, itemInRange i = true) ∧
      (treeItems lens).length ≤ lens.length

/-- The run rule of R187, whole: the items of a sequence of lengths are those of its maximal runs in order, and
`runCode` says the items of a run. -/
def Obligations.TreeItemsFollowRunRule : Prop :=
  treeItems [] = [] ∧
    ∀ (v n : Nat) (rest : List Nat), 1 ≤ n → rest.head? ≠ some v →
      treeItems (List.replicate n v ++ rest) = runCode v n ++ treeItems rest

/-! ## Steps and instructions -/

/-- A core step in `WRITE_TOKEN` runs the token that the word at `tp` decodes to; with a turn listed for the core it
does the same and the turn is gone. -/
def Obligations.StepRunsDecodedToken : Prop :=
  ∀ (s : State) (rest : List Turn) (i : Instr), s.fault = none → s.st = .writeToken → s.blkRem ≠ 0#32 →
    s.tp.toNat < s.cfg.tokWords.toNat → decode (.token (element s.mem .tok s.tp.toNat)) = .ok i →
      (s.turns = [] → step s = exec i s) ∧ (s.turns = .core :: rest → step s = exec i { s with turns := rest })

/-- After `WRITE_TOKEN` a core step runs the token that the latches hold. -/
def Obligations.StepRunsLatchedToken : Prop :=
  ∀ s : State, s.turns = [] → s.fault = none →
    (s.st = .litRep → step s = exec (.lit s.tLit) s) ∧
      (s.st.inMatch = true → step s = exec (.matchTok s.tLen s.tOff) s)

/-- A host write of `CTRL` with bit 0 set decodes to START and runs it; any other write of `CTRL` only passes the host's
turn. -/
def Obligations.StepRunsControlWrite : Prop :=
  ∀ (s : State) (rest : List Turn) (v : Word), s.turns = .host (.writeCtrl 0x00 4 v) :: rest →
    (v.getLsbD 0 = true → decode (.ctrlWrite v) = .ok .start ∧ step s = exec .start { s with turns := rest }) ∧
      (v.getLsbD 0 = false → step s = .next { s with turns := rest })

/-- The list of turns picks the mover and nothing else: a listed core turn is the core step of the same state. In `IDLE`
and when faulted the core's turn passes with no effect. -/
def Obligations.ListedCoreTurnIsCoreStep : Prop :=
  ∀ (s t : State) (rest : List Turn), s.turns = .core :: rest →
    ((s.st = .idle ∨ s.fault ≠ none) → step s = .next { s with turns := rest }) ∧
      (s.fault = none → step { s with turns := [] } = .next t → step s = .next { t with turns := rest })

/-- With no move listed, an idle core waits: the step changes nothing (R21, R286; the stuttering step is the model's
choice, log 6). -/
def Obligations.IdleCoreWaits : Prop :=
  ∀ s : State, s.turns = [] → s.fault = none → s.st = .idle → step s = .next s

/-- START (R150, R151), a host write of `CTRL` with bit 0 set: ignored unless the core is idle and not faulted; accepted,
it latches the arguments, clears the pointers and `DONE`, and begins the first block, or completes at once when
`INPUT_SIZE = 0`. Nothing else changes. -/
def Obligations.StartFollowsItsRule : Prop :=
  ∀ s : State,
    (∀ (rest : List Turn) (v : Word), v.getLsbD 0 = true →
        step { s with turns := .host (.writeCtrl 0x00 4 v) :: rest } = exec .start { s with turns := rest }) ∧
    exec .start s =
      .next
        (if s.st = .idle ∧ s.fault = none then
          let latched := { s with
            latInputSize := s.inputSize, latBskb := s.blockSizeKb, tp := 0, blk := 0, consumed := 0, op := 0 }
          if s.inputSize = 0#32 then { latched with done := true } else { latched with done := false, st := .blkStart }
        else s)

/-- `WRITE_TOKEN` (R155) whole: the block's end, the overrun, the literal, the reserved tokens, the three checks of a
match in their order, and the accepted match. -/
def Obligations.WriteTokenFollowsItsRule : Prop :=
  ∀ s : State, s.turns = [] → s.fault = none → s.st = .writeToken →
    step s =
      .next
        (if s.blkRem = 0#32 then { s with st := .sendOutput }
        else if s.cfg.tokWords.toNat ≤ s.tp.toNat then { s with fault := some .tokenOverrun, st := .fault }
        else
          let w := element s.mem .tok s.tp.toNat
          let len := w.extractLsb' 8 8
          let off := w.extractLsb' 16 16
          let read := { s with tp := s.tp + 1 }
          if len = 0#8 then
            { read with
              tLit := w.extractLsb' 0 8, blkRem := s.blkRem - 1, consumed := s.consumed + 1, st := .litRep }
          else if len.toNat < 3 then { read with fault := some .tokenRsv, st := .fault }
          else if 32767 < off.toNat then { read with fault := some .distRange, st := .fault }
          else if s.blkRem.toNat < len.toNat then { read with fault := some .boundary, st := .fault }
          else if s.consumed.toNat < off.toNat + 1 then { read with fault := some .distHistory, st := .fault }
          else
            { read with
              tLen := len, tOff := off, blkRem := s.blkRem - len.zeroExtend 32,
              consumed := s.consumed + len.zeroExtend 32, st := .mlDistRep })

/-- A literal token at `WRITE_TOKEN` completes: the byte is latched and one byte counted (R155). -/
def Obligations.LiteralIsAccepted : Prop :=
  ∀ (b : Byte) (s : State), s.fault = none → s.st = .writeToken → s.blkRem ≠ 0#32 →
    exec (.lit b) s =
      .next { s with
        tp := s.tp + 1, tLit := b, blkRem := s.blkRem - 1, consumed := s.consumed + 1, st := .litRep }

/-- A legal match at `WRITE_TOKEN` completes: length and offset are latched and the length is counted (R155). -/
def Obligations.MatchIsAccepted : Prop :=
  ∀ (len : Byte) (off : BitVec 16) (s : State), s.fault = none → s.st = .writeToken → s.blkRem ≠ 0#32 →
    off.toNat ≤ 32767 → len.toNat ≤ s.blkRem.toNat → off.toNat + 1 ≤ s.consumed.toNat →
      exec (.matchTok len off) s =
        .next { s with
          tp := s.tp + 1, tLen := len, tOff := off, blkRem := s.blkRem - len.zeroExtend 32,
          consumed := s.consumed + len.zeroExtend 32, st := .mlDistRep }

/-- A match that fails a check of R155 takes the first fault of R275's order: `fault` and `st` are written, the token
pointer has moved past the word, nothing else changes. -/
def Obligations.MatchFaultsInOrder : Prop :=
  ∀ (len : Byte) (off : BitVec 16) (s : State), s.fault = none → s.st = .writeToken → s.blkRem ≠ 0#32 →
    (32767 < off.toNat →
        exec (.matchTok len off) s = .next { s with tp := s.tp + 1, fault := some .distRange, st := .fault }) ∧
      (off.toNat ≤ 32767 → s.blkRem.toNat < len.toNat →
        exec (.matchTok len off) s = .next { s with tp := s.tp + 1, fault := some .boundary, st := .fault }) ∧
      (off.toNat ≤ 32767 → len.toNat ≤ s.blkRem.toNat → s.consumed.toNat < off.toNat + 1 →
        exec (.matchTok len off) s = .next { s with tp := s.tp + 1, fault := some .distHistory, st := .fault })

/-- A reserved token at `WRITE_TOKEN` takes the fault `F_TOKEN_RSV` (R94(a), R155, R271). -/
def Obligations.ReservedTokensFault : Prop :=
  ∀ s : State, s.fault = none → s.st = .writeToken → s.blkRem ≠ 0#32 →
    exec .rsvLen1 s = .next { s with tp := s.tp + 1, fault := some .tokenRsv, st := .fault } ∧
      exec .rsvLen2 s = .next { s with tp := s.tp + 1, fault := some .tokenRsv, st := .fault }

/-- The model's choice (log 9): a token is refused by name in a state in which the core does not run it. -/
def Obligations.TokensOutOfTurnAreRefused : Prop :=
  ∀ (b len : Byte) (off : BitVec 16) (s : State),
    (s.fault ≠ none ∨ s.st ≠ .writeToken ∨ s.blkRem = 0#32) →
      exec .rsvLen1 s = .refused .notAtToken ∧ exec .rsvLen2 s = .refused .notAtToken ∧
        ((s.fault ≠ none ∨ s.st ≠ .litRep ∨ s.tLit ≠ b) → exec (.lit b) s = .refused .notAtToken) ∧
        ((s.fault ≠ none ∨ s.st.inMatch = false ∨ s.tLen ≠ len ∨ s.tOff ≠ off) →
          exec (.matchTok len off) s = .refused .notAtToken)

/-! ## The bit-packer and the code dispatcher -/

/-- `PutBits` (R130): with room, it appends exactly the n bits, least significant first, and nothing but the packer
moves; without room it raises `F_OUT_OVERFLOW` with the buffer full. -/
def Obligations.PutBitsAppendsField : Prop :=
  ∀ (v : Word) (n : Nat) (s : State), Arrays.wf s.mem = true → Packed s → n ≤ 16 → v.toNat < 2 ^ n →
    s.op.toNat ≤ s.cfg.outBytes.toNat →
      (Room n s → ∃ t, putBits v n s = .ok t ∧ t.st = s.st ∧ Appends (fieldBits v n) s t) ∧
        (¬ Room n s →
          ∃ u, putBits v n s = .error (raise .outOverflow u) ∧ EmitsOnly s u ∧ u.st = s.st ∧
            u.op = s.cfg.outBytes)

/-- `OutByte` (R131): one byte stored at `op` and both counters advanced without wrapping, or `F_OUT_OVERFLOW` and
nothing stored. -/
def Obligations.OutByteStoresOneByte : Prop :=
  ∀ (b : Byte) (s : State), Arrays.wf s.mem = true →
    (s.op.toNat < s.cfg.outBytes.toNat →
        (s.op + 1).toNat = s.op.toNat + 1 ∧
          (s.blkOut.toNat ≤ s.op.toNat → (s.blkOut + 1).toNat = s.blkOut.toNat + 1) ∧
          ∃ m, outByte b s = .ok { s with mem := { s.mem with out := m }, op := s.op + 1, blkOut := s.blkOut + 1 } ∧
            Memory.read m s.op.toNat = b ∧ ∀ a, a ≠ s.op.toNat → Memory.read m a = Memory.read s.mem.out a) ∧
      (s.cfg.outBytes.toNat ≤ s.op.toNat → outByte b s = .error { s with fault := some .outOverflow, st := .fault })

/-- `PadToByte` (R132): zero bits up to the byte boundary, none when no bit is pending; afterwards none is. Without
room for the last byte it raises `F_OUT_OVERFLOW`. -/
def Obligations.PadToByteCompletesByte : Prop :=
  ∀ s : State, Arrays.wf s.mem = true → Packed s → s.op.toNat ≤ s.cfg.outBytes.toNat →
    (Room 7 s →
        ∃ t, padToByte s = .ok t ∧ t.st = s.st ∧ t.nbits = 0#5 ∧ t.acc = 0#32 ∧
          Appends (List.replicate ((8 - s.nbits.toNat) % 8) false) s t) ∧
      (¬ Room 7 s →
        ∃ u, padToByte s = .error (raise .outOverflow u) ∧ EmitsOnly s u ∧ u.st = s.st ∧ u.op = s.cfg.outBytes)

/-- `EmitCode` (R134): the faults in the order of its rule, else `PutBits` of the stored code (reversed under
`CANONICAL`) with the stored length. -/
def Obligations.EmitCodeFollowsItsRule : Prop :=
  ∀ (t : Table) (sym : Nat) (s : State), sym < t.stride →
    emitCode t sym s =
      if s.cfg.maxBlocks.toNat ≤ s.blk.toNat then .error { s with fault := some .blockOverrun, st := .fault }
      else if entryLen t sym s = 0 then .error { s with fault := some .zeroLen, st := .fault }
      else if t.maxLen < entryLen t sym s then .error { s with fault := some .lenRange, st := .fault }
      else if 2 ^ entryLen t sym s ≤ (entryCode t sym s).toNat then .error { s with fault := some .codeRange, st := .fault }
      else
        match s.cfg.codeOrder with
        | .reversed => putBits (entryCode t sym s) (entryLen t sym s) s
        | .canonical => putBits (rev (entryCode t sym s) (entryLen t sym s)) (entryLen t sym s) s

/-- `EmitCode` on a good entry appends the code in emission order under either bit order of the tables (R109, R134). -/
def Obligations.EmitCodeAppendsCode : Prop :=
  ∀ (t : Table) (sym : Nat) (s : State), Arrays.wf s.mem = true → Packed s → GoodEntry t sym s →
    Room (entryLen t sym s) s →
      ∃ u, emitCode t sym s = .ok u ∧ u.st = s.st ∧ Appends (codeBits t sym s) s u

/-! ## Emission of tokens -/

/-- `LIT_REP` (R210): the literal completes by appending its code, and nothing but the packer moves. -/
def Obligations.LiteralCodeIsAppended : Prop :=
  ∀ (b : Byte) (s : State), s.fault = none → s.st = .litRep → s.tLit = b → Arrays.wf s.mem = true → Packed s →
    GoodEntry .lit b.toNat s → Room (entryLen .lit b.toNat s) s →
      ∃ t, exec (.lit b) s = .next t ∧ t.st = .writeToken ∧ Appends (codeBits .lit b.toNat s) s t

/-- `ML_DIST_REP` (R220): the length code is latched and its symbol's code appended. -/
def Obligations.LengthCodeIsAppended : Prop :=
  ∀ (len : Byte) (off : BitVec 16) (s : State), s.fault = none → s.st = .mlDistRep → s.tLen = len → s.tOff = off →
    3 ≤ len.toNat → Arrays.wf s.mem = true → Packed s → GoodEntry .lit (257 + lcode len.toNat) s →
    Room (entryLen .lit (257 + lcode len.toNat) s) s →
      ∃ t, exec (.matchTok len off) s = .next t ∧ t.st = .mlExtra ∧ t.lc.toNat = lcode len.toNat ∧
        Appends (codeBits .lit (257 + lcode len.toNat) s) { s with lc := BitVec.ofNat 5 (lcode len.toNat) } t

/-- `ML_EXTRA` (R223): the length's extra bits are appended. -/
def Obligations.LengthExtraIsAppended : Prop :=
  ∀ (len : Byte) (off : BitVec 16) (s : State), s.fault = none → s.st = .mlExtra → s.tLen = len → s.tOff = off →
    3 ≤ len.toNat → s.lc.toNat = lcode len.toNat → Arrays.wf s.mem = true → Packed s →
    Room (lext (lcode len.toNat)) s →
      ∃ t, exec (.matchTok len off) s = .next t ∧ t.st = .distRep ∧
        Appends (extraBits (len.toNat - lbase (lcode len.toNat)) (lext (lcode len.toNat))) s t

/-- `DIST_REP` (R226): the distance code is latched and its code appended. -/
def Obligations.DistanceCodeIsAppended : Prop :=
  ∀ (len : Byte) (off : BitVec 16) (s : State), s.fault = none → s.st = .distRep → s.tLen = len → s.tOff = off →
    off.toNat ≤ 32767 → Arrays.wf s.mem = true → Packed s → GoodEntry .dist (dcode off.toNat) s →
    Room (entryLen .dist (dcode off.toNat) s) s →
      ∃ t, exec (.matchTok len off) s = .next t ∧ t.st = .distExtra ∧ t.dc.toNat = dcode off.toNat ∧
        Appends (codeBits .dist (dcode off.toNat) s) { s with dc := BitVec.ofNat 5 (dcode off.toNat) } t

/-- `DIST_EXTRA` (R229): the distance's extra bits are appended. -/
def Obligations.DistanceExtraIsAppended : Prop :=
  ∀ (len : Byte) (off : BitVec 16) (s : State), s.fault = none → s.st = .distExtra → s.tLen = len → s.tOff = off →
    off.toNat ≤ 32767 → s.dc.toNat = dcode off.toNat → Arrays.wf s.mem = true → Packed s →
    Room (dext (dcode off.toNat)) s →
      ∃ t, exec (.matchTok len off) s = .next t ∧ t.st = .writeToken ∧
        Appends (extraBits (off.toNat + 1 - dbase (dcode off.toNat)) (dext (dcode off.toNat))) s t

/-- Every state that emits codes takes the fault of the table entry it looks up (R134). In the states of a token (R210,
R220, R226) and in `SEND_OUTPUT` (R250) nothing is written but `fault`, `st` and, before the look-up, the code latch. In
`HDR_TREE` (R188, R189) the items before the bad one have been written (R271), and nothing else. -/
def Obligations.BadEntriesFault : Prop :=
  ∀ (b len : Byte) (off : BitVec 16) (s : State) (c : FaultCode), s.fault = none →
    (s.st = .litRep → s.tLit = b → lookupCode .lit b.toNat s = .error c →
        exec (.lit b) s = .next { s with fault := some c, st := .fault }) ∧
      (s.st = .mlDistRep → s.tLen = len → s.tOff = off → lookupCode .lit (257 + lcode len.toNat) s = .error c →
        exec (.matchTok len off) s =
          .next { s with lc := BitVec.ofNat 5 (lcode len.toNat), fault := some c, st := .fault }) ∧
      (s.st = .distRep → s.tLen = len → s.tOff = off → lookupCode .dist (dcode off.toNat) s = .error c →
        exec (.matchTok len off) s =
          .next { s with dc := BitVec.ofNat 5 (dcode off.toNat), fault := some c, st := .fault }) ∧
      (s.turns = [] → s.st = .sendOutput → lookupCode .lit 256 s = .error c →
        step s = .next { s with fault := some c, st := .fault }) ∧
      (Inv s → s.turns = [] → s.st = .hdrTree → (∀ l ∈ tableLens .lit s.m0.toNat s, l ≤ 15) →
        ∀ (before : List Item) (i : Item) (after : List Item), headerItems s = before ++ i :: after →
          (before.length < (treeItems (tableLens .lit s.m0.toNat s)).length ∨
            ∀ l ∈ tableLens .dist s.m1.toNat s, l ≤ 15) →
          (∀ j ∈ before, GoodEntry .bl j.sym s) → Room (before.flatMap (itemBits s)).length s →
          lookupCode .bl i.sym s = .error c →
            ∃ u, step s = .next { u with fault := some c, st := .fault } ∧
              Appends (before.flatMap (itemBits s)) s u)

/-- Every emitting step takes `F_OUT_OVERFLOW` (R61, R131) when its entries are good and the buffer has no room for the
bytes its bits complete: the buffer is full, and besides `fault` and `st` only the bit-packer has moved, and the code
latch that the step writes first (R271). -/
def Obligations.FullBufferFaults : Prop :=
  ∀ s : State, Inv s → s.turns = [] → s.st.inBlock = true → s.st ≠ .writeToken → EntriesGood s →
    ¬ Room (stepBits s) s →
      ∃ u, step s = .next { u with fault := some .outOverflow, st := .fault } ∧ EmitsOnly (latchCode s) u ∧
        u.op = s.cfg.outBytes

/-- A literal token is two core steps, and adds exactly its code's bits to its block (R211). -/
def Obligations.LiteralTokenRun : Prop :=
  ∀ (b : Byte) (s : State), Inv s → s.turns = [] → s.st = .writeToken → s.blkRem ≠ 0#32 →
    s.tp.toNat < s.cfg.tokWords.toNat → decodeToken (element s.mem .tok s.tp.toNat) = .lit b →
    GoodEntry .lit b.toNat s → Room (entryLen .lit b.toNat s) s →
      ∃ t, Host.Core.run Sys2Proof.core 2 s = .next t ∧ t.st = .writeToken ∧ t.tp = s.tp + 1 ∧
        t.blkRem.toNat + 1 = s.blkRem.toNat ∧ t.consumed.toNat = s.consumed.toNat + 1 ∧
        streamBits t = streamBits s ++ codeBits .lit b.toNat s ∧ blockBits t = blockBits s + entryLen .lit b.toNat s

/-- A match token of length len and distance off + 1 is five core steps, and adds exactly the bits of R231 to its block,
in the order length code, length extra bits, distance code, distance extra bits. -/
def Obligations.MatchTokenRun : Prop :=
  ∀ (len : Byte) (off : BitVec 16) (s : State), Inv s → s.turns = [] → s.st = .writeToken → s.blkRem ≠ 0#32 →
    s.tp.toNat < s.cfg.tokWords.toNat → decodeToken (element s.mem .tok s.tp.toNat) = .matchTok len off →
    off.toNat ≤ 32767 → len.toNat ≤ s.blkRem.toNat → off.toNat + 1 ≤ s.consumed.toNat →
    GoodEntry .lit (257 + lcode len.toNat) s → GoodEntry .dist (dcode off.toNat) s →
    Room
      (entryLen .lit (257 + lcode len.toNat) s + lext (lcode len.toNat) + entryLen .dist (dcode off.toNat) s +
        dext (dcode off.toNat)) s →
      ∃ t, Host.Core.run Sys2Proof.core 5 s = .next t ∧ t.st = .writeToken ∧ t.tp = s.tp + 1 ∧
        t.blkRem.toNat + len.toNat = s.blkRem.toNat ∧ t.consumed.toNat = s.consumed.toNat + len.toNat ∧
        streamBits t =
          streamBits s ++ codeBits .lit (257 + lcode len.toNat) s ++
            extraBits (len.toNat - lbase (lcode len.toNat)) (lext (lcode len.toNat)) ++
            codeBits .dist (dcode off.toNat) s ++
            extraBits (off.toNat + 1 - dbase (dcode off.toNat)) (dext (dcode off.toNat)) ∧
        blockBits t =
          blockBits s + entryLen .lit (257 + lcode len.toNat) s + lext (lcode len.toNat) +
            entryLen .dist (dcode off.toNat) s + dext (dcode off.toNat)

/-! ## Blocks -/

/-- `BLK_START` (R152) whole: its faults in order, then the header latch, BFINAL, and the per-block registers. -/
def Obligations.BlockStartFollowsItsRule : Prop :=
  ∀ s : State, s.turns = [] → s.fault = none → s.st = .blkStart →
    step s =
      .next
        (let bs := element s.mem .desc s.blk.toNat
        let a := element s.mem .maxc (3 * s.blk.toNat)
        let b := element s.mem .maxc (3 * s.blk.toNat + 1)
        let c := element s.mem .maxc (3 * s.blk.toNat + 2)
        if s.cfg.maxBlocks.toNat ≤ s.blk.toNat then { s with fault := some .blockOverrun, st := .fault }
        else if bs.toNat < 116 ∨ s.latBskb.toNat * 1024 < bs.toNat ∨ s.cfg.maxBlockBytes.toNat < bs.toNat ∨
            s.latInputSize.toNat < s.consumed.toNat + bs.toNat then
          { s with fault := some .badBlockSize, st := .fault }
        else if 257 ≤ a.toNat ∧ a.toNat ≤ 286 ∧ 1 ≤ b.toNat ∧ b.toNat ≤ 30 ∧ 4 ≤ c.toNat ∧ c.toNat ≤ 19 then
          { s with
            m0 := a.setWidth 9, m1 := b.setWidth 5, m2 := c.setWidth 5,
            bfinal :=
              (if s.cfg.bfinal = .last ∧ s.consumed.toNat + bs.toNat = s.latInputSize.toNat then 1 else 0),
            blkRem := bs, blkOut := 0, acc := 0, nbits := 0, st := .hdrFixed }
        else { s with fault := some .badMaxCodes, st := .fault })

/-- `HDR_FIXED` (R180): the 17 bits of BFINAL, BTYPE = 10, HLIT, HDIST and HCLEN. -/
def Obligations.FixedHeaderIsAppended : Prop :=
  ∀ s : State, Inv s → s.turns = [] → s.st = .hdrFixed → Room 17 s →
    ∃ t, step s = .next t ∧ t.st = .hdrClen ∧
      Appends
        ([decide (s.bfinal = 1#1), false, true] ++ extraBits (s.m0.toNat - 257) 5 ++ extraBits (s.m1.toNat - 1) 5 ++
          extraBits (s.m2.toNat - 4) 4) s t

/-- `HDR_CLEN` (R183): `m2` code lengths of the code-length alphabet, 3 bits each, in `BL_ORDER` order; a length above 7
among them raises `F_LEN_RANGE`. -/
def Obligations.CodeLengthLengthsAreAppended : Prop :=
  ∀ s : State, Inv s → s.turns = [] → s.st = .hdrClen → Room (3 * s.m2.toNat) s →
    let ranks := [16, 17, 18, 0, 8, 7, 9, 6, 10, 5, 11, 4, 12, 3, 13, 2, 14, 1, 15].take s.m2.toNat
    ((∀ sym ∈ ranks, entryLen .bl sym s ≤ 7) →
        ∃ t, step s = .next t ∧ t.st = .hdrTree ∧
          Appends (ranks.flatMap fun sym => extraBits (entryLen .bl sym s) 3) s t) ∧
      ((∃ sym ∈ ranks, 7 < entryLen .bl sym s) →
        ∃ u, step s = .next { u with fault := some .lenRange, st := .fault } ∧ EmitsOnly s u)

/-- `HDR_TREE` (R186 to R188): the items of the literal/length lengths, then those of the distance lengths, each the
item's code and its extra bits. -/
def Obligations.TreesAreAppended : Prop :=
  ∀ s : State, Inv s → s.turns = [] → s.st = .hdrTree →
    (∀ l ∈ tableLens .lit s.m0.toNat s, l ≤ 15) → (∀ l ∈ tableLens .dist s.m1.toNat s, l ≤ 15) →
    (∀ i ∈ headerItems s, GoodEntry .bl i.sym s) → Room ((headerItems s).flatMap (itemBits s)).length s →
      ∃ t, step s = .next t ∧ t.st = .writeToken ∧ Appends ((headerItems s).flatMap (itemBits s)) s t

/-- `HDR_TREE` checks every length of a table before it writes any item of that table (R187, R275): a long literal/length
length faults with nothing written, a long distance length after the literal/length items and nothing else. -/
def Obligations.LongLengthFaultsBeforeTree : Prop :=
  ∀ s : State, Inv s → s.turns = [] → s.st = .hdrTree →
    ((∃ l ∈ tableLens .lit s.m0.toNat s, 15 < l) → step s = .next { s with fault := some .lenRange, st := .fault }) ∧
      ((∀ l ∈ tableLens .lit s.m0.toNat s, l ≤ 15) → (∃ l ∈ tableLens .dist s.m1.toNat s, 15 < l) →
        (∀ i ∈ treeItems (tableLens .lit s.m0.toNat s), GoodEntry .bl i.sym s) →
        Room ((treeItems (tableLens .lit s.m0.toNat s)).flatMap (itemBits s)).length s →
          ∃ u, step s = .next { u with fault := some .lenRange, st := .fault } ∧
            Appends ((treeItems (tableLens .lit s.m0.toNat s)).flatMap (itemBits s)) s u)

/-- `SEND_OUTPUT` (R250 to R257): EOB, the flush, the block's byte count, then the next block or the end. -/
def Obligations.BlockEndFollowsItsRule : Prop :=
  ∀ s : State, Inv s → s.turns = [] → s.st = .sendOutput → GoodEntry .lit 256 s →
    Room (entryLen .lit 256 s + 42) s →
      ∃ t, step s = .next t ∧ t.fault = none ∧ t.nbits = 0#5 ∧ t.acc = 0#32 ∧
        streamBits t =
          streamBits s ++ codeBits .lit 256 s ++
            (if s.cfg.flush = .sync ∧ s.bfinal = 0#1 then
              List.replicate (3 + (8 - (s.nbits.toNat + entryLen .lit 256 s + 3) % 8) % 8) false ++
                byteBits 0x00 ++ byteBits 0x00 ++ byteBits 0xFF ++ byteBits 0xFF
            else List.replicate ((8 - (s.nbits.toNat + entryLen .lit 256 s) % 8) % 8) false) ∧
        t.blkOut.toNat = s.blkOut.toNat + (t.op.toNat - s.op.toNat) ∧ element t.mem .size s.blk.toNat = t.blkOut ∧
        (∀ i, i ≠ s.blk.toNat → element t.mem .size i = element s.mem .size i) ∧
        (∀ a, a < s.op.toNat ∨ t.op.toNat ≤ a → Memory.read t.mem.out a = Memory.read s.mem.out a) ∧
        t =
          { s with
            acc := 0, nbits := 0, op := t.op, blkOut := t.blkOut, blk := s.blk + 1,
            done := (if s.consumed = s.latInputSize then true else s.done),
            st := (if s.consumed = s.latInputSize then .idle else .blkStart),
            mem := { s.mem with out := t.mem.out, size := t.mem.size } }

/-- R258: after `SEND_OUTPUT` no bit is pending. -/
def Obligations.BlockEndsByteAligned : Prop :=
  ∀ s t : State, Inv s → s.turns = [] → s.st = .sendOutput → step s = .next t → t.fault = none →
    t.nbits = 0#5 ∧ t.acc = 0#32

/-! ## The host's accesses and reset -/

/-- Control reads and writes (R23 to R25): `CTRL` reads `DONE` in bit 1, `IDLE` in bit 2 and 0 elsewhere; the two
argument registers read as written; other offsets of the space read 0 and ignore writes; an access that is not a whole
aligned word is refused. A read changes nothing but what the host has read. -/
def Obligations.ControlAccesses : Prop :=
  ∀ (s : State) (rest : List Turn) (off width : Nat) (v : Word),
    (s.turns = .host (.readCtrl off width) :: rest ∨ s.turns = .host (.writeCtrl off width v) :: rest →
        (width ≠ 4 ∨ off % 4 ≠ 0) → step s = .refused .ctrlAccessNotAlignedWord) ∧
      (s.turns = .host (.readCtrl off 4) :: rest → off % 4 = 0 → off < 32 →
        ∃ r : Word, step s = .next { s with turns := rest, hostRd := r } ∧
          (off = 0x00 → r.getLsbD 1 = s.done ∧ r.getLsbD 2 = decide (s.st = .idle) ∧
            ∀ i, i ≠ 1 → i ≠ 2 → r.getLsbD i = false) ∧
          (off = 0x10 → r = s.inputSize) ∧ (off = 0x18 → r = s.blockSizeKb) ∧
          (off ≠ 0x00 → off ≠ 0x10 → off ≠ 0x18 → r = 0)) ∧
      (s.turns = .host (.writeCtrl off 4 v) :: rest → off % 4 = 0 → off < 32 →
        (off = 0x10 → step s = .next { s with turns := rest, inputSize := v }) ∧
          (off = 0x18 → step s = .next { s with turns := rest, blockSizeKb := v }) ∧
          (off ≠ 0x00 → off ≠ 0x10 → off ≠ 0x18 → step s = .next { s with turns := rest }))

/-- Host array writes (R71(e), R61, R281): while `CTRL.IDLE = 1` an element of any space is written and reads back;
while it is 0 the write is refused. The model's choices here: a write of `OUT` or `SIZE` lands (log 23), `OUT` keeps the
low 8 bits of a wider value (log 25), and the refusal is by name (log 13). -/
def Obligations.HostArrayWrites : Prop :=
  ∀ (s : State) (rest : List Turn) (sp : Space) (i : Nat) (v : Word),
    s.turns = .host (.writeArray sp i v) :: rest → Arrays.wf s.mem = true → i < capacity s.cfg sp →
      (s.st ≠ .idle → step s = .refused .arrayAccessWhileBusy) ∧
        (s.st = .idle →
          ∃ m, step s = .next { s with turns := rest, mem := m } ∧ Arrays.wf m = true ∧
            element m sp i = (if sp = .out then v &&& 0xFF#32 else v) ∧
            ∀ sq j, sq ≠ sp ∨ j ≠ i → element m sq j = element s.mem sq j)

/-- Host array reads (R71(d)): `OUT[j]` for j < op and `SIZE[i]` for i < blk read as written once `DONE` reads 1; before
that or beyond those indices a read returns a free value, and changes nothing else but the count of draws. -/
def Obligations.HostResultReads : Prop :=
  ∀ (s : State) (rest : List Turn) (sp : Space) (i : Nat),
    s.turns = .host (.readArray sp i) :: rest → sp = .out ∨ sp = .size → i < capacity s.cfg sp →
      (s.done = true → (sp = .out → i < s.op.toNat) → (sp = .size → i < s.blk.toNat) →
          step s = .next { s with turns := rest, hostRd := element s.mem sp i }) ∧
        (s.done = false ∨ (sp = .out ∧ s.op.toNat ≤ i) ∨ (sp = .size ∧ s.blk.toNat ≤ i) →
          ∃ r, step s = .next { s with turns := rest, hostRd := r, drawn := s.drawn + 1 })

/-- Host reads of the nine input spaces (R63, R71(c), R281): while `CTRL.IDLE = 1` the element reads as it stands, and
nothing else changes; while it is 0 the read is refused by name, which is the model's choice (log 13). -/
def Obligations.HostInputReads : Prop :=
  ∀ (s : State) (rest : List Turn) (sp : Space) (i : Nat),
    s.turns = .host (.readArray sp i) :: rest → sp ≠ .out → sp ≠ .size → i < capacity s.cfg sp →
      (s.st = .idle → step s = .next { s with turns := rest, hostRd := element s.mem sp i }) ∧
        (s.st ≠ .idle → step s = .refused .arrayAccessWhileBusy)

/-- Reset (R310) from any state: idle, not done, not faulted, so that `CTRL` reads 4 and a START is accepted; the arrays
and the parameters do not change. The values of the other registers are the model's choice (log 2) and not stated. -/
def Obligations.ResetLeavesIdle : Prop :=
  ∀ (s : State) (rest : List Turn), s.turns = .host .reset :: rest →
    ∃ t, step s = .next t ∧ t.st = .idle ∧ t.done = false ∧ t.fault = none ∧ t.mem = s.mem ∧ t.cfg = s.cfg ∧
      t.turns = rest ∧ ctrlWord t = 0x00000004#32

/-- What R41 states of the machine after reset. -/
def Obligations.ResetStateAsStated : Prop :=
  State.reset.st = .idle ∧ State.reset.done = false ∧ State.reset.fault = none ∧
    ctrlWord State.reset = 0x00000004#32 ∧ Arrays.wf State.reset.mem = true

/-! ## Rules about the whole machine -/

/-- The invariant holds after reset. It asks nothing of the registers that R41 leaves unspecified (log 2), since each of
its clauses about them speaks only of the states in which they have been written. -/
def Obligations.ResetSatisfiesInvariant : Prop := Inv State.reset

/-- Every step, of either agent, keeps the invariant: canonical memory, the accumulator of R34 while a block is at work,
the counters within their bounds (R28, R30), the latches in the ranges their readers rely on. The reset move keeps it
whatever values it leaves in the registers of log 2 and log 15. -/
def Obligations.StepKeepsInvariant : Prop := ∀ s t : State, Inv s → step s = .next t → Inv t

/-- R63: a core step writes no input space, and writes `SIZE` only in `SEND_OUTPUT`; nor does any step change the
parameters (R10). -/
def Obligations.CoreWritesOnlyResults : Prop :=
  ∀ s t : State, Inv s → step s = .next t →
    t.cfg = s.cfg ∧
      (s.turns = [] →
        sameInputArrays s.mem t.mem ∧ (s.st ≠ .sendOutput → t.mem.size = s.mem.size) ∧
          (∀ a, a < s.op.toNat ∨ t.op.toNat ≤ a → Memory.read t.mem.out a = Memory.read s.mem.out a) ∧
          t.inputSize = s.inputSize ∧ t.blockSizeKb = s.blockSizeKb ∧ t.hostRd = s.hostRd ∧ t.drawn = s.drawn)

/-- R28: the token pointer moves only when `WRITE_TOKEN` reads a token, by exactly 1 and without wrapping; a core step
elsewhere leaves it. -/
def Obligations.TokenPointerIsSequential : Prop :=
  ∀ s t : State, Inv s → s.turns = [] → step s = .next t →
    (s.st = .writeToken ∧ s.blkRem ≠ 0#32 ∧ s.tp.toNat < s.cfg.tokWords.toNat → t.tp.toNat = s.tp.toNat + 1) ∧
      (¬ (s.st = .writeToken ∧ s.blkRem ≠ 0#32 ∧ s.tp.toNat < s.cfg.tokWords.toNat) → t.tp = s.tp)

/-- R157: a core step leads only to the states its transition table lists, and to `FAULT` exactly with a fault code. -/
def Obligations.TransitionsFollowTable : Prop :=
  ∀ s t : State, Inv s → s.turns = [] → step s = .next t →
    t.st ∈ successors s.st ∧ (t.st = .fault ↔ t.fault ≠ none)

/-- R271, R272: a faulted core stays as it is: no step but the host's reset changes a register of the core, an array or a
parameter (the host may still write its two argument registers and read), a START is ignored, `CTRL` reads 0, and with no
move listed the run has stopped, which is the model's form of "stuck" (log 7). -/
def Obligations.FaultLastsUntilReset : Prop :=
  ∀ (s : State) (c : FaultCode), Inv s → s.fault = some c →
    ctrlWord s = 0 ∧ exec .start s = .next s ∧ (s.turns = [] → step s = .fault (.coreFaulted c)) ∧
      ∀ t, step s = .next t → s.turns.head? ≠ some (.host .reset) →
        t.fault = some c ∧ t.st = .fault ∧
          t =
            { s with
              inputSize := t.inputSize, blockSizeKb := t.blockSizeKb, turns := t.turns, hostRd := t.hostRd,
              drawn := t.drawn }

/-- R255: the sizes recorded for the finished blocks and the bytes of the block at work add up to the output position.
That holds after reset, an accepted START establishes it, and every step of either agent keeps it; so at a block's end the
sizes add up to `op`. -/
def Obligations.SizesAddUpToOutput : Prop :=
  SizesAccounted State.reset ∧
    (∀ s t : State, s.st = .idle → s.fault = none → exec .start s = .next t → SizesAccounted t) ∧
    ∀ s t : State, Inv s → SizesAccounted s → step s = .next t →
      SizesAccounted t ∧
        (s.turns = [] → s.st = .sendOutput → t.fault = none → sizeSum t.mem t.blk.toNat = t.op.toNat)

/-- R160, R30: the sizes of the finished blocks and the covered part of the block at work add up to `consumed`. That
holds after reset, an accepted START establishes it, and every step of either agent keeps it; so a block's tokens cover
exactly `DESC[i]`, and the blocks of a good end the whole input. -/
def Obligations.BlocksCoverInput : Prop :=
  InputAccounted State.reset ∧
    (∀ s t : State, s.st = .idle → s.fault = none → exec .start s = .next t → InputAccounted t) ∧
    ∀ s t : State, Inv s → InputAccounted s → step s = .next t →
      InputAccounted t ∧
        (s.turns = [] → s.st = .sendOutput →
          (t.fault = none → descSum t.mem t.blk.toNat = t.consumed.toNat) ∧
            (EndedWell t → descSum t.mem t.blk.toNat = t.latInputSize.toNat))

/-- R321: a block stays within its bit budget. That holds after reset and after an accepted START, and every step of
either agent keeps it; so a block of n uncompressed bytes that ends is recorded with at most 2n + 570 bytes. -/
def Obligations.OutputWithinBound : Prop :=
  WithinBudget State.reset ∧
    (∀ s t : State, s.st = .idle → s.fault = none → exec .start s = .next t → WithinBudget t) ∧
    ∀ s t : State, Inv s → WithinBudget s → step s = .next t →
      WithinBudget t ∧
        (s.turns = [] → s.st = .sendOutput → t.fault = none →
          (element t.mem .size s.blk.toNat).toNat ≤ 2 * (element s.mem .desc s.blk.toNat).toNat + 570)

/-- R158: from an accepted START the core reaches a good end within 5 steps for each input byte and 6 for each block
completed, or a fault within that and 6 more. -/
def Obligations.EveryInvocationEnds : Prop :=
  ∀ s t : State, Inv s → s.turns = [] → s.st = .idle → s.inputSize ≠ 0#32 → exec .start s = .next t →
    ∃ n u, Host.Core.run Sys2Proof.core n t = .next u ∧
      ((EndedWell u ∧ n ≤ 5 * s.inputSize.toNat + 6 * u.blk.toNat) ∨
        (u.st = .fault ∧ u.fault ≠ none ∧ n ≤ 5 * s.inputSize.toNat + 6 * (u.blk.toNat + 1)))

/-- R312: no state of an invocation carries into the next. Two idle machines with the same parameters, arguments and
input arrays, whatever else they hold, go through a START and any number of core steps with the same outcome, the same
state, the same results and the same fault. -/
def Obligations.SessionsAreClean : Prop :=
  ∀ (s t : State) (n : Nat), Inv s → Inv t → s.st = .idle → t.st = .idle → s.turns = [] → t.turns = [] →
    s.cfg = t.cfg → s.inputSize = t.inputSize → s.blockSizeKb = t.blockSizeKb → sameInputArrays s.mem t.mem →
      ∀ s0 t0, exec .start s = .next s0 → exec .start t = .next t0 →
        (∃ s' t', Host.Core.run Sys2Proof.core n s0 = .next s' ∧ Host.Core.run Sys2Proof.core n t0 = .next t' ∧
            SameSession s' t') ∨
          (∃ c, Host.Core.run Sys2Proof.core n s0 = .fault c ∧ Host.Core.run Sys2Proof.core n t0 = .fault c)
end

