-- ==== Sys2Proof/Laws/State.lean ====
section
/-! SUPPORT. One lemma per field per named update of State, and per space of Arrays, each true by rfl. -/

namespace Sys2Proof.Machine

@[simp] theorem raise_inputSize (c : FaultCode) (s : State) : (raise c s).inputSize = s.inputSize := rfl
@[simp] theorem raise_blockSizeKb (c : FaultCode) (s : State) : (raise c s).blockSizeKb = s.blockSizeKb := rfl
@[simp] theorem raise_done (c : FaultCode) (s : State) : (raise c s).done = s.done := rfl
@[simp] theorem raise_st (c : FaultCode) (s : State) : (raise c s).st = .fault := rfl
@[simp] theorem raise_tp (c : FaultCode) (s : State) : (raise c s).tp = s.tp := rfl
@[simp] theorem raise_blk (c : FaultCode) (s : State) : (raise c s).blk = s.blk := rfl
@[simp] theorem raise_consumed (c : FaultCode) (s : State) : (raise c s).consumed = s.consumed := rfl
@[simp] theorem raise_blkRem (c : FaultCode) (s : State) : (raise c s).blkRem = s.blkRem := rfl
@[simp] theorem raise_op (c : FaultCode) (s : State) : (raise c s).op = s.op := rfl
@[simp] theorem raise_blkOut (c : FaultCode) (s : State) : (raise c s).blkOut = s.blkOut := rfl
@[simp] theorem raise_acc (c : FaultCode) (s : State) : (raise c s).acc = s.acc := rfl
@[simp] theorem raise_nbits (c : FaultCode) (s : State) : (raise c s).nbits = s.nbits := rfl
@[simp] theorem raise_tLit (c : FaultCode) (s : State) : (raise c s).tLit = s.tLit := rfl
@[simp] theorem raise_tLen (c : FaultCode) (s : State) : (raise c s).tLen = s.tLen := rfl
@[simp] theorem raise_tOff (c : FaultCode) (s : State) : (raise c s).tOff = s.tOff := rfl
@[simp] theorem raise_lc (c : FaultCode) (s : State) : (raise c s).lc = s.lc := rfl
@[simp] theorem raise_dc (c : FaultCode) (s : State) : (raise c s).dc = s.dc := rfl
@[simp] theorem raise_m0 (c : FaultCode) (s : State) : (raise c s).m0 = s.m0 := rfl
@[simp] theorem raise_m1 (c : FaultCode) (s : State) : (raise c s).m1 = s.m1 := rfl
@[simp] theorem raise_m2 (c : FaultCode) (s : State) : (raise c s).m2 = s.m2 := rfl
@[simp] theorem raise_bfinal (c : FaultCode) (s : State) : (raise c s).bfinal = s.bfinal := rfl
@[simp] theorem raise_latInputSize (c : FaultCode) (s : State) : (raise c s).latInputSize = s.latInputSize := rfl
@[simp] theorem raise_latBskb (c : FaultCode) (s : State) : (raise c s).latBskb = s.latBskb := rfl
@[simp] theorem raise_fault (c : FaultCode) (s : State) : (raise c s).fault = some c := rfl
@[simp] theorem raise_mem (c : FaultCode) (s : State) : (raise c s).mem = s.mem := rfl
@[simp] theorem raise_cfg (c : FaultCode) (s : State) : (raise c s).cfg = s.cfg := rfl
@[simp] theorem raise_turns (c : FaultCode) (s : State) : (raise c s).turns = s.turns := rfl
@[simp] theorem raise_hostRd (c : FaultCode) (s : State) : (raise c s).hostRd = s.hostRd := rfl
@[simp] theorem raise_drawn (c : FaultCode) (s : State) : (raise c s).drawn = s.drawn := rfl

@[simp] theorem goto_inputSize (x : St) (s : State) : (goto x s).inputSize = s.inputSize := rfl
@[simp] theorem goto_blockSizeKb (x : St) (s : State) : (goto x s).blockSizeKb = s.blockSizeKb := rfl
@[simp] theorem goto_done (x : St) (s : State) : (goto x s).done = s.done := rfl
@[simp] theorem goto_st (x : St) (s : State) : (goto x s).st = x := rfl
@[simp] theorem goto_tp (x : St) (s : State) : (goto x s).tp = s.tp := rfl
@[simp] theorem goto_blk (x : St) (s : State) : (goto x s).blk = s.blk := rfl
@[simp] theorem goto_consumed (x : St) (s : State) : (goto x s).consumed = s.consumed := rfl
@[simp] theorem goto_blkRem (x : St) (s : State) : (goto x s).blkRem = s.blkRem := rfl
@[simp] theorem goto_op (x : St) (s : State) : (goto x s).op = s.op := rfl
@[simp] theorem goto_blkOut (x : St) (s : State) : (goto x s).blkOut = s.blkOut := rfl
@[simp] theorem goto_acc (x : St) (s : State) : (goto x s).acc = s.acc := rfl
@[simp] theorem goto_nbits (x : St) (s : State) : (goto x s).nbits = s.nbits := rfl
@[simp] theorem goto_tLit (x : St) (s : State) : (goto x s).tLit = s.tLit := rfl
@[simp] theorem goto_tLen (x : St) (s : State) : (goto x s).tLen = s.tLen := rfl
@[simp] theorem goto_tOff (x : St) (s : State) : (goto x s).tOff = s.tOff := rfl
@[simp] theorem goto_lc (x : St) (s : State) : (goto x s).lc = s.lc := rfl
@[simp] theorem goto_dc (x : St) (s : State) : (goto x s).dc = s.dc := rfl
@[simp] theorem goto_m0 (x : St) (s : State) : (goto x s).m0 = s.m0 := rfl
@[simp] theorem goto_m1 (x : St) (s : State) : (goto x s).m1 = s.m1 := rfl
@[simp] theorem goto_m2 (x : St) (s : State) : (goto x s).m2 = s.m2 := rfl
@[simp] theorem goto_bfinal (x : St) (s : State) : (goto x s).bfinal = s.bfinal := rfl
@[simp] theorem goto_latInputSize (x : St) (s : State) : (goto x s).latInputSize = s.latInputSize := rfl
@[simp] theorem goto_latBskb (x : St) (s : State) : (goto x s).latBskb = s.latBskb := rfl
@[simp] theorem goto_fault (x : St) (s : State) : (goto x s).fault = s.fault := rfl
@[simp] theorem goto_mem (x : St) (s : State) : (goto x s).mem = s.mem := rfl
@[simp] theorem goto_cfg (x : St) (s : State) : (goto x s).cfg = s.cfg := rfl
@[simp] theorem goto_turns (x : St) (s : State) : (goto x s).turns = s.turns := rfl
@[simp] theorem goto_hostRd (x : St) (s : State) : (goto x s).hostRd = s.hostRd := rfl
@[simp] theorem goto_drawn (x : St) (s : State) : (goto x s).drawn = s.drawn := rfl

@[simp] theorem setDone_inputSize (s : State) : (setDone s).inputSize = s.inputSize := rfl
@[simp] theorem setDone_blockSizeKb (s : State) : (setDone s).blockSizeKb = s.blockSizeKb := rfl
@[simp] theorem setDone_done (s : State) : (setDone s).done = true := rfl
@[simp] theorem setDone_st (s : State) : (setDone s).st = s.st := rfl
@[simp] theorem setDone_tp (s : State) : (setDone s).tp = s.tp := rfl
@[simp] theorem setDone_blk (s : State) : (setDone s).blk = s.blk := rfl
@[simp] theorem setDone_consumed (s : State) : (setDone s).consumed = s.consumed := rfl
@[simp] theorem setDone_blkRem (s : State) : (setDone s).blkRem = s.blkRem := rfl
@[simp] theorem setDone_op (s : State) : (setDone s).op = s.op := rfl
@[simp] theorem setDone_blkOut (s : State) : (setDone s).blkOut = s.blkOut := rfl
@[simp] theorem setDone_acc (s : State) : (setDone s).acc = s.acc := rfl
@[simp] theorem setDone_nbits (s : State) : (setDone s).nbits = s.nbits := rfl
@[simp] theorem setDone_tLit (s : State) : (setDone s).tLit = s.tLit := rfl
@[simp] theorem setDone_tLen (s : State) : (setDone s).tLen = s.tLen := rfl
@[simp] theorem setDone_tOff (s : State) : (setDone s).tOff = s.tOff := rfl
@[simp] theorem setDone_lc (s : State) : (setDone s).lc = s.lc := rfl
@[simp] theorem setDone_dc (s : State) : (setDone s).dc = s.dc := rfl
@[simp] theorem setDone_m0 (s : State) : (setDone s).m0 = s.m0 := rfl
@[simp] theorem setDone_m1 (s : State) : (setDone s).m1 = s.m1 := rfl
@[simp] theorem setDone_m2 (s : State) : (setDone s).m2 = s.m2 := rfl
@[simp] theorem setDone_bfinal (s : State) : (setDone s).bfinal = s.bfinal := rfl
@[simp] theorem setDone_latInputSize (s : State) : (setDone s).latInputSize = s.latInputSize := rfl
@[simp] theorem setDone_latBskb (s : State) : (setDone s).latBskb = s.latBskb := rfl
@[simp] theorem setDone_fault (s : State) : (setDone s).fault = s.fault := rfl
@[simp] theorem setDone_mem (s : State) : (setDone s).mem = s.mem := rfl
@[simp] theorem setDone_cfg (s : State) : (setDone s).cfg = s.cfg := rfl
@[simp] theorem setDone_turns (s : State) : (setDone s).turns = s.turns := rfl
@[simp] theorem setDone_hostRd (s : State) : (setDone s).hostRd = s.hostRd := rfl
@[simp] theorem setDone_drawn (s : State) : (setDone s).drawn = s.drawn := rfl

@[simp] theorem clearDone_inputSize (s : State) : (clearDone s).inputSize = s.inputSize := rfl
@[simp] theorem clearDone_blockSizeKb (s : State) : (clearDone s).blockSizeKb = s.blockSizeKb := rfl
@[simp] theorem clearDone_done (s : State) : (clearDone s).done = false := rfl
@[simp] theorem clearDone_st (s : State) : (clearDone s).st = s.st := rfl
@[simp] theorem clearDone_tp (s : State) : (clearDone s).tp = s.tp := rfl
@[simp] theorem clearDone_blk (s : State) : (clearDone s).blk = s.blk := rfl
@[simp] theorem clearDone_consumed (s : State) : (clearDone s).consumed = s.consumed := rfl
@[simp] theorem clearDone_blkRem (s : State) : (clearDone s).blkRem = s.blkRem := rfl
@[simp] theorem clearDone_op (s : State) : (clearDone s).op = s.op := rfl
@[simp] theorem clearDone_blkOut (s : State) : (clearDone s).blkOut = s.blkOut := rfl
@[simp] theorem clearDone_acc (s : State) : (clearDone s).acc = s.acc := rfl
@[simp] theorem clearDone_nbits (s : State) : (clearDone s).nbits = s.nbits := rfl
@[simp] theorem clearDone_tLit (s : State) : (clearDone s).tLit = s.tLit := rfl
@[simp] theorem clearDone_tLen (s : State) : (clearDone s).tLen = s.tLen := rfl
@[simp] theorem clearDone_tOff (s : State) : (clearDone s).tOff = s.tOff := rfl
@[simp] theorem clearDone_lc (s : State) : (clearDone s).lc = s.lc := rfl
@[simp] theorem clearDone_dc (s : State) : (clearDone s).dc = s.dc := rfl
@[simp] theorem clearDone_m0 (s : State) : (clearDone s).m0 = s.m0 := rfl
@[simp] theorem clearDone_m1 (s : State) : (clearDone s).m1 = s.m1 := rfl
@[simp] theorem clearDone_m2 (s : State) : (clearDone s).m2 = s.m2 := rfl
@[simp] theorem clearDone_bfinal (s : State) : (clearDone s).bfinal = s.bfinal := rfl
@[simp] theorem clearDone_latInputSize (s : State) : (clearDone s).latInputSize = s.latInputSize := rfl
@[simp] theorem clearDone_latBskb (s : State) : (clearDone s).latBskb = s.latBskb := rfl
@[simp] theorem clearDone_fault (s : State) : (clearDone s).fault = s.fault := rfl
@[simp] theorem clearDone_mem (s : State) : (clearDone s).mem = s.mem := rfl
@[simp] theorem clearDone_cfg (s : State) : (clearDone s).cfg = s.cfg := rfl
@[simp] theorem clearDone_turns (s : State) : (clearDone s).turns = s.turns := rfl
@[simp] theorem clearDone_hostRd (s : State) : (clearDone s).hostRd = s.hostRd := rfl
@[simp] theorem clearDone_drawn (s : State) : (clearDone s).drawn = s.drawn := rfl

@[simp] theorem nextToken_inputSize (s : State) : (nextToken s).inputSize = s.inputSize := rfl
@[simp] theorem nextToken_blockSizeKb (s : State) : (nextToken s).blockSizeKb = s.blockSizeKb := rfl
@[simp] theorem nextToken_done (s : State) : (nextToken s).done = s.done := rfl
@[simp] theorem nextToken_st (s : State) : (nextToken s).st = s.st := rfl
@[simp] theorem nextToken_tp (s : State) : (nextToken s).tp = s.tp + 1 := rfl
@[simp] theorem nextToken_blk (s : State) : (nextToken s).blk = s.blk := rfl
@[simp] theorem nextToken_consumed (s : State) : (nextToken s).consumed = s.consumed := rfl
@[simp] theorem nextToken_blkRem (s : State) : (nextToken s).blkRem = s.blkRem := rfl
@[simp] theorem nextToken_op (s : State) : (nextToken s).op = s.op := rfl
@[simp] theorem nextToken_blkOut (s : State) : (nextToken s).blkOut = s.blkOut := rfl
@[simp] theorem nextToken_acc (s : State) : (nextToken s).acc = s.acc := rfl
@[simp] theorem nextToken_nbits (s : State) : (nextToken s).nbits = s.nbits := rfl
@[simp] theorem nextToken_tLit (s : State) : (nextToken s).tLit = s.tLit := rfl
@[simp] theorem nextToken_tLen (s : State) : (nextToken s).tLen = s.tLen := rfl
@[simp] theorem nextToken_tOff (s : State) : (nextToken s).tOff = s.tOff := rfl
@[simp] theorem nextToken_lc (s : State) : (nextToken s).lc = s.lc := rfl
@[simp] theorem nextToken_dc (s : State) : (nextToken s).dc = s.dc := rfl
@[simp] theorem nextToken_m0 (s : State) : (nextToken s).m0 = s.m0 := rfl
@[simp] theorem nextToken_m1 (s : State) : (nextToken s).m1 = s.m1 := rfl
@[simp] theorem nextToken_m2 (s : State) : (nextToken s).m2 = s.m2 := rfl
@[simp] theorem nextToken_bfinal (s : State) : (nextToken s).bfinal = s.bfinal := rfl
@[simp] theorem nextToken_latInputSize (s : State) : (nextToken s).latInputSize = s.latInputSize := rfl
@[simp] theorem nextToken_latBskb (s : State) : (nextToken s).latBskb = s.latBskb := rfl
@[simp] theorem nextToken_fault (s : State) : (nextToken s).fault = s.fault := rfl
@[simp] theorem nextToken_mem (s : State) : (nextToken s).mem = s.mem := rfl
@[simp] theorem nextToken_cfg (s : State) : (nextToken s).cfg = s.cfg := rfl
@[simp] theorem nextToken_turns (s : State) : (nextToken s).turns = s.turns := rfl
@[simp] theorem nextToken_hostRd (s : State) : (nextToken s).hostRd = s.hostRd := rfl
@[simp] theorem nextToken_drawn (s : State) : (nextToken s).drawn = s.drawn := rfl

@[simp] theorem countBytes_inputSize (n : Word) (s : State) : (countBytes n s).inputSize = s.inputSize := rfl
@[simp] theorem countBytes_blockSizeKb (n : Word) (s : State) : (countBytes n s).blockSizeKb = s.blockSizeKb := rfl
@[simp] theorem countBytes_done (n : Word) (s : State) : (countBytes n s).done = s.done := rfl
@[simp] theorem countBytes_st (n : Word) (s : State) : (countBytes n s).st = s.st := rfl
@[simp] theorem countBytes_tp (n : Word) (s : State) : (countBytes n s).tp = s.tp := rfl
@[simp] theorem countBytes_blk (n : Word) (s : State) : (countBytes n s).blk = s.blk := rfl
@[simp] theorem countBytes_consumed (n : Word) (s : State) : (countBytes n s).consumed = s.consumed + n := rfl
@[simp] theorem countBytes_blkRem (n : Word) (s : State) : (countBytes n s).blkRem = s.blkRem - n := rfl
@[simp] theorem countBytes_op (n : Word) (s : State) : (countBytes n s).op = s.op := rfl
@[simp] theorem countBytes_blkOut (n : Word) (s : State) : (countBytes n s).blkOut = s.blkOut := rfl
@[simp] theorem countBytes_acc (n : Word) (s : State) : (countBytes n s).acc = s.acc := rfl
@[simp] theorem countBytes_nbits (n : Word) (s : State) : (countBytes n s).nbits = s.nbits := rfl
@[simp] theorem countBytes_tLit (n : Word) (s : State) : (countBytes n s).tLit = s.tLit := rfl
@[simp] theorem countBytes_tLen (n : Word) (s : State) : (countBytes n s).tLen = s.tLen := rfl
@[simp] theorem countBytes_tOff (n : Word) (s : State) : (countBytes n s).tOff = s.tOff := rfl
@[simp] theorem countBytes_lc (n : Word) (s : State) : (countBytes n s).lc = s.lc := rfl
@[simp] theorem countBytes_dc (n : Word) (s : State) : (countBytes n s).dc = s.dc := rfl
@[simp] theorem countBytes_m0 (n : Word) (s : State) : (countBytes n s).m0 = s.m0 := rfl
@[simp] theorem countBytes_m1 (n : Word) (s : State) : (countBytes n s).m1 = s.m1 := rfl
@[simp] theorem countBytes_m2 (n : Word) (s : State) : (countBytes n s).m2 = s.m2 := rfl
@[simp] theorem countBytes_bfinal (n : Word) (s : State) : (countBytes n s).bfinal = s.bfinal := rfl
@[simp] theorem countBytes_latInputSize (n : Word) (s : State) : (countBytes n s).latInputSize = s.latInputSize := rfl
@[simp] theorem countBytes_latBskb (n : Word) (s : State) : (countBytes n s).latBskb = s.latBskb := rfl
@[simp] theorem countBytes_fault (n : Word) (s : State) : (countBytes n s).fault = s.fault := rfl
@[simp] theorem countBytes_mem (n : Word) (s : State) : (countBytes n s).mem = s.mem := rfl
@[simp] theorem countBytes_cfg (n : Word) (s : State) : (countBytes n s).cfg = s.cfg := rfl
@[simp] theorem countBytes_turns (n : Word) (s : State) : (countBytes n s).turns = s.turns := rfl
@[simp] theorem countBytes_hostRd (n : Word) (s : State) : (countBytes n s).hostRd = s.hostRd := rfl
@[simp] theorem countBytes_drawn (n : Word) (s : State) : (countBytes n s).drawn = s.drawn := rfl

@[simp] theorem appendBits_inputSize (v : Word) (n : Nat) (s : State) : (appendBits v n s).inputSize = s.inputSize := rfl
@[simp] theorem appendBits_blockSizeKb (v : Word) (n : Nat) (s : State) : (appendBits v n s).blockSizeKb = s.blockSizeKb := rfl
@[simp] theorem appendBits_done (v : Word) (n : Nat) (s : State) : (appendBits v n s).done = s.done := rfl
@[simp] theorem appendBits_st (v : Word) (n : Nat) (s : State) : (appendBits v n s).st = s.st := rfl
@[simp] theorem appendBits_tp (v : Word) (n : Nat) (s : State) : (appendBits v n s).tp = s.tp := rfl
@[simp] theorem appendBits_blk (v : Word) (n : Nat) (s : State) : (appendBits v n s).blk = s.blk := rfl
@[simp] theorem appendBits_consumed (v : Word) (n : Nat) (s : State) : (appendBits v n s).consumed = s.consumed := rfl
@[simp] theorem appendBits_blkRem (v : Word) (n : Nat) (s : State) : (appendBits v n s).blkRem = s.blkRem := rfl
@[simp] theorem appendBits_op (v : Word) (n : Nat) (s : State) : (appendBits v n s).op = s.op := rfl
@[simp] theorem appendBits_blkOut (v : Word) (n : Nat) (s : State) : (appendBits v n s).blkOut = s.blkOut := rfl
@[simp] theorem appendBits_acc (v : Word) (n : Nat) (s : State) : (appendBits v n s).acc = s.acc ||| (v <<< s.nbits.toNat) := rfl
@[simp] theorem appendBits_nbits (v : Word) (n : Nat) (s : State) : (appendBits v n s).nbits = s.nbits + BitVec.ofNat 5 n := rfl
@[simp] theorem appendBits_tLit (v : Word) (n : Nat) (s : State) : (appendBits v n s).tLit = s.tLit := rfl
@[simp] theorem appendBits_tLen (v : Word) (n : Nat) (s : State) : (appendBits v n s).tLen = s.tLen := rfl
@[simp] theorem appendBits_tOff (v : Word) (n : Nat) (s : State) : (appendBits v n s).tOff = s.tOff := rfl
@[simp] theorem appendBits_lc (v : Word) (n : Nat) (s : State) : (appendBits v n s).lc = s.lc := rfl
@[simp] theorem appendBits_dc (v : Word) (n : Nat) (s : State) : (appendBits v n s).dc = s.dc := rfl
@[simp] theorem appendBits_m0 (v : Word) (n : Nat) (s : State) : (appendBits v n s).m0 = s.m0 := rfl
@[simp] theorem appendBits_m1 (v : Word) (n : Nat) (s : State) : (appendBits v n s).m1 = s.m1 := rfl
@[simp] theorem appendBits_m2 (v : Word) (n : Nat) (s : State) : (appendBits v n s).m2 = s.m2 := rfl
@[simp] theorem appendBits_bfinal (v : Word) (n : Nat) (s : State) : (appendBits v n s).bfinal = s.bfinal := rfl
@[simp] theorem appendBits_latInputSize (v : Word) (n : Nat) (s : State) : (appendBits v n s).latInputSize = s.latInputSize := rfl
@[simp] theorem appendBits_latBskb (v : Word) (n : Nat) (s : State) : (appendBits v n s).latBskb = s.latBskb := rfl
@[simp] theorem appendBits_fault (v : Word) (n : Nat) (s : State) : (appendBits v n s).fault = s.fault := rfl
@[simp] theorem appendBits_mem (v : Word) (n : Nat) (s : State) : (appendBits v n s).mem = s.mem := rfl
@[simp] theorem appendBits_cfg (v : Word) (n : Nat) (s : State) : (appendBits v n s).cfg = s.cfg := rfl
@[simp] theorem appendBits_turns (v : Word) (n : Nat) (s : State) : (appendBits v n s).turns = s.turns := rfl
@[simp] theorem appendBits_hostRd (v : Word) (n : Nat) (s : State) : (appendBits v n s).hostRd = s.hostRd := rfl
@[simp] theorem appendBits_drawn (v : Word) (n : Nat) (s : State) : (appendBits v n s).drawn = s.drawn := rfl

@[simp] theorem andThen_ok (s : State) (k : State → Act) : andThen (.ok s) k = k s := rfl
@[simp] theorem andThen_error (s : State) (k : State → Act) : andThen (.error s) k = .error s := rfl
@[simp] theorem finish_ok (s : State) : finish (.ok s) = s := rfl
@[simp] theorem finish_error (s : State) : finish (.error s) = s := rfl

theorem andThen_eq_ok {a : Act} {k : State → Act} {t : State} : andThen a k = .ok t ↔ ∃ s, a = .ok s ∧ k s = .ok t := by
  cases a <;> simp

theorem andThen_eq_error {a : Act} {k : State → Act} {t : State} :
    andThen a k = .error t ↔ a = .error t ∨ ∃ s, a = .ok s ∧ k s = .error t := by
  cases a <;> simp

@[simp] theorem Arrays.get_set_same (m : Arrays) (sp : Space) (v : Memory) : (m.set sp v).get sp = v := by
  cases sp <;> rfl

theorem Arrays.get_set_ne (m : Arrays) {sp sq : Space} (v : Memory) (h : sq ≠ sp) :
    (m.set sp v).get sq = m.get sq := by
  cases sp <;> cases sq <;> first | rfl | exact absurd rfl h

end Sys2Proof.Machine
end

