-- ==== Sys2Proof/Laws/Memory.lean ====
section
/-! SUPPORT. Memory: read after write, the canonical form, elements of the spaces. -/

namespace Sys2Proof.Machine

theorem Memory.read_write_same (m : Memory) (a : Nat) (v : Byte) (h : Memory.wf m = true) :
    Memory.read (Memory.write m a v) a = v := by
  induction m with
  | nil => by_cases hv : v = unlistedByte <;> simp [Memory.write, Memory.read, hv]
  | cons c rest ih =>
    obtain ⟨k, b⟩ := c
    simp only [Memory.wf, Bool.and_eq_true, decide_eq_true_eq, List.all_eq_true] at h
    have absent : ∀ l : Memory, (∀ c ∈ l, a < c.1) → Memory.read l a = unlistedByte := by
      intro l hl
      induction l with
      | nil => rfl
      | cons c l ihl =>
        have h1 := hl c (by simp)
        have h2 := ihl fun d hd => hl d (by simp [hd])
        obtain ⟨k', b'⟩ := c
        simp only [Memory.read]
        rw [if_neg (by simp at h1; omega), h2]
    simp only [Memory.write]
    by_cases h1 : a < k
    · by_cases hv : v = unlistedByte
      · rw [if_pos h1, if_pos hv, hv]
        refine absent _ fun c hc => ?_
        rcases List.mem_cons.1 hc with rfl | hc
        · exact h1
        · exact lt_trans h1 (by simpa using h.1.2 c hc)
      · simp [h1, hv, Memory.read]
    · by_cases h2 : a = k
      · subst h2
        by_cases hv : v = unlistedByte
        · simp only [lt_irrefl, if_false, if_true, hv]
          exact absent _ fun c hc => by simpa using h.1.2 c hc
        · simp [hv, Memory.read]
      · simp only [h1, h2, if_false, Memory.read, ih h.2]

theorem Memory.read_write_ne (m : Memory) {a a' : Nat} (v : Byte) (hne : a' ≠ a) (h : Memory.wf m = true) :
    Memory.read (Memory.write m a v) a' = Memory.read m a' := by
  induction m with
  | nil => by_cases hv : v = unlistedByte <;> simp [Memory.write, Memory.read, hv, hne]
  | cons c rest ih =>
    obtain ⟨k, b⟩ := c
    simp only [Memory.wf, Bool.and_eq_true] at h
    simp only [Memory.write]
    split
    · split <;> simp [Memory.read, hne]
    · split
      · subst_vars
        split <;> simp [Memory.read, hne]
      · simp only [Memory.read, ih h.2]

theorem Memory.write_keys_above (m : Memory) {k a : Nat} (v : Byte) (ha : k < a)
    (h : m.all (fun c => decide (k < c.1)) = true) : (Memory.write m a v).all (fun c => decide (k < c.1)) = true := by
  induction m with
  | nil => by_cases hv : v = unlistedByte <;> simp [Memory.write, hv, ha]
  | cons c rest ih =>
    obtain ⟨k', b⟩ := c
    have h0 := h
    simp only [List.all_cons, Bool.and_eq_true] at h
    have hc (l : Memory) (hl : l.all (fun c => decide (k < c.1)) = true) :
        List.all ((a, v) :: l) (fun c => decide (k < c.1)) = true := by
      rw [List.all_cons, hl, Bool.and_true]; simpa using ha
    simp only [Memory.write]
    split
    · split
      · exact h0
      · exact hc _ h0
    · split
      · split
        · exact h.2
        · exact hc _ h.2
      · rw [List.all_cons, Bool.and_eq_true]
        exact ⟨h.1, ih h.2⟩

theorem Memory.all_above_trans {m : Memory} {j k : Nat} (hjk : j < k)
    (h : m.all (fun c => decide (k < c.1)) = true) : m.all (fun c => decide (j < c.1)) = true := by
  simp only [List.all_eq_true, decide_eq_true_eq] at h ⊢
  exact fun c hc => lt_trans hjk (h c hc)

/-- Writing keeps the canonical form. -/
theorem Memory.wf_write (m : Memory) (a : Nat) (v : Byte) (h : Memory.wf m = true) :
    Memory.wf (Memory.write m a v) = true := by
  induction m with
  | nil => by_cases hv : v = unlistedByte <;> simp [Memory.write, Memory.wf, hv]
  | cons c rest ih =>
    obtain ⟨k, b⟩ := c
    have h0 := h
    simp only [Memory.wf, Bool.and_eq_true, decide_eq_true_eq] at h
    simp only [Memory.write]
    by_cases h1 : a < k
    · by_cases hv : v = unlistedByte
      · simpa [h1, hv] using h0
      · rw [if_pos h1, if_neg hv, Memory.wf, Bool.and_eq_true, Bool.and_eq_true]
        refine ⟨⟨by simpa using hv, ?_⟩, h0⟩
        simp only [List.all_cons, Bool.and_eq_true]
        exact ⟨by simpa using h1, Memory.all_above_trans h1 h.1.2⟩
    · by_cases h2 : a = k
      · by_cases hv : v = unlistedByte
        · simpa [h2, hv] using h.2
        · subst h2
          simp only [lt_irrefl, if_false, if_true, hv, Memory.wf, Bool.and_eq_true]
          exact ⟨⟨by simpa using hv, h.1.2⟩, h.2⟩
      · simp only [h1, h2, if_false, Memory.wf, Bool.and_eq_true]
        exact ⟨⟨by simpa using h.1.1, Memory.write_keys_above rest v (by omega) h.1.2⟩, ih h.2⟩

theorem Memory.wf_writeWord (m : Memory) (i : Nat) (v : Word) (h : Memory.wf m = true) :
    Memory.wf (Memory.writeWord m i v) = true := by
  simp only [Memory.writeWord]
  exact wf_write _ _ _ (wf_write _ _ _ (wf_write _ _ _ (wf_write _ _ _ h)))

/-- The bytes of a word, put together again (R65). -/
theorem wordOfBytes_byteOfWord (w : Word) :
    wordOfBytes (byteOfWord w 0) (byteOfWord w 1) (byteOfWord w 2) (byteOfWord w 3) = w := by
  apply BitVec.eq_of_getLsbD_eq
  intro i hi
  simp only [wordOfBytes, byteOfWord, BitVec.getLsbD_append, BitVec.getLsbD_extractLsb']
  by_cases h1 : i < 8
  · simp [h1]
  · by_cases h2 : i < 16
    · have : i - 8 < 8 := by omega
      simp [h1, this, show 8 + (i - 8) = i by omega]
    · by_cases h3 : i < 24
      · have a : ¬ i - 8 < 8 := by omega
        have b : i - 8 - 8 < 8 := by omega
        simp [h1, a, b, show 16 + (i - 8 - 8) = i by omega]
      · have a : ¬ i - 8 < 8 := by omega
        have b : ¬ i - 8 - 8 < 8 := by omega
        have c : i - 8 - 8 - 8 < 8 := by omega
        simp [h1, a, b, c, show 24 + (i - 8 - 8 - 8) = i by omega]

theorem Memory.readWord_writeWord_same (m : Memory) (i : Nat) (v : Word) (h : Memory.wf m = true) :
    Memory.readWord (Memory.writeWord m i v) i = v := by
  have h1 := wf_write m (4 * i) (byteOfWord v 0) h
  have h2 := wf_write _ (4 * i + 1) (byteOfWord v 1) h1
  have h3 := wf_write _ (4 * i + 2) (byteOfWord v 2) h2
  simp only [Memory.readWord, Memory.writeWord]
  rw [read_write_same _ _ _ h3, read_write_ne _ _ (by omega) h3, read_write_ne _ _ (by omega) h3,
    read_write_ne _ _ (by omega) h3, read_write_same _ _ _ h2, read_write_ne _ _ (by omega) h2,
    read_write_ne _ _ (by omega) h2, read_write_same _ _ _ h1, read_write_ne _ _ (by omega) h1,
    read_write_same _ _ _ h, wordOfBytes_byteOfWord]

theorem Memory.read_writeWord_ne (m : Memory) {i a : Nat} (v : Word) (ha : a < 4 * i ∨ 4 * i + 4 ≤ a)
    (h : Memory.wf m = true) : Memory.read (Memory.writeWord m i v) a = Memory.read m a := by
  have h1 := wf_write m (4 * i) (byteOfWord v 0) h
  have h2 := wf_write _ (4 * i + 1) (byteOfWord v 1) h1
  have h3 := wf_write _ (4 * i + 2) (byteOfWord v 2) h2
  simp only [Memory.writeWord]
  rw [read_write_ne _ _ (by omega) h3, read_write_ne _ _ (by omega) h2, read_write_ne _ _ (by omega) h1,
    read_write_ne _ _ (by omega) h]

theorem Memory.readWord_writeWord_ne (m : Memory) {i j : Nat} (v : Word) (hne : j ≠ i) (h : Memory.wf m = true) :
    Memory.readWord (Memory.writeWord m i v) j = Memory.readWord m j := by
  simp only [Memory.readWord]
  rw [read_writeWord_ne _ _ (by omega) h, read_writeWord_ne _ _ (by omega) h, read_writeWord_ne _ _ (by omega) h,
    read_writeWord_ne _ _ (by omega) h]

theorem Arrays.wf_iff (m : Arrays) : Arrays.wf m = true ↔ ∀ sp, Memory.wf (m.get sp) = true := by
  simp only [Arrays.wf, Bool.and_eq_true]
  constructor
  · intro h sp
    cases sp <;> simp [Arrays.get, h]
  · intro h
    exact ⟨⟨⟨⟨⟨⟨⟨⟨⟨⟨h .tok, h .desc⟩, h .litc⟩, h .litl⟩, h .distc⟩, h .distl⟩, h .blc⟩, h .bll⟩, h .maxc⟩, h .out⟩,
      h .size⟩

theorem withElement_get_ne (m : Arrays) {sp sq : Space} (i : Nat) (v : Word) (h : sq ≠ sp) :
    (withElement m sp i v).get sq = m.get sq := by
  cases sp <;> exact Arrays.get_set_ne _ _ h

/-- Setting an element keeps the canonical form of every space. -/
theorem wf_withElement (m : Arrays) (sp : Space) (i : Nat) (v : Word) (h : Arrays.wf m = true) :
    Arrays.wf (withElement m sp i v) = true := by
  rw [Arrays.wf_iff] at h ⊢
  intro sq
  by_cases hs : sq = sp
  · subst hs
    cases sq <;> simp only [withElement, Arrays.get_set_same]
    case out => exact Memory.wf_write _ _ _ (h .out)
    all_goals exact Memory.wf_writeWord _ _ _ (h _)
  · rw [withElement_get_ne _ _ _ hs]
    exact h sq

theorem element_withElement_space_ne (m : Arrays) {sp sq : Space} (i j : Nat) (v : Word) (h : sq ≠ sp) :
    element (withElement m sp i v) sq j = element m sq j := by
  have hg := withElement_get_ne m i v h
  cases sq
  case out => simp only [element]; rw [show (withElement m sp i v).out = m.out from hg]
  all_goals simp only [element, hg]

theorem element_withElement_ne (m : Arrays) {sp : Space} {i j : Nat} (v : Word) (hne : j ≠ i)
    (h : Arrays.wf m = true) : element (withElement m sp i v) sp j = element m sp j := by
  have hw := (Arrays.wf_iff m).1 h sp
  cases sp
  case out => exact congrArg (BitVec.zeroExtend 32) (Memory.read_write_ne m.out _ hne hw)
  all_goals
    simp only [element, withElement, Arrays.get_set_same]
    exact Memory.readWord_writeWord_ne _ _ hne hw

/-- A u32 element reads back as written (R61, R68). -/
theorem element_withElement_same (m : Arrays) {sp : Space} (i : Nat) (v : Word) (hs : sp ≠ .out)
    (h : Arrays.wf m = true) : element (withElement m sp i v) sp i = v := by
  have hw := (Arrays.wf_iff m).1 h sp
  cases sp
  case out => exact absurd rfl hs
  all_goals
    simp only [element, withElement, Arrays.get_set_same]
    exact Memory.readWord_writeWord_same _ _ _ hw

/-- An element of `OUT` reads back as the byte written (R61, R68). -/
theorem element_withElement_out (m : Arrays) (i : Nat) (v : Word) (h : Arrays.wf m = true) :
    element (withElement m .out i v) .out i = (v.setWidth 8).zeroExtend 32 := by
  have hw := (Arrays.wf_iff m).1 h .out
  exact congrArg (BitVec.zeroExtend 32) (Memory.read_write_same m.out _ _ hw)

end Sys2Proof.Machine
end

