-- ==== Sys2Proof/Laws/Packer.lean ====
section
/-! SUPPORT. What the bit-packer and the code dispatcher can do: if they go on, only the packer's registers and bytes of
`OUT` from `op` on have changed; if they end the step, they have raised after such a change. -/

namespace Sys2Proof.Machine

theorem EmitsOnly.refl (s : State) : EmitsOnly s s := ⟨rfl, le_refl _, fun _ _ => rfl⟩

theorem EmitsOnly.trans {s t u : State} (h1 : EmitsOnly s t) (h2 : EmitsOnly t u) : EmitsOnly s u := by
  obtain ⟨e1, o1, r1⟩ := h1
  obtain ⟨e2, o2, r2⟩ := h2
  refine ⟨?_, le_trans o1 o2, fun a ha => ?_⟩
  · rw [e2, e1]
  · rw [r2 a (by omega), r1 a (by omega)]

/-- An emitting step may also move the state register. -/
theorem EmitsOnly.goto {s t : State} (h : EmitsOnly s t) (x : St) : EmitsOnly s (goto x t) := by
  obtain ⟨e, o, r⟩ := h
  refine ⟨?_, o, r⟩
  conv_lhs => rw [e]
  rfl

theorem EmitsOnly.cfg {s t : State} (h : EmitsOnly s t) : t.cfg = s.cfg := by rw [h.1]
theorem EmitsOnly.blk {s t : State} (h : EmitsOnly s t) : t.blk = s.blk := by rw [h.1]
theorem EmitsOnly.turns {s t : State} (h : EmitsOnly s t) : t.turns = s.turns := by rw [h.1]
theorem EmitsOnly.fault {s t : State} (h : EmitsOnly s t) : t.fault = s.fault := by rw [h.1]

/-- Reads of every space but `OUT` are unchanged by an emitting step. -/
theorem EmitsOnly.element {s t : State} (h : EmitsOnly s t) {sp : Space} (hs : sp ≠ .out) (i : Nat) :
    element t.mem sp i = element s.mem sp i := by
  rw [h.1]
  cases sp <;> first | exact absurd rfl hs | rfl

theorem EmitsOnly.memRead {s t : State} (h : EmitsOnly s t) {sp : Space} (hs : sp ≠ .out) (i : Nat) :
    memRead sp i t = memRead sp i s := by
  simp only [Machine.memRead, h.cfg, h.element hs]

/-- A table entry looks the same after an emitting step. -/
theorem EmitsOnly.lookupCode {s t : State} (h : EmitsOnly s t) (tb : Table) (sym : Nat) :
    lookupCode tb sym t = lookupCode tb sym s := by
  have hl : codeLen tb sym t = codeLen tb sym s := by
    simp only [codeLen, tableIndex, h.blk]
    exact h.memRead (by cases tb <;> simp [Table.lenSpace]) _
  have hc : codeValue tb sym t = codeValue tb sym s := by
    simp only [codeValue, tableIndex, h.blk]
    exact h.memRead (by cases tb <;> simp [Table.codeSpace]) _
  simp only [Machine.lookupCode, hl, hc, h.cfg]

/-- The state `OutByte(b)` leaves when there is room (R131). -/
def emitted (b : Byte) (s : State) : State :=
  { s with
    mem := { s.mem with out := Memory.write s.mem.out s.op.toNat b }
    op := s.op + 1
    blkOut := s.blkOut + 1 }

/-- `OutByte` (R131): one byte stored at `op`, or `F_OUT_OVERFLOW` with nothing stored. -/
theorem outByte_eq (b : Byte) (s : State) :
    outByte b s =
      if s.op.toNat < s.cfg.outBytes.toNat then .ok (emitted b s) else .error (raise .outOverflow s) := by
  have hw : (b.zeroExtend 32).setWidth 8 = b := by simp
  unfold outByte memWrite
  by_cases h : s.op.toNat < s.cfg.outBytes.toNat
  · rw [if_pos h, if_pos (show s.op.toNat < capacity s.cfg .out from h)]
    simp only [withElement, Arrays.set, hw, emitted]
  · rw [if_neg h, if_neg (show ¬ s.op.toNat < capacity s.cfg .out from h)]
    rfl

theorem op_add_one_toNat {s : State} (h : s.op.toNat < s.cfg.outBytes.toNat) : (s.op + 1).toNat = s.op.toNat + 1 := by
  have := s.cfg.outBytes.isLt
  rw [BitVec.toNat_add]
  simp
  omega

theorem emitted_emitsOnly (b : Byte) (s : State) (hw : Arrays.wf s.mem = true)
    (h : s.op.toNat < s.cfg.outBytes.toNat) : EmitsOnly s (emitted b s) := by
  have hop := op_add_one_toNat h
  have ho : Memory.wf s.mem.out = true := (Arrays.wf_iff s.mem).1 hw .out
  refine ⟨rfl, ?_, fun a ha => ?_⟩
  · show s.op.toNat ≤ (s.op + 1).toNat
    omega
  · have : a ≠ s.op.toNat := by
      rcases ha with ha | ha
      · omega
      · change (s.op + 1).toNat ≤ a at ha
        omega
    exact Memory.read_write_ne _ _ this ho

theorem emitted_wf (b : Byte) (s : State) (hw : Arrays.wf s.mem = true) : Arrays.wf (emitted b s).mem = true := by
  have := wf_withElement s.mem .out s.op.toNat (b.zeroExtend 32) hw
  simpa [withElement, Arrays.set, emitted] using this

/-- What an emitting operation can do: go on after an emission, or raise after one. -/
structure EmitSpec (s : State) (a : Act) (codes : FaultCode → Prop) : Prop where
  ok : ∀ t, a = .ok t → EmitsOnly s t ∧ t.st = s.st ∧ Arrays.wf t.mem = true
  error : ∀ t, a = .error t →
    ∃ u c, t = raise c u ∧ codes c ∧ EmitsOnly s u ∧ u.st = s.st ∧ Arrays.wf u.mem = true

theorem EmitSpec.here {s : State} {codes : FaultCode → Prop} (hw : Arrays.wf s.mem = true) : EmitSpec s (.ok s) codes :=
  ⟨fun t h => (by cases h; exact ⟨.refl s, rfl, hw⟩), fun t h => by cases h⟩

theorem EmitSpec.raises {s : State} {codes : FaultCode → Prop} {c : FaultCode} (hc : codes c)
    (hw : Arrays.wf s.mem = true) : EmitSpec s (.error (raise c s)) codes :=
  ⟨fun t h => (by cases h), fun t h => by cases h; exact ⟨s, c, rfl, hc, .refl s, rfl, hw⟩⟩

theorem EmitSpec.mono {s : State} {a : Act} {p q : FaultCode → Prop} (h : EmitSpec s a p) (hpq : ∀ c, p c → q c) :
    EmitSpec s a q :=
  ⟨h.ok, fun t ht => by
    obtain ⟨u, c, h1, h2, h3⟩ := h.error t ht
    exact ⟨u, c, h1, hpq c h2, h3⟩⟩

/-- One emitting operation after another. -/
theorem EmitSpec.bind {s : State} {a : Act} {k : State → Act} {codes : FaultCode → Prop} (h : EmitSpec s a codes)
    (hk : ∀ t, EmitsOnly s t → t.st = s.st → Arrays.wf t.mem = true → EmitSpec t (k t) codes) :
    EmitSpec s (andThen a k) codes := by
  constructor
  · intro t ht
    obtain ⟨u, hu, hut⟩ := andThen_eq_ok.1 ht
    obtain ⟨h1, h2, h3⟩ := h.ok u hu
    obtain ⟨k1, k2, k3⟩ := (hk u h1 h2 h3).ok t hut
    exact ⟨h1.trans k1, k2.trans h2, k3⟩
  · intro t ht
    rcases andThen_eq_error.1 ht with ha | ⟨u, hu, hut⟩
    · exact h.error t ha
    · obtain ⟨h1, h2, h3⟩ := h.ok u hu
      obtain ⟨v, c, e, hc, k1, k2, k3⟩ := (hk u h1 h2 h3).error t hut
      exact ⟨v, c, e, hc, h1.trans k1, k2.trans h2, k3⟩

/-- An operation that starts by moving only the accumulator. -/
theorem EmitSpec.of_acc {s : State} {acc : Word} {nbits : BitVec 5} {a : Act} {codes : FaultCode → Prop}
    (h : EmitSpec { s with acc := acc, nbits := nbits } a codes) : EmitSpec s a codes := by
  have he : EmitsOnly s { s with acc := acc, nbits := nbits } := ⟨rfl, le_refl _, fun _ _ => rfl⟩
  refine ⟨fun t ht => ?_, fun t ht => ?_⟩
  · obtain ⟨h1, h2, h3⟩ := h.ok t ht
    exact ⟨he.trans h1, h2, h3⟩
  · obtain ⟨u, c, e, hc, h1, h2, h3⟩ := h.error t ht
    exact ⟨u, c, e, hc, he.trans h1, h2, h3⟩

/-- The one fault of the bit-packer (R130 to R132). -/
def isOverflow (c : FaultCode) : Prop := c = .outOverflow

theorem outByte_spec (b : Byte) (s : State) (hw : Arrays.wf s.mem = true) : EmitSpec s (outByte b s) isOverflow := by
  rw [outByte_eq]
  split
  case isTrue h =>
    exact ⟨fun t ht => (by cases ht; exact ⟨emitted_emitsOnly b s hw h, rfl, emitted_wf b s hw⟩), fun t ht => by cases ht⟩
  case isFalse h => exact .raises rfl hw

theorem drain_spec (k : Nat) (s : State) (hw : Arrays.wf s.mem = true) : EmitSpec s (drain k s) isOverflow := by
  induction k generalizing s with
  | zero => exact .here hw
  | succ k ih =>
    refine (outByte_spec _ s hw).bind fun t _ _ ht => ?_
    exact EmitSpec.of_acc (ih _ ht)

theorem putBits_spec (v : Word) (n : Nat) (s : State) (hw : Arrays.wf s.mem = true) :
    EmitSpec s (putBits v n s) isOverflow :=
  EmitSpec.of_acc (drain_spec _ (appendBits v n s) hw)

theorem padToByte_spec (s : State) (hw : Arrays.wf s.mem = true) : EmitSpec s (padToByte s) isOverflow := by
  unfold padToByte
  split
  · exact putBits_spec _ _ s hw
  · exact .here hw

theorem putExtra_spec (v e : Nat) (s : State) (hw : Arrays.wf s.mem = true) : EmitSpec s (putExtra v e s) isOverflow := by
  unfold putExtra
  split
  · exact .here hw
  · exact putBits_spec _ _ s hw

/-- The faults of `EmitCode` (R134). -/
def isEmitFault (c : FaultCode) : Prop :=
  c = .blockOverrun ∨ c = .zeroLen ∨ c = .lenRange ∨ c = .codeRange ∨ c = .outOverflow

theorem memRead_error {sp : Space} {i : Nat} {s : State} {c : FaultCode} (h : memRead sp i s = .error c) :
    c = overrunCode sp ∧ capacity s.cfg sp ≤ i := by
  unfold memRead at h
  split at h
  · cases h
  · cases h
    exact ⟨rfl, by omega⟩

theorem memRead_ok {sp : Space} {i : Nat} {s : State} {w : Word} (h : memRead sp i s = .ok w) :
    w = element s.mem sp i ∧ i < capacity s.cfg sp := by
  unfold memRead at h
  split at h
  · cases h
    exact ⟨rfl, by assumption⟩
  · cases h

/-- What `EmitCode` looks up (R134): the entry's checked length and field, or the first fault of its order. -/
theorem lookupCode_ok {t : Table} {sym : Nat} {s : State} {len : Nat} {v : Word} (h : lookupCode t sym s = .ok (len, v)) :
    len = entryLen t sym s ∧ v = codeField s.cfg.codeOrder (entryCode t sym s) len ∧ 1 ≤ len ∧ len ≤ t.maxLen ∧
      (entryCode t sym s).toNat < 2 ^ len ∧ tableIndex t sym s < capacity s.cfg t.lenSpace := by
  unfold lookupCode at h
  split at h
  · cases h
  · cases h
  · rename_i l c hl hc
    obtain ⟨rfl, hi⟩ := memRead_ok hl
    obtain ⟨rfl, -⟩ := memRead_ok hc
    split at h
    · cases h
    · rename_i hk
      cases h
      unfold checkCode at hk
      split at hk
      · cases hk
      · split at hk
        · cases hk
        · split at hk
          · cases hk
          · refine ⟨rfl, rfl, ?_, ?_, ?_, hi⟩
            · omega
            · omega
            · show (element s.mem t.codeSpace (tableIndex t sym s)).toNat < _
              omega

theorem lookupCode_error {t : Table} {sym : Nat} {s : State} {c : FaultCode} (h : lookupCode t sym s = .error c) :
    c = .blockOverrun ∨ c = .zeroLen ∨ c = .lenRange ∨ c = .codeRange := by
  unfold lookupCode at h
  split at h
  · rename_i c' hl
    cases h
    left
    have := (memRead_error hl).1
    rw [this]
    cases t <;> rfl
  · rename_i c' hl
    cases h
    left
    have := (memRead_error hl).1
    rw [this]
    cases t <;> rfl
  · split at h
    · rename_i hk
      cases h
      unfold checkCode at hk
      split at hk
      · cases hk; simp
      · split at hk
        · cases hk; simp
        · split at hk <;> cases hk
          simp
    · cases h

theorem emitCode_spec (t : Table) (sym : Nat) (s : State) (hw : Arrays.wf s.mem = true) :
    EmitSpec s (emitCode t sym s) isEmitFault := by
  unfold emitCode
  split
  · rename_i c hc
    refine .raises ?_ hw
    rcases lookupCode_error hc with h | h | h | h <;> simp [isEmitFault, h]
  · exact (putBits_spec _ _ s hw).mono fun c hc => by simp [isEmitFault, isOverflow] at *; simp [hc]

end Sys2Proof.Machine
end

