-- ==== Sys2Proof/Laws/Block.lean ====
section
/-! SUPPORT. What the operations of a block can do, and the frame of each state's step: a step of an emitting state ends
either after an emission, or with a raise after one. -/

namespace Sys2Proof.Machine

theorem isOverflow_isEmitFault {c : FaultCode} (h : isOverflow c) : isEmitFault c := by
  simp only [isOverflow] at h
  simp [isEmitFault, h]

theorem putClen_spec (sym : Nat) (s : State) (hw : Arrays.wf s.mem = true) :
    EmitSpec s (putClen sym s) isEmitFault := by
  unfold putClen
  split
  · rename_i c hc
    refine .raises ?_ hw
    rw [(memRead_error hc).1]
    simp [isEmitFault, Table.lenSpace, overrunCode]
  · split
    · exact .raises (by simp [isEmitFault]) hw
    · exact (putBits_spec _ _ s hw).mono fun _ => isOverflow_isEmitFault

theorem putClens_spec (l : List Nat) (s : State) (hw : Arrays.wf s.mem = true) :
    EmitSpec s (putClens l s) isEmitFault := by
  induction l generalizing s with
  | nil => exact .here hw
  | cons sym l ih => exact (putClen_spec sym s hw).bind fun t _ _ ht => ih t ht

theorem putItem_spec (i : Item) (s : State) (hw : Arrays.wf s.mem = true) :
    EmitSpec s (putItem i s) isEmitFault :=
  (emitCode_spec .bl i.sym s hw).bind fun t _ _ ht => (putBits_spec _ _ t ht).mono fun _ => isOverflow_isEmitFault

theorem putItems_spec (l : List Item) (s : State) (hw : Arrays.wf s.mem = true) :
    EmitSpec s (putItems l s) isEmitFault := by
  induction l generalizing s with
  | nil => exact .here hw
  | cons i l ih => exact (putItem_spec i s hw).bind fun t _ _ ht => ih t ht

/-- Items in two parts: a bad item faults after the items before it. -/
theorem putItems_append (a b : List Item) (s : State) : putItems (a ++ b) s = andThen (putItems a s) (putItems b) := by
  induction a generalizing s with
  | nil => rfl
  | cons i a ih =>
    simp only [List.cons_append, putItems]
    cases putItem i s with
    | ok t => exact ih t
    | error t => rfl

/-- What `SendTree` reads (R187): the table's lengths, each at most the maximum. -/
theorem readLens_ok {t : Table} {k n : Nat} {s : State} {lens : List Nat} (h : readLens t k n s = .ok lens) :
    lens = (List.range' k n).map (fun sym => entryLen t sym s) ∧ ∀ l ∈ lens, l ≤ t.maxLen := by
  induction n generalizing k lens with
  | zero => cases h; simp
  | succ n ih =>
    unfold readLens at h
    split at h
    · cases h
    · rename_i v hv
      obtain ⟨rfl, -⟩ := memRead_ok hv
      split at h
      · cases h
      · rename_i hm
        split at h
        · cases h
        · rename_i rest hr
          cases h
          obtain ⟨e, hle⟩ := ih hr
          refine ⟨?_, ?_⟩
          · rw [List.range'_succ, List.map_cons, ← e]
            rfl
          · intro l hl
            rcases List.mem_cons.1 hl with rfl | hl
            · omega
            · exact hle l hl

theorem readLens_error {t : Table} {k n : Nat} {s : State} {c : FaultCode} (h : readLens t k n s = .error c) :
    c = .blockOverrun ∨ c = .lenRange := by
  induction n generalizing k with
  | zero => cases h
  | succ n ih =>
    unfold readLens at h
    split at h
    · rename_i c' hv
      cases h
      left
      rw [(memRead_error hv).1]
      cases t <;> rfl
    · split at h
      · cases h
        exact .inr rfl
      · split at h
        · rename_i hr
          cases h
          exact ih hr
        · cases h

theorem sendTree_spec (t : Table) (n : Nat) (s : State) (hw : Arrays.wf s.mem = true) :
    EmitSpec s (sendTree t n s) isEmitFault := by
  unfold sendTree
  split
  · rename_i c hc
    refine .raises ?_ hw
    rcases readLens_error hc with h | h <;> simp [isEmitFault, h]
  · exact putItems_spec _ s hw

theorem flushSync_spec (s : State) (hw : Arrays.wf s.mem = true) : EmitSpec s (flushSync s) isOverflow := by
  refine (putBits_spec _ _ s hw).bind fun t _ _ ht => ?_
  refine (padToByte_spec t ht).bind fun t _ _ ht => ?_
  refine (outByte_spec _ t ht).bind fun t _ _ ht => ?_
  refine (outByte_spec _ t ht).bind fun t _ _ ht => ?_
  exact (outByte_spec _ t ht).bind fun t _ _ ht => outByte_spec _ t ht

theorem flushBlock_spec (s : State) (hw : Arrays.wf s.mem = true) : EmitSpec s (flushBlock s) isOverflow := by
  unfold flushBlock
  split
  · exact flushSync_spec s hw
  · exact padToByte_spec s hw

/-- How an emitting state's step ends: in the next state of R157 after an emission, or with a raise after one (R271). -/
def EmitStep (s t : State) (next : St) : Prop :=
  (EmitsOnly s t ∧ t.st = next ∧ Arrays.wf t.mem = true) ∨
    ∃ u c, t = raise c u ∧ isEmitFault c ∧ EmitsOnly s u ∧ Arrays.wf u.mem = true

theorem EmitSpec.step {s : State} {a : Act} (h : EmitSpec s a isEmitFault) (next : St) :
    EmitStep s (finish (andThen a fun t => .ok (goto next t))) next := by
  cases ha : a with
  | ok t =>
    obtain ⟨h1, -, h3⟩ := h.ok t ha
    exact .inl ⟨h1.goto next, rfl, h3⟩
  | error t =>
    obtain ⟨u, c, e, hc, h1, -, h3⟩ := h.error t ha
    exact .inr ⟨u, c, e, hc, h1, h3⟩

/-- `LIT_REP` (R210). -/
theorem litRep_step (s : State) (hw : Arrays.wf s.mem = true) : EmitStep s (Machine.litRep s) .writeToken :=
  (emitCode_spec _ _ s hw).step _

/-- `ML_EXTRA` (R223). -/
theorem mlExtra_step (s : State) (hw : Arrays.wf s.mem = true) : EmitStep s (Machine.mlExtra s) .distRep :=
  ((putExtra_spec _ _ s hw).mono fun _ => isOverflow_isEmitFault).step _

/-- `DIST_EXTRA` (R229). -/
theorem distExtra_step (s : State) (hw : Arrays.wf s.mem = true) : EmitStep s (Machine.distExtra s) .writeToken :=
  ((putExtra_spec _ _ s hw).mono fun _ => isOverflow_isEmitFault).step _

/-- `ML_DIST_REP` (R220): the length code is latched first. -/
theorem mlDistRep_step (s : State) (hw : Arrays.wf s.mem = true) :
    EmitStep { s with lc := BitVec.ofNat 5 (lcode s.tLen.toNat) } (Machine.mlDistRep s) .mlExtra :=
  EmitSpec.step (emitCode_spec _ _ { s with lc := BitVec.ofNat 5 (lcode s.tLen.toNat) } hw) _

/-- `DIST_REP` (R226): the distance code is latched first. -/
theorem distRep_step (s : State) (hw : Arrays.wf s.mem = true) :
    EmitStep { s with dc := BitVec.ofNat 5 (dcode s.tOff.toNat) } (Machine.distRep s) .distExtra :=
  EmitSpec.step (emitCode_spec _ _ { s with dc := BitVec.ofNat 5 (dcode s.tOff.toNat) } hw) _

theorem andThen_assoc (a : Act) (f g : State → Act) : andThen (andThen a f) g = andThen a fun s => andThen (f s) g := by
  cases a <;> rfl

/-- `HDR_FIXED` (R180). -/
theorem hdrFixed_step (s : State) (hw : Arrays.wf s.mem = true) : EmitStep s (Machine.hdrFixed s) .hdrClen := by
  have h := ((putBits_spec ((2#32 <<< 1) ||| s.bfinal.zeroExtend 32) 3 s hw).bind fun t _ _ ht =>
    (putBits_spec (BitVec.ofNat 32 (s.m0.toNat - 257)) 5 t ht).bind fun t _ _ ht =>
      (putBits_spec (BitVec.ofNat 32 (s.m1.toNat - 1)) 5 t ht).bind fun t _ _ ht =>
        putBits_spec (BitVec.ofNat 32 (s.m2.toNat - 4)) 4 t ht).mono fun _ => isOverflow_isEmitFault
  have := h.step .hdrClen
  simpa only [Machine.hdrFixed, andThen_assoc] using this

/-- `HDR_CLEN` (R183). -/
theorem hdrClen_step (s : State) (hw : Arrays.wf s.mem = true) : EmitStep s (Machine.hdrClen s) .hdrTree :=
  (putClens_spec _ s hw).step _

/-- `HDR_TREE` (R186). -/
theorem hdrTree_step (s : State) (hw : Arrays.wf s.mem = true) : EmitStep s (Machine.hdrTree s) .writeToken := by
  have h := (sendTree_spec .lit s.m0.toNat s hw).bind fun t _ _ ht => sendTree_spec .dist t.m1.toNat t ht
  have := h.step .writeToken
  simpa only [Machine.hdrTree, andThen_assoc] using this

/-- `BLK_START` (R152): it opens the block, with the entries it read in range, or raises and writes nothing else. -/
theorem blkStart_cases (s : State) :
    (∃ c, Machine.blkStart s = raise c s) ∨
      ∃ bs a b c : Word, Machine.blkStart s = openBlock bs a b c s ∧ bs = element s.mem .desc s.blk.toNat ∧
        s.blk.toNat < s.cfg.maxBlocks.toNat ∧ badBlockSize bs.toNat s = false ∧
        maxCodesInRange a.toNat b.toNat c.toNat = true := by
  unfold Machine.blkStart
  split
  · exact .inl ⟨_, rfl⟩
  · rename_i bs hbs
    obtain ⟨e, hi⟩ := memRead_ok hbs
    by_cases hbad : badBlockSize bs.toNat s = true
    · rw [if_pos hbad]
      exact .inl ⟨_, rfl⟩
    · rw [if_neg hbad]
      split
      · exact .inl ⟨_, rfl⟩
      · rename_i a b c _
        by_cases hr : maxCodesInRange a.toNat b.toNat c.toNat = true
        · rw [if_pos hr]
          exact .inr ⟨bs, a, b, c, rfl, e, hi, by simpa using hbad, hr⟩
        · rw [if_neg hr]
          exact .inl ⟨_, rfl⟩

/-- `SEND_OUTPUT` (R250): after an emission `u` it records the block's byte count and starts the next block or
completes, or it raises after an emission. -/
theorem sendOutput_cases (s : State) (hw : Arrays.wf s.mem = true) :
    (∃ u, EmitsOnly s u ∧ Arrays.wf u.mem = true ∧ u.blk.toNat < u.cfg.maxBlocks.toNat ∧
        andThen (emitCode .lit eobSymbol s) flushBlock = .ok u ∧
        Machine.sendOutput s =
          nextOrDone { u with mem := withElement u.mem .size u.blk.toNat u.blkOut, blk := u.blk + 1 }) ∨
      ∃ u c, Machine.sendOutput s = raise c u ∧ isEmitFault c ∧ EmitsOnly s u ∧ Arrays.wf u.mem = true := by
  have h := (emitCode_spec .lit eobSymbol s hw).bind fun t _ _ ht =>
    (flushBlock_spec t ht).mono fun _ => isOverflow_isEmitFault
  unfold Machine.sendOutput
  rw [← andThen_assoc]
  cases ha : andThen (emitCode .lit eobSymbol s) flushBlock with
  | error t =>
    obtain ⟨u, c, e, hc, h1, -, h3⟩ := h.error t ha
    exact .inr ⟨u, c, e, hc, h1, h3⟩
  | ok u =>
    obtain ⟨h1, -, h3⟩ := h.ok u ha
    simp only [andThen_ok, recordSize, memWrite]
    by_cases hb : u.blk.toNat < capacity u.cfg .size
    · rw [if_pos hb]
      exact .inl ⟨u, h1, h3, hb, rfl, rfl⟩
    · rw [if_neg hb]
      exact .inr ⟨u, .blockOverrun, rfl, by simp [isEmitFault], h1, h3⟩

end Sys2Proof.Machine
end

