-- ==== Sys2Proof/Laws/PerInstr.lean ====
section
/-! SUPPORT. Statements made per instruction, one lemma per constructor of Instr (LAWS.json). -/

namespace Sys2Proof.Laws

/-- The bits an instruction's encoding ignores: 31:16 of a literal (R92), 31:16 and 7:0 of a reserved token (R94(c)),
7:0 of a match (R93), 31:1 of a control write (R24). -/
def ignoredBits : Instr → Word
  | .lit _ => 0xFFFF0000#32
  | .rsvLen1 => 0xFFFF00FF#32
  | .rsvLen2 => 0xFFFF00FF#32
  | .matchTok _ _ => 0x000000FF#32
  | .start => 0xFFFFFFFE#32

/-- The 32 bits of an encoding. -/
def fetchedWord : Fetched → Word
  | .token w => w
  | .ctrlWrite w => w

/-- The encoder writes every ignored bit 0 (log 20). -/
def IgnoredBitsZero.Statement (i : Instr) : Prop := fetchedWord (encode i) &&& ignoredBits i = 0#32

theorem IgnoredBitsZero.lit (b : Byte) : IgnoredBitsZero.Statement (.lit b) := by
  show b.zeroExtend 32 &&& 0xFFFF0000#32 = 0#32
  apply BitVec.eq_of_toNat_eq
  have hb := b.isLt
  have h : (b.zeroExtend 32).toNat = b.toNat := by simp; omega
  rw [BitVec.toNat_and, h]
  show b.toNat &&& 0xFFFF0000 = 0
  apply Nat.eq_of_testBit_eq
  intro i
  by_cases hi : i < 8
  · have : Nat.testBit 0xFFFF0000 i = false := by
      have : ∀ j < 8, Nat.testBit 0xFFFF0000 j = false := by decide
      exact this i hi
    simp [this]
  · have : b.toNat.testBit i = false :=
      Nat.testBit_lt_two_pow (lt_of_lt_of_le hb (Nat.pow_le_pow_right (by omega) (by omega)))
    simp [this]

theorem IgnoredBitsZero.rsvLen1 : IgnoredBitsZero.Statement .rsvLen1 := by
  unfold IgnoredBitsZero.Statement
  decide

theorem IgnoredBitsZero.rsvLen2 : IgnoredBitsZero.Statement .rsvLen2 := by
  unfold IgnoredBitsZero.Statement
  decide

theorem IgnoredBitsZero.matchTok (len : Byte) (off : BitVec 16) : IgnoredBitsZero.Statement (.matchTok len off) := by
  show matchWord len off &&& 0x000000FF#32 = 0#32
  unfold matchWord
  apply BitVec.eq_of_getLsbD_eq
  intro i hi
  rw [BitVec.getLsbD_and, BitVec.getLsbD_append]
  by_cases h : i < 8
  · simp [h]
  · have : (0x000000FF#32).getLsbD i = false := by
      have : ∀ j < 32, 8 ≤ j → (0x000000FF#32).getLsbD j = false := by decide
      exact this i hi (by omega)
    simp [this]

theorem IgnoredBitsZero.start : IgnoredBitsZero.Statement .start := by
  unfold IgnoredBitsZero.Statement
  decide

end Sys2Proof.Laws
end

