-- ==== Sys2Proof/Laws/Step.lean ====
section
/-! SUPPORT. What a step is, case by case: one equation per state of the core with no move listed, one per kind of
listed move. Later proofs cite these and do not unfold step. -/

namespace Sys2Proof.Machine

@[simp] theorem perform_run (i : Instr) (s : State) : perform (.run i s) = exec i s := rfl
@[simp] theorem perform_answer (o : Host.Outcome State Fault Refusal) : perform (.answer o) = o := rfl

theorem step_core {s : State} (ht : s.turns = []) (hf : s.fault = none) (hs : s.st ≠ .fault) :
    step s = perform (coreMove s) := by
  simp only [step, nextMove, ht, unscheduledMove, hf, if_neg hs]

theorem step_listed_core {s : State} {rest : List Turn} (ht : s.turns = .core :: rest) :
    step s = perform (coreMove { s with turns := rest }) := by
  simp only [step, nextMove, ht]

theorem step_listed_host {s : State} {a : HostAct} {rest : List Turn} (ht : s.turns = .host a :: rest) :
    step s = perform (hostMove a { s with turns := rest }) := by
  simp only [step, nextMove, ht]

theorem step_faulted {s : State} {c : FaultCode} (ht : s.turns = []) (hf : s.fault = some c) :
    step s = .fault (.coreFaulted c) := by
  simp only [step, nextMove, ht, unscheduledMove, hf, perform_answer]

theorem step_idle {s : State} (ht : s.turns = []) (hf : s.fault = none) (hs : s.st = .idle) : step s = .next s := by
  rw [step_core ht hf (by simp [hs])]
  simp [coreMove, hf, hs]

theorem step_blkStart {s : State} (ht : s.turns = []) (hf : s.fault = none) (hs : s.st = .blkStart) :
    step s = .next (blkStart s) := by
  rw [step_core ht hf (by simp [hs])]
  simp [coreMove, hf, hs]

theorem step_hdrFixed {s : State} (ht : s.turns = []) (hf : s.fault = none) (hs : s.st = .hdrFixed) :
    step s = .next (hdrFixed s) := by
  rw [step_core ht hf (by simp [hs])]
  simp [coreMove, hf, hs]

theorem step_hdrClen {s : State} (ht : s.turns = []) (hf : s.fault = none) (hs : s.st = .hdrClen) :
    step s = .next (hdrClen s) := by
  rw [step_core ht hf (by simp [hs])]
  simp [coreMove, hf, hs]

theorem step_hdrTree {s : State} (ht : s.turns = []) (hf : s.fault = none) (hs : s.st = .hdrTree) :
    step s = .next (hdrTree s) := by
  rw [step_core ht hf (by simp [hs])]
  simp [coreMove, hf, hs]

theorem step_sendOutput {s : State} (ht : s.turns = []) (hf : s.fault = none) (hs : s.st = .sendOutput) :
    step s = .next (sendOutput s) := by
  rw [step_core ht hf (by simp [hs])]
  simp [coreMove, hf, hs]

theorem step_litRep {s : State} (ht : s.turns = []) (hf : s.fault = none) (hs : s.st = .litRep) :
    step s = .next (litRep s) := by
  rw [step_core ht hf (by simp [hs])]
  simp [coreMove, hf, hs, exec, execLit, atToken, atState]

theorem step_mlDistRep {s : State} (ht : s.turns = []) (hf : s.fault = none) (hs : s.st = .mlDistRep) :
    step s = .next (mlDistRep s) := by
  rw [step_core ht hf (by simp [hs])]
  simp [coreMove, hf, hs, exec, execMatch, atToken, atState, latchedMatch]

theorem step_mlExtra {s : State} (ht : s.turns = []) (hf : s.fault = none) (hs : s.st = .mlExtra) :
    step s = .next (mlExtra s) := by
  rw [step_core ht hf (by simp [hs])]
  simp [coreMove, hf, hs, exec, execMatch, atToken, atState, latchedMatch]

theorem step_distRep {s : State} (ht : s.turns = []) (hf : s.fault = none) (hs : s.st = .distRep) :
    step s = .next (distRep s) := by
  rw [step_core ht hf (by simp [hs])]
  simp [coreMove, hf, hs, exec, execMatch, atToken, atState, latchedMatch]

theorem step_distExtra {s : State} (ht : s.turns = []) (hf : s.fault = none) (hs : s.st = .distExtra) :
    step s = .next (distExtra s) := by
  rw [step_core ht hf (by simp [hs])]
  simp [coreMove, hf, hs, exec, execMatch, atToken, atState, latchedMatch]

theorem step_blockEnd {s : State} (ht : s.turns = []) (hf : s.fault = none) (hs : s.st = .writeToken)
    (hb : s.blkRem = 0#32) : step s = .next (goto .sendOutput s) := by
  rw [step_core ht hf (by simp [hs])]
  simp [coreMove, hf, hs, fetchToken, hb]

theorem step_overrun {s : State} (ht : s.turns = []) (hf : s.fault = none) (hs : s.st = .writeToken)
    (hb : s.blkRem ≠ 0#32) (hp : s.cfg.tokWords.toNat ≤ s.tp.toNat) : step s = .next (raise .tokenOverrun s) := by
  rw [step_core ht hf (by simp [hs])]
  have : ¬ s.tp.toNat < capacity s.cfg .tok := by simpa [capacity] using hp
  simp [coreMove, hf, hs, fetchToken, hb, memRead, this, overrunCode]

theorem step_token {s : State} (ht : s.turns = []) (hf : s.fault = none) (hs : s.st = .writeToken)
    (hb : s.blkRem ≠ 0#32) (hp : s.tp.toNat < s.cfg.tokWords.toNat) :
    step s = exec (decodeToken (element s.mem .tok s.tp.toNat)) s := by
  rw [step_core ht hf (by simp [hs])]
  have : s.tp.toNat < capacity s.cfg .tok := by simpa [capacity] using hp
  simp [coreMove, hf, hs, fetchToken, hb, memRead, this]

/-- A token at `WRITE_TOKEN`: what exec answers (R155). -/
theorem exec_at_token {s : State} (h : atToken s = true) (w : Word) :
    exec (decodeToken w) s = .next
      (match decodeToken w with
        | .lit b => acceptLit b s
        | .matchTok len off => acceptMatch len off s
        | _ => rejectReserved s) := by
  unfold decodeToken
  split
  · simp [exec, execLit, h]
  · split
    · simp [exec, execRsvLen1, h]
    · split
      · simp [exec, execRsvLen2, h]
      · simp [exec, execMatch, h]

theorem atToken_iff {s : State} :
    atToken s = true ↔ s.fault = none ∧ s.st = .writeToken ∧ s.blkRem ≠ 0#32 := by
  simp [atToken, and_assoc]

/-- A match at `WRITE_TOKEN` is accepted with its three checks passed, or takes a fault (R155). -/
theorem acceptMatch_cases (len : Byte) (off : BitVec 16) (s : State) :
    (off.toNat ≤ 32767 ∧ len.toNat ≤ s.blkRem.toNat ∧ off.toNat + 1 ≤ s.consumed.toNat ∧
        acceptMatch len off s =
          { s with
            tp := s.tp + 1, tLen := len, tOff := off, blkRem := s.blkRem - len.zeroExtend 32,
            consumed := s.consumed + len.zeroExtend 32, st := .mlDistRep }) ∨
      ∃ c, acceptMatch len off s = raise c (nextToken s) := by
  unfold acceptMatch checkMatch
  split_ifs
  · exact .inr ⟨_, rfl⟩
  · exact .inr ⟨_, rfl⟩
  · exact .inr ⟨_, rfl⟩
  · exact .inl ⟨by omega, by omega, by omega, rfl⟩

theorem exec_start_eq (s : State) :
    exec .start s = .next
      (if s.st = .idle ∧ s.fault = none then
        if s.inputSize = 0#32 then setDone (latchArguments s) else goto .blkStart (latchArguments s)
      else s) := by
  simp only [exec, execStart, startAccepted, Bool.and_eq_true, decide_eq_true_eq]
  split
  · show (if s.inputSize = 0#32 then _ else _) = _
    split <;> rfl
  · rfl

/-- The core's move always answers a next state: no step of the core ends the run. -/
theorem coreMove_next (s : State) : ∃ t, perform (coreMove s) = .next t := by
  by_cases hf : s.fault = none
  · cases hs : s.st <;> simp [coreMove, hf, hs]
    case litRep => simp [exec, execLit, atToken, atState, hf, hs]
    case mlDistRep => simp [exec, execMatch, atToken, atState, latchedMatch, hf, hs]
    case mlExtra => simp [exec, execMatch, atToken, atState, latchedMatch, hf, hs]
    case distRep => simp [exec, execMatch, atToken, atState, latchedMatch, hf, hs]
    case distExtra => simp [exec, execMatch, atToken, atState, latchedMatch, hf, hs]
    case writeToken =>
      unfold fetchToken
      split
      · exact ⟨_, rfl⟩
      · split
        · exact ⟨_, rfl⟩
        · exact ⟨_, exec_at_token (atToken_iff.2 ⟨hf, hs, by assumption⟩) _⟩
  · exact ⟨s, by simp [coreMove, hf]⟩

end Sys2Proof.Machine
end

