-- ==== Sys2Proof/Laws/Stream.lean ====
section
/-! SUPPORT. The small lemmas of the stream's terms (Safety.lean): their lengths, what an emitting step leaves of a
table's entries, and appending twice. -/

namespace Sys2Proof.Machine

@[simp] theorem fieldBits_length (v : Word) (n : Nat) : (fieldBits v n).length = n := by simp [fieldBits]

@[simp] theorem byteBits_length (b : Byte) : (byteBits b).length = 8 := by simp [byteBits]

@[simp] theorem extraBits_length (v e : Nat) : (extraBits v e).length = e := by simp [extraBits]

@[simp] theorem codeBits_length (t : Table) (sym : Nat) (s : State) : (codeBits t sym s).length = entryLen t sym s := by
  unfold codeBits
  split <;> simp

@[simp] theorem itemBits_length (s : State) (i : Item) : (itemBits s i).length = entryLen .bl i.sym s + i.bits := by
  simp [itemBits]

theorem streamBits_length (s : State) : (streamBits s).length = 8 * s.op.toNat + s.nbits.toNat := by
  simp [streamBits, List.length_flatMap]
  omega

theorem EmitsOnly.entryLen {s t : State} (h : EmitsOnly s t) (tb : Table) (sym : Nat) :
    entryLen tb sym t = entryLen tb sym s := by
  unfold Machine.entryLen tableIndex
  rw [h.blk, h.element (by cases tb <;> simp [Table.lenSpace])]

theorem EmitsOnly.entryCode {s t : State} (h : EmitsOnly s t) (tb : Table) (sym : Nat) :
    entryCode tb sym t = entryCode tb sym s := by
  unfold Machine.entryCode tableIndex
  rw [h.blk, h.element (by cases tb <;> simp [Table.codeSpace])]

theorem EmitsOnly.codeBits {s t : State} (h : EmitsOnly s t) (tb : Table) (sym : Nat) :
    codeBits tb sym t = codeBits tb sym s := by
  unfold Machine.codeBits
  rw [h.cfg, h.entryCode, h.entryLen]

theorem EmitsOnly.goodEntry {s t : State} (h : EmitsOnly s t) {tb : Table} {sym : Nat} (hg : GoodEntry tb sym s) :
    GoodEntry tb sym t := by
  unfold GoodEntry at *
  rw [h.blk, h.cfg, h.entryLen, h.entryCode]
  exact hg

theorem Appends.goto {b : List Bool} {s t : State} (h : Appends b s t) (x : St) : Appends b s (goto x t) :=
  ⟨h.1.goto x, h.2⟩

/-- Appending nothing. -/
theorem Appends.nil {s : State} (hp : Packed s) : Appends [] s s :=
  ⟨.refl s, hp, by simp, by have := hp.1; simp; omega, fun _ => by simp⟩

/-- The pending bits after an append: what is left over from whole bytes. -/
theorem Appends.nbits {b : List Bool} {s t : State} (h : Appends b s t) :
    t.nbits.toNat = (s.nbits.toNat + b.length) % 8 := by
  obtain ⟨-, p, st, o, -⟩ := h
  have hlen : (streamBits t).length = (streamBits s).length + b.length := by rw [st, List.length_append]
  rw [streamBits_length, streamBits_length] at hlen
  have := p.1
  omega

/-- One append after another. -/
theorem Appends.trans {b c : List Bool} {s t u : State} (h1 : Appends b s t) (h2 : Appends c t u) :
    Appends (b ++ c) s u := by
  have hn := h1.nbits
  obtain ⟨e1, p1, s1, o1, k1⟩ := h1
  obtain ⟨e2, p2, s2, o2, k2⟩ := h2
  refine ⟨e1.trans e2, p2, by rw [s2, s1, List.append_assoc], ?_, fun hb => ?_⟩
  · rw [o2, o1, List.length_append]
    omega
  · have q1 := k1 hb
    have : t.blkOut.toNat ≤ t.op.toNat := by
      unfold blockBits at q1
      omega
    rw [k2 this, q1, List.length_append]
    omega

/-- Room for a field is room for its parts. -/
theorem Appends.room {b : List Bool} {s t : State} {n m : Nat} (h : Appends b s t)
    (hm : b.length + n = m) (hr : Room m s) : Room n t := by
  have hn := h.nbits
  have ho := h.2.2.2.1
  unfold Room at *
  rw [h.1.cfg]
  omega

/-- Only `ML_DIST_REP` and `DIST_REP` write a code latch. -/
theorem latchCode_eq_self {s : State} (h1 : s.st ≠ .mlDistRep) (h2 : s.st ≠ .distRep) : latchCode s = s := by
  unfold latchCode
  rw [if_neg h1, if_neg h2]

@[simp] theorem latchCode_st (s : State) : (latchCode s).st = s.st := rfl
@[simp] theorem latchCode_fault (s : State) : (latchCode s).fault = s.fault := rfl
@[simp] theorem latchCode_mem (s : State) : (latchCode s).mem = s.mem := rfl
@[simp] theorem latchCode_op (s : State) : (latchCode s).op = s.op := rfl
@[simp] theorem latchCode_cfg (s : State) : (latchCode s).cfg = s.cfg := rfl

end Sys2Proof.Machine
end

