-- ==== Sys2Proof/Machine/Assembler.lean ====
section
/-! DEFINITION. The spec's own token notation (R96, R97) and the host's start order (R315). No step depends on it. -/

namespace Sys2Proof.Machine

/-- A line of token text: the two mnemonics and the directives of R96, the pseudo-instructions of R97. -/
inductive AsmLine
  /-- `LIT b` -/
  | lit (b : Byte)
  /-- `MATCH len, dist` -/
  | matchDist (len dist : Nat)
  /-- `LITS "text"`, its bytes -/
  | lits (text : List Byte)
  /-- `FILL b, n` -/
  | fill (b : Byte) (n : Nat)
  /-- `.block n` -/
  | block (n : Word)
  /-- `.input n` -/
  | input (n : Word)
  /-- `.bskb k` -/
  | bskb (k : Word)
deriving DecidableEq, Repr

/-- Why a line has no expansion. -/
inductive AsmError
  /-- `MATCH` outside 3 ≤ len ≤ 255, 1 ≤ dist ≤ 32768 (R96). -/
  | matchOutOfRange
  /-- `FILL` outside 4 ≤ n ≤ 256 (R97). -/
  | fillOutOfRange
deriving DecidableEq, Repr

/-- What a text sets: the words of `TOK` and `DESC` in order, and the two argument registers. -/
structure Program where
  tokens : List Word
  desc : List Word
  inputSize : Word
  bskb : Word
deriving DecidableEq, Repr

/-- The word of `LIT b` (R96). -/
def litWord (b : Byte) : Word := b.zeroExtend 32

/-- The word of `MATCH len, dist`: `((dist - 1) << 16) | (len << 8)` (R96). -/
def matchDistWord (len dist : Nat) : Except AsmError Word :=
  if 3 ≤ len ∧ len ≤ 255 ∧ 1 ≤ dist ∧ dist ≤ 32768 then
    .ok (matchWord (BitVec.ofNat 8 len) (BitVec.ofNat 16 (dist - 1)))
  else .error .matchOutOfRange

/-- One line (R96, R97). `FILL b, n` is `LIT b` then `MATCH n-1, 1`. -/
def assembleLine (p : Program) : AsmLine → Except AsmError Program
  | .lit b => .ok { p with tokens := p.tokens ++ [litWord b] }
  | .matchDist len dist =>
    match matchDistWord len dist with
    | .ok w => .ok { p with tokens := p.tokens ++ [w] }
    | .error e => .error e
  | .lits text => .ok { p with tokens := p.tokens ++ text.map litWord }
  | .fill b n =>
    if 4 ≤ n ∧ n ≤ 256 then
      match matchDistWord (n - 1) 1 with
      | .ok w => .ok { p with tokens := p.tokens ++ [litWord b, w] }
      | .error e => .error e
    else .error .fillOutOfRange
  | .block n => .ok { p with desc := p.desc ++ [n] }
  | .input n => .ok { p with inputSize := n }
  | .bskb k => .ok { p with bskb := k }

/-- Lines in order. -/
def assembleFrom (p : Program) : List AsmLine → Except AsmError Program
  | [] => .ok p
  | l :: rest =>
    match assembleLine p l with
    | .ok q => assembleFrom q rest
    | .error e => .error e

/-- A whole text. DESIGN CHOICE (log 26): R96 does not say what a text with no `.input` or no `.bskb` line sets; each of
the two is 0 then. -/
def assemble (lines : List AsmLine) : Except AsmError Program :=
  assembleFrom ⟨[], [], 0, 0⟩ lines

/-- The host's writes of consecutive elements of a space. -/
def writeElements (sp : Space) (i : Nat) : List Word → List Turn
  | [] => []
  | w :: rest => .host (.writeArray sp i w) :: writeElements sp (i + 1) rest

/-- The host's start order, steps 2 to 4 (R315), for a text; the tables are written by the moves `tables`. Both argument
registers are always written, with the text's value or the 0 of log 26. -/
def hostStart (p : Program) (tables : List Turn) : List Turn :=
  writeElements .tok 0 p.tokens ++ writeElements .desc 0 p.desc ++ tables ++
    [.host (.writeCtrl 0x10 4 p.inputSize), .host (.writeCtrl 0x18 4 p.bskb), .host (.writeCtrl 0x00 4 1)]

end Sys2Proof.Machine
end

