-- ==== Sys2Proof/Tests/Slice0.lean ====
section
/-! SUPPORT. Tests: expected values are written out from the spec's encodings (30_encoding.md) and its vectors
(95_test_vectors.md). A theorem witness_<Name> shows values that meet the hypotheses of Obligations.<Name>. -/

namespace Sys2Proof.Tests

open Sys2Proof Sys2Proof.Machine

set_option Elab.async false

/-! ## Terms and words -/

/-- R91: `LEN` 0, 1 and 2 select the other tokens, so no word decodes to a match with such a length. -/
theorem test_wf_refuses_match_length_0 : (Instr.matchTok 0#8 5#16).wf = false := by decide
theorem test_wf_refuses_match_length_1 : (Instr.matchTok 1#8 5#16).wf = false := by decide
theorem test_wf_refuses_match_length_2 : (Instr.matchTok 2#8 5#16).wf = false := by decide
theorem test_wf_accepts_match_length_3 : (Instr.matchTok 3#8 5#16).wf = true := by decide

/-- R94: the reserved tokens and a distance above 32768 are words, but no legal tokens. -/
theorem test_legal_refuses :
    Instr.rsvLen1.legal = false ∧ Instr.rsvLen2.legal = false ∧ (Instr.matchTok 3#8 32768#16).legal = false ∧
      (Instr.matchTok 2#8 0#16).legal = false ∧ (Instr.matchTok 3#8 32767#16).legal = true := by decide

/-- R92, the encoding xxxxxxxxxxxxxxxx00000000CCCCCCCC. -/
theorem test_decode_lit : decodeToken 0b10101011110011010000000001100001#32 = .lit 0b01100001#8 := by decide

/-- R94(a), the encoding xxxxxxxxxxxxxxxx00000001xxxxxxxx. -/
theorem test_decode_rsvLen1 : decodeToken 0b10000000000000010000000111111111#32 = .rsvLen1 := by decide

/-- R94(a), the encoding xxxxxxxxxxxxxxxx00000010xxxxxxxx. -/
theorem test_decode_rsvLen2 : decodeToken 0b00000000000000000000001000000000#32 = .rsvLen2 := by decide

/-- R93, the encoding OOOOOOOOOOOOOOOOLLLLLLLLxxxxxxxx: V-MATCH `MATCH 110, 384`. -/
theorem test_decode_match : decodeToken 0b00000001011111110110111000000000#32 = .matchTok 110#8 383#16 := by decide

/-- R24, the encoding xxxxxxxxxxxxxxxxxxxxxxxxxxxxxxx1; V-CTRL row 10 for 0x6. -/
theorem test_decode_start :
    (decode (.ctrlWrite 0b10000000000000000000000000000001#32)).toOption = some .start ∧
      (decode (.ctrlWrite 0x6#32)).toOption = none := by decide

/-- The byte order of R65: the word 0x017F6E00 stands in memory as 00 6E 7F 01. -/
theorem test_decode_bytes :
    (decodeBytes [0x00#8, 0x6E#8, 0x7F#8, 0x01#8]).toOption = some (.matchTok 110#8 383#16, []) ∧
      (decodeBytes [0x00#8, 0x6E#8, 0x7F#8]).toOption = none := by decide

/-- R96, R97 and P1: `FILL 'a', 116` is the words 00000061 00007300. -/
theorem test_assemble_p1 :
    ((assemble [.input 116, .bskb 1, .block 116, .fill 0x61#8 116]).toOption.map fun p => (p.tokens, p.desc)) =
      some ([0x00000061#32, 0x00007300#32], [116#32]) := by decide

theorem test_table_words :
    decodeTableWord 32 0x00000000 = some (.lit 0#8) ∧ decodeTableWord 32 0x00000100 = some .rsvLen1 ∧
      decodeTableWord 32 0x00000200 = some .rsvLen2 ∧ decodeTableWord 32 0x00000300 = some (.matchTok 3#8 0#16) ∧
      decodeTableWord 32 0x00000001 = some .start := by decide

/-! ## The tables of R103 to R106 -/

/-- V-LEN. -/
theorem test_length_codes :
    ([3, 10, 11, 12, 18, 19, 34, 35, 66, 67, 114, 115, 130, 131, 226, 227, 255, 258].map fun l =>
        (257 + lcode l, lext (lcode l), l - lbase (lcode l))) =
      [(257, 0, 0), (264, 0, 0), (265, 1, 0), (265, 1, 1), (268, 1, 1), (269, 2, 0), (272, 2, 3), (273, 3, 0),
        (276, 3, 7), (277, 4, 0), (279, 4, 15), (280, 4, 0), (280, 4, 15), (281, 5, 0), (283, 5, 31), (284, 5, 0),
        (284, 5, 28), (285, 0, 0)] := by decide

/-- V-DC, both branches. -/
theorem test_distance_codes :
    ([0, 3, 4, 7, 15, 127, 192, 255, 256, 257, 383, 384, 511, 512, 16384, 24575, 24576, 32767].map fun o =>
        (dcode o, dext (dcode o), o + 1 - dbase (dcode o))) =
      [(0, 0, 0), (3, 0, 0), (4, 1, 0), (5, 1, 1), (7, 2, 3), (13, 5, 31), (15, 6, 0), (15, 6, 63), (16, 7, 0),
        (16, 7, 1), (16, 7, 127), (17, 7, 0), (17, 7, 127), (18, 8, 0), (28, 13, 0), (28, 13, 8191), (29, 13, 0),
        (29, 13, 8191)] := by decide +kernel

/-- V-RLE. -/
theorem test_tree_items :
    treeItems (List.replicate 139 0) = [⟨18, 127, 7⟩, ⟨0, 0, 0⟩] ∧
      treeItems (List.replicate 8 8) = [⟨8, 0, 0⟩, ⟨16, 3, 2⟩, ⟨8, 0, 0⟩] ∧
      treeItems [0, 0] = [⟨0, 0, 0⟩, ⟨0, 0, 0⟩] ∧ treeItems (List.replicate 10 0) = [⟨17, 7, 3⟩] := by decide +kernel

/-! ## The states of P1 -/

def writeAll (sp : Space) : List (Nat × Word) → Arrays → Arrays
  | [], m => m
  | (i, v) :: rest, m => writeAll sp rest (withElement m sp i v)

/-- P1's tables, tokens, block and `MAXC`. -/
def p1Mem : Arrays :=
  writeAll .litl [(97, 2), (256, 2), (280, 1)] <| writeAll .litc [(97, 1), (256, 3)] <|
    writeAll .distl [(0, 1), (1, 1)] <| writeAll .distc [(1, 1)] <|
      writeAll .bll [(1, 2), (2, 2), (18, 1)] <| writeAll .blc [(1, 1), (2, 3)] <|
        writeAll .maxc [(0, 281), (1, 2), (2, 18)] <| writeAll .desc [(0, 116)] <|
          writeAll .tok [(0, 0x61), (1, 0x7300)] Arrays.empty

/-- P1 before its START. -/
def p1 : State :=
  { State.reset with
    inputSize := 116
    blockSizeKb := 1
    cfg := { Config.default with tokWords := 2, outBytes := 1024, maxBlocks := 1 }
    mem := p1Mem }

/-- P1 at a state of its one block: `op` and the pending bits are those of the trace of P1. -/
def p1At (st : St) (tp blkRem op acc : Word) (nbits : BitVec 5) : State :=
  { p1 with
    st := st
    latInputSize := 116
    latBskb := 1
    tp := tp
    blkRem := blkRem
    consumed := 116 - blkRem
    op := op
    blkOut := op
    acc := acc
    nbits := nbits
    m0 := 281
    m1 := 2
    m2 := 18
    tLit := 0x61
    tLen := 115
    tOff := 0
    lc := 23
    dc := 0 }

def atBlkStart : State := { p1At .blkStart 0 116 0 0 0 with m0 := 0, m1 := 0, m2 := 0 }
def atHdrFixed : State := p1At .hdrFixed 0 116 0 0 0
def atHdrClen : State := p1At .hdrClen 0 116 2 1 1
def atHdrTree : State := p1At .hdrTree 0 116 8 0x20 7
def atToken0 : State := p1At .writeToken 0 116 14 0 1
def atLitRep : State := p1At .litRep 1 115 14 0 1
def atToken1 : State := p1At .writeToken 1 115 14 2 3
def atMlDistRep : State := p1At .mlDistRep 2 0 14 2 3
def atMlExtra : State := p1At .mlExtra 2 0 14 2 4
def atDistRep : State := p1At .distRep 2 0 15 0 0
def atDistExtra : State := p1At .distExtra 2 0 15 0 1
def atBlockEnd : State := p1At .writeToken 2 0 15 0 1
def atSendOutput : State := p1At .sendOutput 2 0 15 0 1

/-- The next state, or reset where there is none. -/
def nextOf (o : Host.Outcome State Fault Refusal) : State :=
  match o with
  | .next s => s
  | .fault _ => State.reset
  | .refused _ => State.reset

def isNext (o : Host.Outcome State Fault Refusal) : Bool :=
  match o with
  | .next _ => true
  | .fault _ => false
  | .refused _ => false

theorem next_of_isNext {o : Host.Outcome State Fault Refusal} (h : isNext o = true) : o = .next (nextOf o) := by
  cases o <;> first | rfl | cases h

/-- Bytes a, a+1, … of `OUT`. -/
def outBytes (s : State) (a n : Nat) : List Byte := (List.range' a n).map (Memory.read s.mem.out)

/-! ## One step of each rule, with the values of P1's trace and of the vectors -/

/-- V-CTRL row 3. -/
theorem test_start_accepted :
    let t := nextOf (exec .start p1)
    t.st = .blkStart ∧ t.latInputSize = 116#32 ∧ t.latBskb = 1#32 ∧ ctrlWord t = 0#32 := by decide +kernel

/-- V-CTRL row 7. -/
theorem test_start_with_no_input :
    let t := nextOf (exec .start { p1 with inputSize := 0, op := 20, done := true })
    t.st = .idle ∧ t.done = true ∧ t.op = 0#32 ∧ t.mem = p1.mem := by decide +kernel

/-- R152 on P1. -/
theorem test_blkStart :
    let t := nextOf (step atBlkStart)
    t.st = .hdrFixed ∧ t.m0 = 281#9 ∧ t.m1 = 2#5 ∧ t.m2 = 18#5 ∧ t.bfinal = 0#1 ∧ t.blkRem = 116#32 := by
  decide +kernel

/-- V-HDR and V-PB rows 2 and 3: the first two bytes of P1 are C4 C1, and 1 bit is pending. -/
theorem test_hdrFixed :
    let t := nextOf (step atHdrFixed)
    t.st = .hdrClen ∧ outBytes t 0 2 = [0xC4#8, 0xC1#8] ∧ t.acc = 1#32 ∧ t.nbits = 1#5 := by decide +kernel

/-- P1's trace: bits 17 to 70. -/
theorem test_hdrClen :
    let t := nextOf (step atHdrClen)
    t.st = .hdrTree ∧ outBytes t 2 6 = [0x81#8, 0x00#8, 0x00#8, 0x00#8, 0x00#8, 0x80#8] ∧ t.acc = 0x20#32 ∧
      t.nbits = 7#5 := by decide +kernel

/-- P1's trace: bits 71 to 112. -/
theorem test_hdrTree :
    let t := nextOf (step atHdrTree)
    t.st = .writeToken ∧ outBytes t 8 6 = [0x20#8, 0xD6#8, 0xFD#8, 0x25#8, 0xC6#8, 0xA8#8] ∧ t.nbits = 1#5 := by
  decide +kernel

/-- V-LIT row 1. -/
theorem test_lit_accepted :
    let t := nextOf (step atToken0)
    t.st = .litRep ∧ t.tLit = 0x61#8 ∧ t.blkRem = 115#32 ∧ t.consumed = 1#32 ∧ t.tp = 1#32 := by decide +kernel

/-- V-LIT row 1: `PutBits(1, 2)`. -/
theorem test_lit_emitted :
    let t := nextOf (step atLitRep)
    t.st = .writeToken ∧ t.acc = 0b010#32 ∧ t.nbits = 3#5 ∧ t.op = 14#32 := by decide +kernel

/-- V-TOK: the word at `tp` = 1, and the state and fault it gives. -/
theorem test_token_reader_checks :
    ([0x00007300#32, 0x00000200#32, 0x00000100#32, 0x80007300#32, 0x00007400#32, 0x00017300#32, 0x80007400#32,
        0x00017400#32, 0x7FFF7300#32, 0x000073AB#32].map fun w =>
        let t := nextOf (step { atToken1 with mem := withElement p1Mem .tok 1 w })
        (t.st, t.fault, t.tp.toNat)) =
      [(.mlDistRep, none, 2), (.fault, some .tokenRsv, 2), (.fault, some .tokenRsv, 2), (.fault, some .distRange, 2),
        (.fault, some .boundary, 2), (.fault, some .distHistory, 2), (.fault, some .distRange, 2),
        (.fault, some .boundary, 2), (.fault, some .distHistory, 2), (.mlDistRep, none, 2)] := by decide +kernel

/-- V-MATCH row 1 and P1's trace: `LIT[280]` is `PutBits(0, 1)`, and the length code is 280 - 257. -/
theorem test_match_length_code :
    let t := nextOf (step atMlDistRep)
    t.st = .mlExtra ∧ t.lc = 23#5 ∧ t.acc = 2#32 ∧ t.nbits = 4#5 := by decide +kernel

/-- P1's trace: `PutBits(0, 4)` completes the byte 02 at `OUT[14]`. -/
theorem test_match_length_extra :
    let t := nextOf (step atMlExtra)
    t.st = .distRep ∧ outBytes t 14 1 = [0x02#8] ∧ t.op = 15#32 ∧ t.nbits = 0#5 := by decide +kernel

/-- V-MATCH row 6: `MATCH 226, 258` has distance code 16 with extra field 1 in 7 bits. -/
theorem test_match_distance_extra :
    let t := nextOf (step { atDistExtra with tOff := 257, dc := 16, acc := 0, nbits := 0 })
    t.st = .writeToken ∧ t.acc = 1#32 ∧ t.nbits = 7#5 := by decide +kernel

/-- P1's end: the last bytes, `SIZE[0]` = 20, and the run has ended well. -/
theorem test_sendOutput :
    let t := nextOf (step atSendOutput)
    t.st = .idle ∧ t.done = true ∧ t.fault = none ∧
      outBytes t 15 5 = [0x06#8, 0x00#8, 0x00#8, 0xFF#8, 0xFF#8] ∧ t.op = 20#32 ∧
      element t.mem .size 0 = 20#32 ∧ t.blk = 1#32 := by decide +kernel

/-- V-FLUSH, `SYNC` with `LAST`: no marker after the final block. -/
theorem test_sendOutput_final_block :
    let t := nextOf (step { atSendOutput with bfinal := 1 })
    outBytes t 15 1 = [0x06#8] ∧ element t.mem .size 0 = 16#32 := by decide +kernel

/-- V-EC rows 1 and 2: a stored code and a canonical code give the same bits. -/
theorem test_code_orders :
    codeField .reversed 0b01#32 2 = 1#32 ∧ codeField .canonical 0b10#32 2 = 1#32 ∧ rev 0b1101#32 4 = 0b1011#32 := by
  decide

/-- V-EC rows 5 to 9. -/
theorem test_code_checks :
    checkCode .lit 0 0 = .error .zeroLen ∧ checkCode .lit 16 0 = .error .lenRange ∧
      checkCode .bl 8 0 = .error .lenRange ∧ checkCode .lit 2 4 = .error .codeRange ∧
      checkCode .lit 0 5 = .error .zeroLen ∧ checkCode .dist 15 0x7FFF = .ok () := by decide

/-- The state after a part of a step. -/
def okOf (a : Act) : State :=
  match a with
  | .ok s => s
  | .error s => s

/-- V-PB rows 1, 4 and 6. -/
theorem test_bit_packer :
    let a := okOf (putBits 0b11010 5 { p1 with acc := 0b101, nbits := 3 })
    let b := okOf (padToByte { p1 with acc := 0b10110, nbits := 5 })
    let c := okOf (putBits 0xFFFF 16 { p1 with acc := 0x7F, nbits := 7 })
    outBytes a 0 1 = [0xD5#8] ∧ a.acc = 0#32 ∧ a.nbits = 0#5 ∧ outBytes b 0 1 = [0x16#8] ∧ b.nbits = 0#5 ∧
      outBytes c 0 2 = [0xFF#8, 0xFF#8] ∧ c.acc = 0x7F#32 ∧ c.nbits = 7#5 := by decide +kernel

/-- V-CTRL rows 1, 5 and 12. -/
theorem test_control_registers :
    ctrlRead 0x00 State.reset = 4#32 ∧ (ctrlWrite 0x10 5 atToken0).inputSize = 5#32 ∧
      (ctrlWrite 0x10 5 atToken0).latInputSize = 116#32 ∧
      ctrlRead 0x00 (resetEvent (raise .boundary atToken1)) = 4#32 ∧
      (resetEvent (raise .boundary atToken1)).mem = p1Mem := by decide +kernel

/-! ## withFetchWord -/

/-- The step after withFetchWord runs the placed instruction, from reset. -/
theorem test_withFetchWord_lit :
    let s := State.reset.withFetchWord 32 0x00000061
    (nextOf (step s)).st = .litRep ∧ (nextOf (step s)).tLit = 0x61#8 := by decide +kernel

theorem test_withFetchWord_reserved :
    (nextOf (step (State.reset.withFetchWord 32 0x00000100))).fault = some .tokenRsv ∧
      (nextOf (step (State.reset.withFetchWord 32 0x00000200))).fault = some .tokenRsv := by decide +kernel

/-- From reset nothing precedes a match, so it takes `F_DIST_HISTORY` (R155); after 1 byte it is accepted. -/
theorem test_withFetchWord_match :
    (nextOf (step (State.reset.withFetchWord 32 0x00000300))).fault = some .distHistory ∧
      (nextOf (step ({ State.reset with consumed := 1 }.withFetchWord 32 0x00000300))).st = .mlDistRep := by
  decide +kernel

theorem test_withFetchWord_start :
    isNext (step (State.reset.withFetchWord 32 0x00000001)) = true ∧
      (nextOf (step (State.reset.withFetchWord 32 0x00000001))).done = true ∧
      (nextOf (step ({ State.reset with inputSize := 116 }.withFetchWord 32 0x00000001))).st = .blkStart := by
  decide +kernel

/-! ## Witnesses: values that meet the hypotheses of each obligation -/

/-- Packed, as a decision. -/
def packedCheck (s : State) : Bool := decide (s.nbits.toNat ≤ 7) && decide (s.acc.toNat < 2 ^ s.nbits.toNat)

theorem packed_of_check {s : State} (h : packedCheck s = true) : Packed s := by
  simpa [packedCheck, Packed] using h

/-- Inv, as a decision. -/
def invCheck (s : State) : Bool :=
  Arrays.wf s.mem && decide (s.fault = none ↔ s.st ≠ .fault) && decide (s.done = true → s.st = .idle) &&
    decide (s.st.inBlock = true → packedCheck s = true) &&
    decide (s.st.busy = true →
      s.tp.toNat ≤ s.cfg.tokWords.toNat ∧ s.op.toNat ≤ s.cfg.outBytes.toNat ∧
        s.blk.toNat ≤ s.cfg.maxBlocks.toNat ∧ s.consumed.toNat ≤ s.latInputSize.toNat) &&
    decide (s.st.inBlock = true →
      s.consumed.toNat + s.blkRem.toNat ≤ s.latInputSize.toNat ∧ s.blkOut.toNat ≤ s.op.toNat ∧
        s.blk.toNat < s.cfg.maxBlocks.toNat ∧ maxCodesInRange s.m0.toNat s.m1.toNat s.m2.toNat = true) &&
    decide (s.st = .blkStart → s.consumed.toNat < s.latInputSize.toNat) &&
    decide (s.st = .hdrFixed → s.nbits = 0 ∧ s.blkOut = 0) &&
    decide (s.st.inMatch = true → 3 ≤ s.tLen.toNat ∧ s.tOff.toNat ≤ 32767) &&
    decide (s.st = .mlExtra → s.lc.toNat = lcode s.tLen.toNat) &&
    decide (s.st = .distExtra → s.dc.toNat = dcode s.tOff.toNat) && decide (s.st = .sendOutput → s.blkRem = 0)

theorem inv_of_check {s : State} (h : invCheck s = true) : Inv s := by
  simp only [invCheck, Bool.and_eq_true, decide_eq_true_eq] at h
  obtain ⟨⟨⟨⟨⟨⟨⟨⟨⟨⟨⟨h1, h2⟩, h3⟩, h4⟩, h5⟩, h6⟩, h7⟩, h8⟩, h9⟩, h10⟩, h11⟩, h12⟩ := h
  exact ⟨h1, h2, h3, fun hf => packed_of_check (h4 hf), h5, h6, h7, h8, h9, h10, h11, h12⟩

/-- GoodEntry and Room, as decisions. -/
theorem goodEntry_of_decide {t : Table} {sym : Nat} {s : State}
    (h : (decide (s.blk.toNat < s.cfg.maxBlocks.toNat) && decide (sym < t.stride) && decide (1 ≤ entryLen t sym s) &&
      decide (entryLen t sym s ≤ t.maxLen) && decide ((entryCode t sym s).toNat < 2 ^ entryLen t sym s)) = true) :
    GoodEntry t sym s := by
  simpa [GoodEntry, and_assoc] using h

theorem room_of_decide {n : Nat} {s : State}
    (h : decide (s.op.toNat + (s.nbits.toNat + n) / 8 ≤ s.cfg.outBytes.toNat) = true) : Room n s := by
  simpa [Room] using h

theorem inv_atBlkStart : Inv atBlkStart := inv_of_check (by decide +kernel)
theorem inv_atHdrFixed : Inv atHdrFixed := inv_of_check (by decide +kernel)
theorem inv_atHdrClen : Inv atHdrClen := inv_of_check (by decide +kernel)
theorem inv_atHdrTree : Inv atHdrTree := inv_of_check (by decide +kernel)
theorem inv_atToken0 : Inv atToken0 := inv_of_check (by decide +kernel)
theorem inv_atLitRep : Inv atLitRep := inv_of_check (by decide +kernel)
theorem inv_atToken1 : Inv atToken1 := inv_of_check (by decide +kernel)
theorem inv_atMlDistRep : Inv atMlDistRep := inv_of_check (by decide +kernel)
theorem inv_atMlExtra : Inv atMlExtra := inv_of_check (by decide +kernel)
theorem inv_atDistRep : Inv atDistRep := inv_of_check (by decide +kernel)
theorem inv_atDistExtra : Inv atDistExtra := inv_of_check (by decide +kernel)
theorem inv_atBlockEnd : Inv atBlockEnd := inv_of_check (by decide +kernel)
theorem inv_atSendOutput : Inv atSendOutput := inv_of_check (by decide +kernel)

theorem witness_DecodeUndoesEncode :
    (Instr.matchTok 3#8 0#16).wf = true ∧ (Instr.matchTok 255#8 65535#16).wf = true ∧ (Instr.lit 0xFF#8).wf = true ∧
      Instr.rsvLen1.wf = true ∧ Instr.rsvLen2.wf = true ∧ Instr.start.wf = true := by decide

theorem witness_LiteralOperandBits : (0xABCD0061#32).extractLsb' 8 8 = 0#8 := by decide

theorem witness_TokenBytesAreLittleEndian : Memory.wf [(3, 5#8), (7, 1#8)] = true ∧ Memory.wf [] = true := by decide

theorem witness_BitReversal : 32 ≤ 32 ∧ (0xFFFFFFFF#32).toNat < 2 ^ 32 ∧ 0 ≤ 32 ∧ (0#32).toNat < 2 ^ 0 := by decide

theorem witness_LengthCodeIsLargest : 3 ≤ 3 ∧ 3 ≤ 257 ∧ 257 ≤ 257 ∧ 3 ≤ 258 ∧ 258 ≤ 258 := by decide

theorem witness_DistanceCodeIsLargest : 0 ≤ 32767 ∧ 255 ≤ 32767 ∧ 256 ≤ 32767 ∧ 32767 ≤ 32767 := by decide

theorem witness_TreeItemsReadBack : ∀ l ∈ [15, 15, 15, 15, 0, 0, 0, 7], l ≤ 15 := by decide

/-- A run before another length, and at the end. -/
theorem witness_TreeItemsFollowRunRule :
    (1 ≤ 8 ∧ [0, 5].head? ≠ some 8) ∧ (1 ≤ 139 ∧ ([] : List Nat).head? ≠ some 0) := by decide

theorem decode_atToken0 : decodeToken (element atToken0.mem .tok atToken0.tp.toNat) = .lit 0x61#8 := by decide +kernel

theorem witness_StepRunsDecodedToken :
    atToken0.fault = none ∧ atToken0.st = .writeToken ∧ atToken0.blkRem ≠ 0#32 ∧
      atToken0.tp.toNat < atToken0.cfg.tokWords.toNat ∧
      decode (.token (element atToken0.mem .tok atToken0.tp.toNat)) = .ok (.lit 0x61#8) ∧ atToken0.turns = [] ∧
      ({ atToken0 with turns := [.core] } : State).turns = .core :: [] :=
  ⟨rfl, rfl, by decide, by decide, congrArg Except.ok decode_atToken0, rfl, rfl⟩

theorem witness_StepRunsLatchedToken :
    (atLitRep.turns = [] ∧ atLitRep.fault = none ∧ atLitRep.st = .litRep) ∧
      (atMlDistRep.turns = [] ∧ atMlDistRep.fault = none ∧ atMlDistRep.st.inMatch = true) ∧
      (atDistExtra.turns = [] ∧ atDistExtra.fault = none ∧ atDistExtra.st.inMatch = true) :=
  ⟨⟨rfl, rfl, rfl⟩, ⟨rfl, rfl, rfl⟩, ⟨rfl, rfl, rfl⟩⟩

theorem witness_StepRunsControlWrite :
    ({ p1 with turns := [.host (.writeCtrl 0x00 4 1#32)] } : State).turns = .host (.writeCtrl 0x00 4 1#32) :: [] ∧
      (1#32).getLsbD 0 = true ∧ (0xFFFFFFFE#32).getLsbD 0 = false :=
  ⟨rfl, by decide, by decide⟩

theorem witness_ListedCoreTurnIsCoreStep :
    (({ p1 with turns := [.core] } : State).turns = .core :: [] ∧ p1.st = .idle) ∧
      (raise .boundary atToken1).fault ≠ none ∧
      (({ atBlockEnd with turns := [.core] } : State).turns = .core :: [] ∧ atBlockEnd.fault = none ∧
        step { atBlockEnd with turns := [] } = .next atSendOutput) :=
  ⟨⟨rfl, rfl⟩, by simp, rfl, rfl, step_blockEnd rfl rfl rfl rfl⟩

theorem witness_StartFollowsItsRule : (0x00000001#32).getLsbD 0 = true ∧ (0xFFFFFFFF#32).getLsbD 0 = true := by decide

theorem witness_IdleCoreWaits : p1.turns = [] ∧ p1.fault = none ∧ p1.st = .idle := ⟨rfl, rfl, rfl⟩

/-- Each branch of R155: the block's end, the overrun at `tp` = `TOK_WORDS`, and (test_token_reader_checks) every
token. -/
theorem witness_WriteTokenFollowsItsRule :
    (atBlockEnd.turns = [] ∧ atBlockEnd.fault = none ∧ atBlockEnd.st = .writeToken ∧ atBlockEnd.blkRem = 0#32) ∧
      (atToken1.turns = [] ∧ atToken1.fault = none ∧ atToken1.st = .writeToken ∧ atToken1.blkRem ≠ 0#32) ∧
      ({ atToken1 with tp := 2 } : State).cfg.tokWords.toNat ≤ ({ atToken1 with tp := 2 } : State).tp.toNat :=
  ⟨⟨rfl, rfl, rfl, rfl⟩, ⟨rfl, rfl, rfl, by decide⟩, by decide⟩

theorem witness_LiteralIsAccepted :
    atToken0.fault = none ∧ atToken0.st = .writeToken ∧ ({ atToken0 with blkRem := 1 } : State).blkRem ≠ 0#32 :=
  ⟨rfl, rfl, by decide⟩

/-- At the boundary of each check: the match is as long as the rest of the block, and reaches back to byte 0. -/
theorem witness_MatchIsAccepted :
    atToken1.fault = none ∧ atToken1.st = .writeToken ∧ atToken1.blkRem ≠ 0#32 ∧ (0#16).toNat ≤ 32767 ∧
      (115#8).toNat ≤ atToken1.blkRem.toNat ∧ (0#16).toNat + 1 ≤ atToken1.consumed.toNat := by
  refine ⟨rfl, rfl, ?_⟩
  decide

theorem witness_MatchFaultsInOrder :
    atToken1.fault = none ∧ atToken1.st = .writeToken ∧ atToken1.blkRem ≠ 0#32 ∧ 32767 < (32768#16).toNat ∧
      ((32767#16).toNat ≤ 32767 ∧ atToken1.blkRem.toNat < (116#8).toNat) ∧
      ((1#16).toNat ≤ 32767 ∧ (115#8).toNat ≤ atToken1.blkRem.toNat ∧ atToken1.consumed.toNat < (1#16).toNat + 1) := by
  refine ⟨rfl, rfl, ?_⟩
  decide

theorem witness_ReservedTokensFault :
    atToken0.fault = none ∧ atToken0.st = .writeToken ∧ atToken0.blkRem ≠ 0#32 := ⟨rfl, rfl, by decide⟩

theorem witness_TokensOutOfTurnAreRefused :
    (raise .boundary atToken1).fault ≠ none ∧ p1.st ≠ .writeToken ∧ atBlockEnd.blkRem = 0#32 ∧
      (atLitRep.st ≠ .writeToken ∧ atLitRep.tLit ≠ 0x62#8 ∧ p1.st ≠ .litRep) ∧
      (atMlExtra.st ≠ .writeToken ∧ atMlExtra.tLen ≠ 3#8 ∧ atMlExtra.tOff ≠ 1#16 ∧ p1.st.inMatch = false) := by
  refine ⟨by simp, ?_⟩
  decide

/-- V-PB row 6, the widest field, with room for exactly its two bytes and with room for one; and the empty field. -/
theorem witness_PutBitsAppendsField :
    let s : State := { p1 with acc := 0x7F, nbits := 7, op := 1022 }
    let full : State := { p1 with acc := 0x7F, nbits := 7, op := 1023 }
    (Arrays.wf s.mem = true ∧ Packed s ∧ 16 ≤ 16 ∧ (0xFFFF#32).toNat < 2 ^ 16 ∧ s.op.toNat ≤ s.cfg.outBytes.toNat ∧
        Room 16 s) ∧
      (Arrays.wf full.mem = true ∧ Packed full ∧ full.op.toNat ≤ full.cfg.outBytes.toNat ∧ ¬ Room 16 full) ∧
      (0 ≤ 16 ∧ (0#32).toNat < 2 ^ 0 ∧ Room 0 s) := by
  refine ⟨⟨by decide +kernel, packed_of_check (by decide), by decide, by decide, by decide, room_of_decide (by decide)⟩,
    ⟨by decide +kernel, packed_of_check (by decide), by decide, by unfold Room; decide⟩, by decide, by decide,
    room_of_decide (by decide)⟩

theorem witness_OutByteStoresOneByte :
    let last : State := { p1 with op := 1023 }
    let full : State := { p1 with op := 1024 }
    Arrays.wf p1.mem = true ∧ last.op.toNat < last.cfg.outBytes.toNat ∧ last.blkOut.toNat ≤ last.op.toNat ∧
      full.cfg.outBytes.toNat ≤ full.op.toNat := by
  decide +kernel

theorem witness_PadToByteCompletesByte :
    let s : State := { p1 with acc := 0b10110, nbits := 5 }
    let full : State := { s with op := 1024 }
    (Arrays.wf s.mem = true ∧ Packed s ∧ s.op.toNat ≤ s.cfg.outBytes.toNat ∧ Room 7 s) ∧
      (Packed p1 ∧ Room 7 p1) ∧
      (Arrays.wf full.mem = true ∧ Packed full ∧ full.op.toNat ≤ full.cfg.outBytes.toNat ∧ ¬ Room 7 full) :=
  ⟨⟨by decide +kernel, packed_of_check (by decide), by decide, room_of_decide (by decide)⟩,
    ⟨packed_of_check (by decide), room_of_decide (by decide)⟩,
    by decide +kernel, packed_of_check (by decide), by decide, (by unfold Room; decide)⟩

/-- The last symbol of each table. -/
theorem witness_EmitCodeFollowsItsRule : 285 < Table.lit.stride ∧ 29 < Table.dist.stride ∧ 18 < Table.bl.stride := by
  decide

theorem witness_EmitCodeAppendsCode :
    (Arrays.wf atLitRep.mem = true ∧ Packed atLitRep ∧ GoodEntry .lit 97 atLitRep ∧
        Room (entryLen .lit 97 atLitRep) atLitRep) ∧
      (GoodEntry .dist 0 atLitRep ∧ Room (entryLen .dist 0 atLitRep) atLitRep) ∧
      (GoodEntry .bl 18 atLitRep ∧ Room (entryLen .bl 18 atLitRep) atLitRep) :=
  ⟨⟨by decide +kernel, packed_of_check (by decide), goodEntry_of_decide (by decide +kernel),
      room_of_decide (by decide +kernel)⟩,
    ⟨goodEntry_of_decide (by decide +kernel), room_of_decide (by decide +kernel)⟩,
    goodEntry_of_decide (by decide +kernel), room_of_decide (by decide +kernel)⟩

theorem witness_LiteralCodeIsAppended :
    atLitRep.fault = none ∧ atLitRep.st = .litRep ∧ atLitRep.tLit = 0x61#8 ∧ Arrays.wf atLitRep.mem = true ∧
      Packed atLitRep ∧ GoodEntry .lit (0x61#8).toNat atLitRep ∧
      Room (entryLen .lit (0x61#8).toNat atLitRep) atLitRep :=
  ⟨rfl, rfl, rfl, by decide +kernel, packed_of_check (by decide), goodEntry_of_decide (by decide +kernel),
    room_of_decide (by decide +kernel)⟩

theorem witness_LengthCodeIsAppended :
    atMlDistRep.fault = none ∧ atMlDistRep.st = .mlDistRep ∧ atMlDistRep.tLen = 115#8 ∧ atMlDistRep.tOff = 0#16 ∧
      3 ≤ (115#8).toNat ∧ Arrays.wf atMlDistRep.mem = true ∧ Packed atMlDistRep ∧
      GoodEntry .lit (257 + lcode (115#8).toNat) atMlDistRep ∧
      Room (entryLen .lit (257 + lcode (115#8).toNat) atMlDistRep) atMlDistRep :=
  ⟨rfl, rfl, rfl, rfl, by decide, by decide +kernel, packed_of_check (by decide),
    goodEntry_of_decide (by decide +kernel), room_of_decide (by decide +kernel)⟩

theorem witness_LengthExtraIsAppended :
    atMlExtra.fault = none ∧ atMlExtra.st = .mlExtra ∧ atMlExtra.tLen = 115#8 ∧ atMlExtra.tOff = 0#16 ∧
      3 ≤ (115#8).toNat ∧ atMlExtra.lc.toNat = lcode (115#8).toNat ∧ Arrays.wf atMlExtra.mem = true ∧
      Packed atMlExtra ∧ Room (lext (lcode (115#8).toNat)) atMlExtra :=
  ⟨rfl, rfl, rfl, rfl, by decide, by decide, by decide +kernel, packed_of_check (by decide),
    room_of_decide (by decide +kernel)⟩

theorem witness_DistanceCodeIsAppended :
    atDistRep.fault = none ∧ atDistRep.st = .distRep ∧ atDistRep.tLen = 115#8 ∧ atDistRep.tOff = 0#16 ∧
      (0#16).toNat ≤ 32767 ∧ Arrays.wf atDistRep.mem = true ∧ Packed atDistRep ∧
      GoodEntry .dist (dcode (0#16).toNat) atDistRep ∧
      Room (entryLen .dist (dcode (0#16).toNat) atDistRep) atDistRep :=
  ⟨rfl, rfl, rfl, rfl, by decide, by decide +kernel, packed_of_check (by decide),
    goodEntry_of_decide (by decide +kernel), room_of_decide (by decide +kernel)⟩

/-- The longest extra field: distance 32768. -/
theorem witness_DistanceExtraIsAppended :
    let s : State := { atDistExtra with tOff := 32767, dc := 29 }
    s.fault = none ∧ s.st = .distExtra ∧ s.tLen = 115#8 ∧ s.tOff = 32767#16 ∧ (32767#16).toNat ≤ 32767 ∧
      s.dc.toNat = dcode (32767#16).toNat ∧ Arrays.wf s.mem = true ∧ Packed s ∧
      Room (dext (dcode (32767#16).toNat)) s :=
  ⟨rfl, rfl, rfl, rfl, by decide, by decide +kernel, by decide +kernel, packed_of_check (by decide),
    room_of_decide (by decide +kernel)⟩

theorem headerItems_p1 (m : Arrays) :
    let s : State := { atHdrTree with mem := m }
    tableLens .lit 281 s = tableLens .lit 281 atHdrTree → tableLens .dist 2 s = tableLens .dist 2 atHdrTree →
      headerItems s =
        [⟨18, 86, 7⟩] ++ ⟨2, 0, 0⟩ ::
          [⟨18, 127, 7⟩, ⟨18, 9, 7⟩, ⟨2, 0, 0⟩, ⟨18, 12, 7⟩, ⟨1, 0, 0⟩, ⟨1, 0, 0⟩, ⟨1, 0, 0⟩] := by
  intro s h1 h2
  have e : headerItems s = treeItems (tableLens .lit 281 s) ++ treeItems (tableLens .dist 2 s) := rfl
  rw [e, h1, h2]
  decide +kernel

/-- P1 with the used length set to 0 (V-FAULT row 8), to 16 (row 9a), the distance table's first length to 0, the length
of EOB to 0, and the length of the second header item, the code-length symbol 2, to 0. -/
theorem witness_BadEntriesFault :
    let s1 : State := { atLitRep with mem := withElement p1Mem .litl 97 0 }
    let s2 : State := { atMlDistRep with mem := withElement p1Mem .litl 280 16 }
    let s3 : State := { atDistRep with mem := withElement p1Mem .distl 0 0 }
    (s1.fault = none ∧ s1.st = .litRep ∧ s1.tLit = 0x61#8 ∧
        lookupCode .lit (0x61#8).toNat s1 = .error .zeroLen) ∧
      (s2.fault = none ∧ s2.st = .mlDistRep ∧ s2.tLen = 115#8 ∧ s2.tOff = 0#16 ∧
        lookupCode .lit (257 + lcode (115#8).toNat) s2 = .error .lenRange) ∧
      (s3.fault = none ∧ s3.st = .distRep ∧ s3.tLen = 115#8 ∧ s3.tOff = 0#16 ∧
        lookupCode .dist (dcode (0#16).toNat) s3 = .error .zeroLen) :=
  ⟨⟨rfl, rfl, rfl, by decide +kernel⟩, ⟨rfl, rfl, rfl, rfl, by decide +kernel⟩,
    ⟨rfl, rfl, rfl, rfl, by decide +kernel⟩⟩

theorem witness_BadEntriesFault_blocks :
    let s4 : State := { atSendOutput with mem := withElement p1Mem .litl 256 0 }
    let s5 : State := { atHdrTree with mem := withElement p1Mem .bll 2 0 }
    (s4.fault = none ∧ s4.turns = [] ∧ s4.st = .sendOutput ∧ lookupCode .lit 256 s4 = .error .zeroLen) ∧
      (Inv s5 ∧ s5.fault = none ∧ s5.turns = [] ∧ s5.st = .hdrTree ∧ (∀ l ∈ tableLens .lit s5.m0.toNat s5, l ≤ 15) ∧
        headerItems s5 =
          [⟨18, 86, 7⟩] ++ ⟨2, 0, 0⟩ ::
            [⟨18, 127, 7⟩, ⟨18, 9, 7⟩, ⟨2, 0, 0⟩, ⟨18, 12, 7⟩, ⟨1, 0, 0⟩, ⟨1, 0, 0⟩, ⟨1, 0, 0⟩] ∧
        (∀ l ∈ tableLens .dist s5.m1.toNat s5, l ≤ 15) ∧ (∀ j ∈ [(⟨18, 86, 7⟩ : Item)], GoodEntry .bl j.sym s5) ∧
        Room ([(⟨18, 86, 7⟩ : Item)].flatMap (itemBits s5)).length s5 ∧ lookupCode .bl 2 s5 = .error .zeroLen) :=
  ⟨⟨rfl, rfl, rfl, by decide +kernel⟩, inv_of_check (by decide +kernel), rfl, rfl, rfl, by decide +kernel,
    headerItems_p1 _ (by decide +kernel) (by decide +kernel), by decide +kernel,
    fun j h => by
      rw [List.mem_singleton.1 h]
      exact goodEntry_of_decide (by decide +kernel),
    room_of_decide (by decide +kernel), by decide +kernel⟩

/-- A state whose buffer is full. -/
def fullAt (s : State) : State := { s with cfg := { s.cfg with outBytes := s.op } }

/-- All hypotheses of Obligations.FullBufferFaults. -/
def FullBuffer (s : State) : Prop :=
  Inv s ∧ s.turns = [] ∧ s.st.inBlock = true ∧ s.st ≠ .writeToken ∧ EntriesGood s ∧ ¬ Room (stepBits s) s

/-- Each emitting state of a token, with a full buffer and bits to write that complete a byte. -/
theorem witness_FullBufferFaults :
    FullBuffer (fullAt { atLitRep with acc := 0, nbits := 7 }) ∧
      FullBuffer (fullAt { atMlDistRep with acc := 0, nbits := 7 }) ∧ FullBuffer (fullAt atMlExtra) ∧
      FullBuffer (fullAt { atDistRep with acc := 0, nbits := 7 }) ∧
      FullBuffer (fullAt { atDistExtra with tOff := 257, dc := 16 }) := by
  refine ⟨⟨inv_of_check (by decide +kernel), rfl, rfl, by decide, goodEntry_of_decide (by decide +kernel), ?_⟩,
    ⟨inv_of_check (by decide +kernel), rfl, rfl, by decide, goodEntry_of_decide (by decide +kernel), ?_⟩,
    ⟨inv_of_check (by decide +kernel), rfl, rfl, by decide, trivial, ?_⟩,
    ⟨inv_of_check (by decide +kernel), rfl, rfl, by decide, goodEntry_of_decide (by decide +kernel), ?_⟩,
    ⟨inv_of_check (by decide +kernel), rfl, rfl, by decide, trivial, ?_⟩⟩ <;>
    (unfold Room; decide +kernel)

/-- The same for the states that belong to a block, but for `HDR_TREE` (witness_FullBufferFaults_hdrTree). -/
theorem witness_FullBufferFaults_blocks :
    FullBuffer (fullAt atHdrFixed) ∧ FullBuffer (fullAt atHdrClen) ∧ FullBuffer (fullAt atSendOutput) := by
  have h : ∀ sym ∈ blOrder.take 18, entryLen .bl sym (fullAt atHdrClen) ≤ 7 := by decide +kernel
  refine ⟨⟨inv_of_check (by decide +kernel), rfl, rfl, by decide, trivial, ?_⟩,
    ⟨inv_of_check (by decide +kernel), rfl, rfl, by decide, h, ?_⟩,
    ⟨inv_of_check (by decide +kernel), rfl, rfl, by decide, goodEntry_of_decide (by decide +kernel), ?_⟩⟩ <;>
    (unfold Room; decide +kernel)

theorem witness_LiteralTokenRun :
    Inv atToken0 ∧ atToken0.turns = [] ∧ atToken0.st = .writeToken ∧ atToken0.blkRem ≠ 0#32 ∧
      atToken0.tp.toNat < atToken0.cfg.tokWords.toNat ∧
      decodeToken (element atToken0.mem .tok atToken0.tp.toNat) = .lit 0x61#8 ∧
      GoodEntry .lit (0x61#8).toNat atToken0 ∧ Room (entryLen .lit (0x61#8).toNat atToken0) atToken0 :=
  ⟨inv_atToken0, rfl, rfl, by decide, by decide, by decide +kernel, goodEntry_of_decide (by decide +kernel),
    room_of_decide (by decide +kernel)⟩

theorem witness_MatchTokenRun :
    Inv atToken1 ∧ atToken1.turns = [] ∧ atToken1.st = .writeToken ∧ atToken1.blkRem ≠ 0#32 ∧
      atToken1.tp.toNat < atToken1.cfg.tokWords.toNat ∧
      decodeToken (element atToken1.mem .tok atToken1.tp.toNat) = .matchTok 115#8 0#16 ∧ (0#16).toNat ≤ 32767 ∧
      (115#8).toNat ≤ atToken1.blkRem.toNat ∧ (0#16).toNat + 1 ≤ atToken1.consumed.toNat ∧
      GoodEntry .lit (257 + lcode (115#8).toNat) atToken1 ∧ GoodEntry .dist (dcode (0#16).toNat) atToken1 ∧
      Room
        (entryLen .lit (257 + lcode (115#8).toNat) atToken1 + lext (lcode (115#8).toNat) +
          entryLen .dist (dcode (0#16).toNat) atToken1 + dext (dcode (0#16).toNat)) atToken1 :=
  ⟨inv_atToken1, rfl, rfl, by decide, by decide, by decide +kernel, by decide, by decide, by decide,
    goodEntry_of_decide (by decide +kernel), goodEntry_of_decide (by decide +kernel),
    room_of_decide (by decide +kernel)⟩

/-- Each branch of R152 at its boundary: `MAX_BLOCKS` reached; 115 and 1025 bytes (V-BS); `MAXC[0]` = 256 (V-FAULT row
2a); and P1, which is accepted (test_blkStart). -/
theorem witness_BlockStartFollowsItsRule :
    (atBlkStart.turns = [] ∧ atBlkStart.fault = none ∧ atBlkStart.st = .blkStart) ∧
      (nextOf (step { atBlkStart with blk := 1 })).fault = some .blockOverrun ∧
      (nextOf (step { atBlkStart with mem := withElement p1Mem .desc 0 115 })).fault = some .badBlockSize ∧
      (nextOf (step { atBlkStart with mem := withElement p1Mem .desc 0 1025, latInputSize := 1025 })).fault =
        some .badBlockSize ∧
      (nextOf (step { atBlkStart with mem := withElement p1Mem .maxc 0 256 })).fault = some .badMaxCodes := by
  refine ⟨⟨rfl, rfl, rfl⟩, ?_⟩
  decide +kernel

theorem witness_FixedHeaderIsAppended :
    Inv atHdrFixed ∧ atHdrFixed.turns = [] ∧ atHdrFixed.st = .hdrFixed ∧ Room 17 atHdrFixed :=
  ⟨inv_atHdrFixed, rfl, rfl, room_of_decide (by decide)⟩

/-- The two clauses at their boundary: a length 7, and a length 8 (V-FAULT row 9b). -/
theorem witness_CodeLengthLengthsAreAppended :
    let s7 : State := { atHdrClen with mem := withElement p1Mem .bll 18 7 }
    let s8 : State := { atHdrClen with mem := withElement p1Mem .bll 18 8 }
    let ranks := [16, 17, 18, 0, 8, 7, 9, 6, 10, 5, 11, 4, 12, 3, 13, 2, 14, 1, 15].take 18
    (Inv s7 ∧ s7.turns = [] ∧ s7.st = .hdrClen ∧ Room (3 * s7.m2.toNat) s7 ∧ ∀ sym ∈ ranks, entryLen .bl sym s7 ≤ 7) ∧
      (Inv s8 ∧ s8.turns = [] ∧ s8.st = .hdrClen ∧ Room (3 * s8.m2.toNat) s8 ∧ ∃ sym ∈ ranks, 7 < entryLen .bl sym s8) :=
  ⟨⟨inv_of_check (by decide +kernel), rfl, rfl, room_of_decide (by decide), by decide +kernel⟩,
    inv_of_check (by decide +kernel), rfl, rfl, room_of_decide (by decide), by decide +kernel⟩

theorem headerItems_atHdrTree :
    headerItems atHdrTree =
      [⟨18, 86, 7⟩, ⟨2, 0, 0⟩, ⟨18, 127, 7⟩, ⟨18, 9, 7⟩, ⟨2, 0, 0⟩, ⟨18, 12, 7⟩, ⟨1, 0, 0⟩, ⟨1, 0, 0⟩, ⟨1, 0, 0⟩] := by
  decide +kernel

theorem goodItems_atHdrTree : ∀ i ∈ headerItems atHdrTree, GoodEntry .bl i.sym atHdrTree := by
  rw [headerItems_atHdrTree]
  intro i h
  refine goodEntry_of_decide ?_
  revert h
  revert i
  decide +kernel

theorem witness_TreesAreAppended :
    Inv atHdrTree ∧ atHdrTree.turns = [] ∧ atHdrTree.st = .hdrTree ∧
      (∀ l ∈ tableLens .lit atHdrTree.m0.toNat atHdrTree, l ≤ 15) ∧
      (∀ l ∈ tableLens .dist atHdrTree.m1.toNat atHdrTree, l ≤ 15) ∧
      (∀ i ∈ headerItems atHdrTree, GoodEntry .bl i.sym atHdrTree) ∧
      Room ((headerItems atHdrTree).flatMap (itemBits atHdrTree)).length atHdrTree := by
  refine ⟨inv_atHdrTree, rfl, rfl, by decide +kernel, by decide +kernel, goodItems_atHdrTree, ?_⟩
  rw [headerItems_atHdrTree]
  exact room_of_decide (by decide +kernel)

/-- The header's items with a full buffer. -/
theorem witness_FullBufferFaults_hdrTree : FullBuffer (fullAt atHdrTree) := by
  have e : stepBits (fullAt atHdrTree) = ((headerItems atHdrTree).flatMap (itemBits atHdrTree)).length := rfl
  refine ⟨inv_of_check (by decide +kernel), rfl, rfl, by decide, ⟨?_, ?_, goodItems_atHdrTree⟩, ?_⟩
  · show ∀ l ∈ tableLens .lit 281 atHdrTree, l ≤ 15
    decide +kernel
  · show ∀ l ∈ tableLens .dist 2 atHdrTree, l ≤ 15
    decide +kernel
  · rw [e, headerItems_atHdrTree]
    unfold Room
    decide +kernel

/-- V-FAULT row 9a, and a distance length of 16. -/
theorem witness_LongLengthFaultsBeforeTree :
    let s : State := { atHdrTree with mem := withElement p1Mem .litl 280 16 }
    let d : State := { atHdrTree with mem := withElement p1Mem .distl 0 16 }
    (Inv s ∧ s.turns = [] ∧ s.st = .hdrTree ∧ ∃ l ∈ tableLens .lit s.m0.toNat s, 15 < l) ∧
      (Inv d ∧ d.turns = [] ∧ d.st = .hdrTree ∧ (∀ l ∈ tableLens .lit d.m0.toNat d, l ≤ 15) ∧
        (∃ l ∈ tableLens .dist d.m1.toNat d, 15 < l) ∧
        (∀ i ∈ treeItems (tableLens .lit d.m0.toNat d), GoodEntry .bl i.sym d) ∧
        Room ((treeItems (tableLens .lit d.m0.toNat d)).flatMap (itemBits d)).length d) := by
  have h :
      treeItems (tableLens .lit 281 { atHdrTree with mem := withElement p1Mem .distl 0 16 }) =
        [⟨18, 86, 7⟩, ⟨2, 0, 0⟩, ⟨18, 127, 7⟩, ⟨18, 9, 7⟩, ⟨2, 0, 0⟩, ⟨18, 12, 7⟩, ⟨1, 0, 0⟩] := by
    decide +kernel
  refine ⟨⟨inv_of_check (by decide +kernel), rfl, rfl, by decide +kernel⟩,
    inv_of_check (by decide +kernel), rfl, rfl, by decide +kernel, by decide +kernel, ?_, ?_⟩
  · show ∀ i ∈ treeItems (tableLens .lit 281 { atHdrTree with mem := withElement p1Mem .distl 0 16 }), _
    rw [h]
    intro i hi
    refine goodEntry_of_decide ?_
    revert hi
    revert i
    decide +kernel
  · show Room ((treeItems (tableLens .lit 281 { atHdrTree with mem := withElement p1Mem .distl 0 16 })).flatMap _).length _
    rw [h]
    exact room_of_decide (by decide +kernel)

/-- Both flushes, and both ways on: with the sync marker to the end, without it, and to a next block. -/
theorem witness_BlockEndFollowsItsRule :
    let s : State := { atSendOutput with bfinal := 1 }
    let more : State := { atSendOutput with latInputSize := 232, cfg := { p1.cfg with maxBlocks := 2 } }
    (Inv atSendOutput ∧ atSendOutput.turns = [] ∧ atSendOutput.st = .sendOutput ∧ GoodEntry .lit 256 atSendOutput ∧
        Room (entryLen .lit 256 atSendOutput + 42) atSendOutput) ∧
      (Inv s ∧ s.turns = [] ∧ s.st = .sendOutput ∧ GoodEntry .lit 256 s ∧ Room (entryLen .lit 256 s + 42) s) ∧
      (Inv more ∧ more.turns = [] ∧ more.st = .sendOutput ∧ GoodEntry .lit 256 more ∧
        Room (entryLen .lit 256 more + 42) more) :=
  ⟨⟨inv_atSendOutput, rfl, rfl, goodEntry_of_decide (by decide +kernel), room_of_decide (by decide +kernel)⟩,
    ⟨inv_of_check (by decide +kernel), rfl, rfl, goodEntry_of_decide (by decide +kernel),
      room_of_decide (by decide +kernel)⟩,
    inv_of_check (by decide +kernel), rfl, rfl, goodEntry_of_decide (by decide +kernel),
    room_of_decide (by decide +kernel)⟩

theorem step_atSendOutput : step atSendOutput = .next (sendOutput atSendOutput) := step_sendOutput rfl rfl rfl

theorem witness_BlockEndsByteAligned :
    Inv atSendOutput ∧ atSendOutput.turns = [] ∧ atSendOutput.st = .sendOutput ∧
      step atSendOutput = .next (sendOutput atSendOutput) ∧ (sendOutput atSendOutput).fault = none :=
  ⟨inv_atSendOutput, rfl, rfl, step_atSendOutput, by decide +kernel⟩

/-- Each clause: a narrow access, an unaligned one, and the first and last words of the space. -/
theorem witness_ControlAccesses :
    ({ p1 with turns := [.host (.readCtrl 0x00 1)] } : State).turns = .host (.readCtrl 0x00 1) :: [] ∧ 1 ≠ 4 ∧
      ({ p1 with turns := [.host (.writeCtrl 0x12 4 5#32)] } : State).turns = .host (.writeCtrl 0x12 4 5#32) :: [] ∧
      0x12 % 4 ≠ 0 ∧ (0x00 % 4 = 0 ∧ 0x00 < 32) ∧ (0x1C % 4 = 0 ∧ 0x1C < 32) ∧ (0x10 % 4 = 0 ∧ 0x10 < 32) ∧
      (0x18 % 4 = 0 ∧ 0x18 < 32) ∧
      ({ p1 with turns := [.host (.readCtrl 0x1C 4)] } : State).turns = .host (.readCtrl 0x1C 4) :: [] ∧
      ({ p1 with turns := [.host (.writeCtrl 0x18 4 5#32)] } : State).turns = .host (.writeCtrl 0x18 4 5#32) :: [] :=
  ⟨rfl, by decide, rfl, by decide, by decide, by decide, by decide, by decide, rfl, rfl⟩

/-- Idle and busy, at the last element of a space. -/
theorem witness_HostArrayWrites :
    ({ p1 with turns := [.host (.writeArray .bll 18 7#32)] } : State).turns =
        .host (.writeArray .bll 18 7#32) :: [] ∧
      Arrays.wf p1.mem = true ∧ 18 < capacity p1.cfg .bll ∧ p1.st = .idle ∧ atToken0.st ≠ .idle ∧
      1023 < capacity p1.cfg .out :=
  ⟨rfl, by decide +kernel, by decide, rfl, by decide, by decide⟩

/-- Each clause at its boundary: the last byte and the last size that are ready, the first that are not, and before
`DONE`. -/
theorem witness_HostResultReads :
    let s : State := { p1 with done := true, op := 20, blk := 1, turns := [.host (.readArray .out 19)] }
    s.turns = .host (.readArray .out 19) :: [] ∧ 19 < capacity s.cfg .out ∧ s.done = true ∧ 19 < s.op.toNat ∧
      0 < capacity s.cfg .size ∧ 0 < s.blk.toNat ∧ s.op.toNat ≤ 20 ∧ 20 < capacity s.cfg .out ∧ p1.done = false := by
  refine ⟨rfl, ?_⟩
  decide

/-- Idle and busy, at the last element of a space. -/
theorem witness_HostInputReads :
    let s : State := { p1 with turns := [.host (.readArray .bll 18)] }
    let b : State := { atToken0 with turns := [.host (.readArray .bll 18)] }
    (s.turns = .host (.readArray .bll 18) :: [] ∧ Space.bll ≠ .out ∧ Space.bll ≠ .size ∧ 18 < capacity s.cfg .bll ∧
        s.st = .idle) ∧
      (b.turns = .host (.readArray .bll 18) :: [] ∧ 18 < capacity b.cfg .bll ∧ b.st ≠ .idle) := by
  refine ⟨⟨rfl, ?_⟩, rfl, ?_⟩ <;> decide

theorem witness_ResetLeavesIdle :
    ({ raise .boundary atToken1 with turns := [.host .reset] } : State).turns = .host .reset :: [] := rfl

theorem witness_StepKeepsInvariant :
    Inv atSendOutput ∧ step atSendOutput = .next (sendOutput atSendOutput) := ⟨inv_atSendOutput, step_atSendOutput⟩

theorem witness_CoreWritesOnlyResults :
    Inv atSendOutput ∧ step atSendOutput = .next (sendOutput atSendOutput) ∧ atSendOutput.turns = [] ∧
      (Inv atBlockEnd ∧ step atBlockEnd = .next atSendOutput ∧ atBlockEnd.turns = [] ∧ atBlockEnd.st ≠ .sendOutput) :=
  ⟨inv_atSendOutput, step_atSendOutput, rfl, inv_atBlockEnd, step_blockEnd rfl rfl rfl rfl, rfl, by decide⟩

/-- Both clauses: a step that reads the last token of `TOK`, and one that reads none. -/
theorem witness_TokenPointerIsSequential :
    (Inv atToken1 ∧ atToken1.turns = [] ∧ isNext (step atToken1) = true ∧ atToken1.st = .writeToken ∧
        atToken1.blkRem ≠ 0#32 ∧ atToken1.tp.toNat < atToken1.cfg.tokWords.toNat) ∧
      (Inv atBlockEnd ∧ atBlockEnd.turns = [] ∧ isNext (step atBlockEnd) = true ∧ ¬ atBlockEnd.blkRem ≠ 0#32) :=
  ⟨⟨inv_atToken1, rfl, by decide +kernel, rfl, by decide, by decide⟩, inv_atBlockEnd, rfl, by decide +kernel, by decide⟩

theorem witness_TransitionsFollowTable :
    Inv atBlockEnd ∧ atBlockEnd.turns = [] ∧ step atBlockEnd = .next atSendOutput :=
  ⟨inv_atBlockEnd, rfl, step_blockEnd rfl rfl rfl rfl⟩

theorem witness_FaultLastsUntilReset :
    let s : State := raise .boundary atToken1
    let r : State := { s with turns := [.core] }
    (Inv s ∧ s.fault = some .boundary ∧ s.turns = []) ∧
      (Inv r ∧ r.fault = some .boundary ∧ isNext (step r) = true ∧ r.turns.head? ≠ some (.host .reset)) :=
  ⟨⟨inv_of_check (by decide +kernel), rfl, rfl⟩, inv_of_check (by decide +kernel), rfl, by decide +kernel, by simp⟩

/-- For the three accounts: the START of P1, and a host read inside the block. -/
theorem witness_accounts :
    let s : State := { atSendOutput with turns := [.host (.readCtrl 0x00 4)] }
    (p1.st = .idle ∧ p1.fault = none ∧ exec .start p1 = .next (goto .blkStart (latchArguments p1))) ∧
      Inv s ∧ SizesAccounted s ∧ InputAccounted s ∧ WithinBudget s ∧ isNext (step s) = true :=
  ⟨⟨rfl, rfl, rfl⟩, inv_of_check (by decide +kernel), fun _ => by decide +kernel,
    fun _ => ⟨fun _ => by decide +kernel, by decide +kernel⟩, fun _ => ⟨by decide +kernel, by decide +kernel⟩,
    by decide +kernel⟩

theorem witness_SizesAddUpToOutput :
    Inv atSendOutput ∧ SizesAccounted atSendOutput ∧ atSendOutput.turns = [] ∧
      step atSendOutput = .next (sendOutput atSendOutput) ∧ atSendOutput.st = .sendOutput ∧
      (sendOutput atSendOutput).fault = none :=
  ⟨inv_atSendOutput, fun _ => by decide +kernel, rfl, step_atSendOutput, rfl, by decide +kernel⟩

theorem witness_BlocksCoverInput :
    Inv atSendOutput ∧ InputAccounted atSendOutput ∧ atSendOutput.turns = [] ∧
      step atSendOutput = .next (sendOutput atSendOutput) ∧ atSendOutput.st = .sendOutput ∧
      EndedWell (sendOutput atSendOutput) :=
  ⟨inv_atSendOutput, fun _ => ⟨fun _ => by decide +kernel, by decide +kernel⟩, rfl, step_atSendOutput, rfl,
    by decide +kernel, by decide +kernel, by decide +kernel⟩

theorem witness_OutputWithinBound :
    Inv atSendOutput ∧ WithinBudget atSendOutput ∧ atSendOutput.turns = [] ∧
      step atSendOutput = .next (sendOutput atSendOutput) ∧ atSendOutput.st = .sendOutput ∧
      (sendOutput atSendOutput).fault = none :=
  ⟨inv_atSendOutput, fun _ => ⟨by decide +kernel, by decide +kernel⟩, rfl, step_atSendOutput, rfl, by decide +kernel⟩

theorem inv_p1 : Inv p1 := inv_of_check (by decide +kernel)

theorem witness_EveryInvocationEnds :
    Inv p1 ∧ p1.turns = [] ∧ p1.st = .idle ∧ p1.inputSize ≠ 0#32 ∧
      exec .start p1 = .next (goto .blkStart (latchArguments p1)) :=
  ⟨inv_p1, rfl, rfl, by decide, rfl⟩

/-- P1 idle after another session: other leftovers in the registers and in the outputs. -/
def p1Used : State :=
  { p1 with
    op := 20, blk := 1, tp := 2, consumed := 116, acc := 1, nbits := 3, lc := 5, done := true,
    mem := { p1Mem with out := [(0, 0xC4)] } }

theorem inv_p1Used : Inv p1Used := inv_of_check (by decide +kernel)

theorem sameInputArrays_out (m : Arrays) (o : Memory) : sameInputArrays m { m with out := o } :=
  ⟨rfl, rfl, rfl, rfl, rfl, rfl, rfl, rfl, rfl⟩

theorem witness_SessionsAreClean :
    (Inv p1 ∧ p1.st = .idle ∧ p1.turns = []) ∧ (Inv p1Used ∧ p1Used.st = .idle ∧ p1Used.turns = []) ∧
      p1.cfg = p1Used.cfg ∧ p1.inputSize = p1Used.inputSize ∧ p1.blockSizeKb = p1Used.blockSizeKb ∧
      sameInputArrays p1.mem p1Used.mem ∧
      exec .start p1 = .next (goto .blkStart (latchArguments p1)) ∧
      exec .start p1Used = .next (goto .blkStart (latchArguments p1Used)) :=
  ⟨⟨inv_p1, rfl, rfl⟩, ⟨inv_p1Used, rfl, rfl⟩, rfl, rfl, rfl, sameInputArrays_out p1Mem _, rfl, rfl⟩

end Sys2Proof.Tests
end

section
/-! PROOFS. The bit reversal of R11, bit by bit (O6). -/

namespace Sys2Proof.Machine

/-- The bit `rev` peels off in one step is bit 0 of the value, and it lands at position `n`. -/
theorem getLsbD_lowBit_shiftLeft (v : Word) (n : Nat) (hn : n < 32) (i : Nat) :
    ((v &&& 1) <<< n).getLsbD i = (decide (i = n) && v.getLsbD 0) := by
  have one (k : Nat) : (1 : Word).getLsbD k = decide (k = 0) := by simp [BitVec.getLsbD_one]
  rw [BitVec.getLsbD_shiftLeft, BitVec.getLsbD_and, one]
  rcases Nat.lt_trichotomy i n with h | rfl | h
  · simp [h, h.ne]
  · simp [hn]
  · simp [h.ne', Nat.sub_ne_zero_of_lt h]

/-- R11: the bits of a reversal, by recursion on its width. -/
theorem getLsbD_rev (v : Word) (n : Nat) (hn : n ≤ 32) (i : Nat) :
    (rev v n).getLsbD i = (decide (i < n) && v.getLsbD (n - 1 - i)) := by
  induction n generalizing v with
  | zero => simp [rev]
  | succ n ih =>
    rw [rev, BitVec.getLsbD_or, getLsbD_lowBit_shiftLeft v n hn, ih (v >>> 1) (by omega),
      BitVec.getLsbD_ushiftRight]
    rcases Nat.lt_trichotomy i n with h | rfl | h
    · have same : 1 + (n - 1 - i) = n + 1 - 1 - i := by omega
      rw [same]
      simp [h, h.ne, Nat.lt_succ_of_lt h]
    · simp
    · simp [h.ne', h.not_gt, h.not_ge]

/-- R134: two reversals over one width give an n-bit value back, since position n-1-(n-1-i) is i below n. -/
theorem rev_rev (v : Word) (n : Nat) (hn : n ≤ 32) (hv : v.toNat < 2 ^ n) : rev (rev v n) n = v := by
  apply BitVec.eq_of_getLsbD_eq
  intro i _
  rw [getLsbD_rev _ n hn, getLsbD_rev _ n hn]
  by_cases h : i < n
  · have back : n - 1 - (n - 1 - i) = i := by omega
    have inside : n - 1 - i < n := by omega
    simp [h, back, inside]
  · have clear : v.getLsbD i = false :=
      Nat.testBit_eq_false_of_lt (hv.trans_le (Nat.pow_le_pow_right (by decide) (Nat.le_of_not_lt h)))
    simp [h, clear]

/-- Settles O6, from the bits of a reversal and its involution on n-bit values. -/
theorem bitReversal : Obligations.BitReversal :=
  fun v n hn => ⟨getLsbD_rev v n hn, rev_rev v n hn⟩

end Sys2Proof.Machine
end

section
/-! PROOFS. The state a step of the core leads to, as a function of the state, and what it says of single turns (O13,
O15, O22). -/

namespace Sys2Proof.Machine

/-- What `WRITE_TOKEN` does with the token it has read (R155). -/
def acceptToken (i : Instr) (s : State) : State :=
  match i with
  | .lit b => acceptLit b s
  | .matchTok len off => acceptMatch len off s
  | _ => rejectReserved s

/-- `WRITE_TOKEN` (R155): the block's end, the overrun, or a token. -/
def writeToken (s : State) : State :=
  if s.blkRem = 0#32 then goto .sendOutput s
  else if s.tp.toNat < s.cfg.tokWords.toNat then acceptToken (decodeToken (element s.mem .tok s.tp.toNat)) s
  else raise .tokenOverrun s

/-- The state the action of `st` ends in (R21); `IDLE` and `FAULT` have none. -/
def coreStep (s : State) : State :=
  match s.st with
  | .idle => s
  | .fault => s
  | .blkStart => blkStart s
  | .hdrFixed => hdrFixed s
  | .hdrClen => hdrClen s
  | .hdrTree => hdrTree s
  | .writeToken => writeToken s
  | .litRep => litRep s
  | .mlDistRep => mlDistRep s
  | .mlExtra => mlExtra s
  | .distRep => distRep s
  | .distExtra => distExtra s
  | .sendOutput => sendOutput s

theorem exec_decodeToken {s : State} (h : atToken s = true) (w : Word) :
    exec (decodeToken w) s = .next (acceptToken (decodeToken w) s) :=
  exec_at_token h w

theorem perform_fetchToken {s : State} (hf : s.fault = none) (hs : s.st = .writeToken) :
    perform (fetchToken s) = .next (writeToken s) := by
  unfold fetchToken writeToken
  by_cases hb : s.blkRem = 0#32
  · rw [if_pos hb, if_pos hb, perform_answer]
  · rw [if_neg hb, if_neg hb]
    by_cases hp : s.tp.toNat < s.cfg.tokWords.toNat
    · have hw : memRead .tok s.tp.toNat s = .ok (element s.mem .tok s.tp.toNat) := if_pos hp
      rw [if_pos hp, hw]
      exact exec_decodeToken (atToken_iff.2 ⟨hf, hs, hb⟩) _
    · have hw : memRead .tok s.tp.toNat s = .error .tokenOverrun := if_neg hp
      rw [if_neg hp, hw]
      rfl

/-- The core's move, unless it is faulted: a latched token's exec is the action that `st` names (R21, R35). -/
theorem perform_coreMove {s : State} (hf : s.fault = none) : perform (coreMove s) = .next (coreStep s) := by
  unfold coreMove coreStep
  rw [if_pos hf]
  cases hs : s.st
  case writeToken => exact perform_fetchToken hf hs
  case litRep => simp [exec, execLit, atToken, atState, hf, hs]
  case mlDistRep => simp [exec, execMatch, atToken, atState, latchedMatch, hf, hs]
  case mlExtra => simp [exec, execMatch, atToken, atState, latchedMatch, hf, hs]
  case distRep => simp [exec, execMatch, atToken, atState, latchedMatch, hf, hs]
  case distExtra => simp [exec, execMatch, atToken, atState, latchedMatch, hf, hs]
  all_goals rfl

theorem coreStep_eq_self {s : State} (hs : s.st = .idle ∨ s.st = .fault) : coreStep s = s := by
  unfold coreStep
  rcases hs with hs | hs <;> rw [hs]

theorem perform_coreMove_faulted {s : State} (hf : s.fault ≠ none) : perform (coreMove s) = .next s := by
  rw [coreMove, if_neg hf, perform_answer]

/-- With no move listed a step that answers a next state is a step of an unfaulted core. -/
theorem eq_coreStep_of_step {s t : State} (ht : s.turns = []) (h : step s = .next t) :
    s.fault = none ∧ s.st ≠ .fault ∧ t = coreStep s := by
  cases hf : s.fault with
  | some c => rw [step_faulted ht hf] at h; cases h
  | none =>
    by_cases hs : s.st = .fault
    · simp [step, nextMove, ht, unscheduledMove, hf, hs] at h
    · rw [step_core ht hf hs, perform_coreMove hf] at h
      cases h
      exact ⟨rfl, hs, rfl⟩

/-- Settles O13: bit 0 of a `CTRL` write decides between START and no instruction (R24). -/
theorem stepRunsControlWrite : Obligations.StepRunsControlWrite := by
  intro s rest v ht
  rw [step_listed_host ht]
  refine ⟨fun hv => ?_, fun hv => ?_⟩
  · have hd : decodeCtrl v = .ok .start := by rw [decodeCtrl, if_pos hv]
    refine ⟨hd, ?_⟩
    simp [hostMove, hostWriteCtrl, wholeAlignedWord, ctrlSpaceBytes, ctrlOffset, hd]
  · have hd : decodeCtrl v = .error .noStartBit := by rw [decodeCtrl, if_neg (by rw [hv]; decide)]
    simp [hostMove, hostWriteCtrl, wholeAlignedWord, ctrlSpaceBytes, ctrlOffset, hd]

/-- Settles O15: the model's stuttering step (log 6). -/
theorem idleCoreWaits : Obligations.IdleCoreWaits := fun _ => step_idle

/-- Settles O22: out of turn `atToken` is false, and so is the test of every state that runs a latched token (log 9). -/
theorem tokensOutOfTurnAreRefused : Obligations.TokensOutOfTurnAreRefused := by
  intro b len off s hturn
  have hat : atToken s ≠ true := fun h => by
    obtain ⟨hf, hs, hb⟩ := atToken_iff.1 h
    rcases hturn with h | h | h
    · exact h hf
    · exact h hs
    · exact hb h
  refine ⟨by simp only [exec, execRsvLen1, if_neg hat], by simp only [exec, execRsvLen2, if_neg hat], fun hlit => ?_,
    fun hmatch => ?_⟩
  · have : ¬ (atState .litRep s && decide (s.tLit = b)) = true := by
      simp only [atState, Bool.and_eq_true, decide_eq_true_eq]
      tauto
    simp only [exec, execLit, if_neg hat, if_neg this]
  · simp only [exec, execMatch, if_neg hat]
    by_cases hl : latchedMatch len off s = true
    · rw [if_pos hl]
      have hst (x : St) (hx : x.inMatch = true) : ¬ atState x s = true := by
        intro h
        simp only [atState, latchedMatch, Bool.and_eq_true, decide_eq_true_eq] at h hl
        obtain ⟨hf, rfl⟩ := h
        rcases hmatch with h | h | h | h
        · exact h hf
        · simp [hx] at h
        · exact h hl.1
        · exact h hl.2
      rw [if_neg (hst .mlDistRep rfl), if_neg (hst .mlExtra rfl), if_neg (hst .distRep rfl),
        if_neg (hst .distExtra rfl)]
    · rw [if_neg hl]

end Sys2Proof.Machine
end

section
/-! PROOFS. No action of the core reads or writes the list of moves, so a listed core turn is the core's own step
(O14). -/

namespace Sys2Proof.Machine

/-- The same state with another list of moves. -/
def withTurns (r : List Turn) (s : State) : State := { s with turns := r }

/-- The same part of a step, with another list of moves. -/
def mapTurns (r : List Turn) : Act → Act
  | .ok s => .ok (withTurns r s)
  | .error s => .error (withTurns r s)

/-- An operation that neither reads nor writes the list of moves. -/
def TurnsUnread (k : State → Act) : Prop := ∀ (r : List Turn) (s : State), k (withTurns r s) = mapTurns r (k s)

theorem finish_mapTurns (r : List Turn) (a : Act) : finish (mapTurns r a) = withTurns r (finish a) := by
  cases a <;> rfl

theorem TurnsUnread.andThen {f g : State → Act} (hf : TurnsUnread f) (hg : TurnsUnread g) :
    TurnsUnread fun s => andThen (f s) g := by
  intro r s
  show Machine.andThen (f (withTurns r s)) g = mapTurns r (Machine.andThen (f s) g)
  rw [hf r s]
  cases f s with
  | ok t => exact hg r t
  | error t => rfl

/-- Going on in a state that is computed without the list. -/
theorem turnsUnread_map {f : State → State} (hf : ∀ r s, f (withTurns r s) = withTurns r (f s)) :
    TurnsUnread fun s => .ok (f s) :=
  fun r s => congrArg Except.ok (hf r s)

theorem turnsUnread_ok : TurnsUnread Except.ok := fun _ _ => rfl

theorem turnsUnread_goto (x : St) : TurnsUnread fun s => .ok (goto x s) := turnsUnread_map fun _ _ => rfl

theorem turnsUnread_raise (c : FaultCode) : TurnsUnread fun s => .error (raise c s) := fun _ _ => rfl

/-- A state's action that ends with a `goto`. -/
theorem TurnsUnread.finish_goto {k : State → Act} (hk : TurnsUnread k) (x : St) (r : List Turn) (s : State) :
    finish (Machine.andThen (k (withTurns r s)) fun t => .ok (goto x t)) =
      withTurns r (finish (Machine.andThen (k s) fun t => .ok (goto x t))) := by
  rw [← finish_mapTurns]
  exact congrArg finish (hk.andThen (turnsUnread_goto x) r s)

theorem TurnsUnread.ite {f g : State → Act} {p : State → Prop} [DecidablePred p]
    (hp : ∀ r s, p (withTurns r s) ↔ p s) (hf : TurnsUnread f) (hg : TurnsUnread g) :
    TurnsUnread fun s => if p s then f s else g s := by
  intro r s
  by_cases h : p s
  · simpa only [if_pos h, if_pos ((hp r s).2 h)] using hf r s
  · simpa only [if_neg h, if_neg (mt (hp r s).1 h)] using hg r s

theorem turnsUnread_outByte (b : Byte) : TurnsUnread (outByte b) := by
  intro r s
  simp only [outByte_eq]
  exact TurnsUnread.ite (p := fun s => s.op.toNat < s.cfg.outBytes.toNat) (fun _ _ => Iff.rfl)
    (turnsUnread_map fun _ _ => rfl) (turnsUnread_raise .outOverflow) r s

theorem turnsUnread_drain (k : Nat) : TurnsUnread (drain k) := by
  induction k with
  | zero => exact turnsUnread_ok
  | succ k ih =>
    intro r s
    have hrest : TurnsUnread fun t => drain k { t with acc := t.acc >>> 8, nbits := t.nbits - 8 } :=
      fun r t => ih r { t with acc := t.acc >>> 8, nbits := t.nbits - 8 }
    exact ((turnsUnread_outByte (s.acc.setWidth 8)).andThen hrest) r s

theorem turnsUnread_putBits (v : Word) (n : Nat) : TurnsUnread (putBits v n) :=
  fun r s => turnsUnread_drain ((s.nbits.toNat + n) / 8) r (appendBits v n s)

theorem turnsUnread_padToByte : TurnsUnread padToByte :=
  TurnsUnread.ite (p := fun s => 0 < s.nbits.toNat) (fun _ _ => Iff.rfl)
    (fun r s => turnsUnread_putBits 0 (8 - s.nbits.toNat) r s) turnsUnread_ok

theorem turnsUnread_putExtra (v e : Nat) : TurnsUnread (putExtra v e) :=
  TurnsUnread.ite (p := fun _ => e = 0) (fun _ _ => Iff.rfl) turnsUnread_ok (turnsUnread_putBits _ e)

theorem turnsUnread_emitCode (t : Table) (sym : Nat) : TurnsUnread (emitCode t sym) := by
  intro r s
  have hl : lookupCode t sym (withTurns r s) = lookupCode t sym s := rfl
  unfold emitCode
  rw [hl]
  cases lookupCode t sym s with
  | error c => rfl
  | ok p => exact turnsUnread_putBits p.2 p.1 r s

theorem turnsUnread_putClen (sym : Nat) : TurnsUnread (putClen sym) := by
  intro r s
  have hl : codeLen .bl sym (withTurns r s) = codeLen .bl sym s := rfl
  unfold putClen
  rw [hl]
  cases codeLen .bl sym s with
  | error c => rfl
  | ok v =>
    exact TurnsUnread.ite (p := fun _ => maxLenBl < v.toNat) (fun _ _ => Iff.rfl) (turnsUnread_raise .lenRange)
      (turnsUnread_putBits v 3) r s

theorem turnsUnread_putClens (l : List Nat) : TurnsUnread (putClens l) := by
  induction l with
  | nil => exact turnsUnread_ok
  | cons sym l ih => exact (turnsUnread_putClen sym).andThen ih

theorem turnsUnread_putItems (l : List Item) : TurnsUnread (putItems l) := by
  induction l with
  | nil => exact turnsUnread_ok
  | cons i l ih => exact ((turnsUnread_emitCode .bl i.sym).andThen (turnsUnread_putBits _ i.bits)).andThen ih

theorem readLens_withTurns (t : Table) (k n : Nat) (r : List Turn) (s : State) :
    readLens t k n (withTurns r s) = readLens t k n s := by
  induction n generalizing k with
  | zero => rfl
  | succ n ih =>
    have hl : codeLen t k (withTurns r s) = codeLen t k s := rfl
    simp only [readLens, hl, ih]

theorem turnsUnread_sendTree (t : Table) (n : Nat) : TurnsUnread (sendTree t n) := by
  intro r s
  unfold sendTree
  rw [readLens_withTurns]
  cases readLens t 0 n s with
  | error c => rfl
  | ok lens => exact turnsUnread_putItems (treeItems lens) r s

theorem turnsUnread_flushSync : TurnsUnread flushSync :=
  (turnsUnread_putBits 0 3).andThen <| turnsUnread_padToByte.andThen <| (turnsUnread_outByte _).andThen <|
    (turnsUnread_outByte _).andThen <| (turnsUnread_outByte _).andThen (turnsUnread_outByte _)

theorem turnsUnread_flushBlock : TurnsUnread flushBlock :=
  TurnsUnread.ite (p := fun s => s.cfg.flush = .sync ∧ s.bfinal = 0#1) (fun _ _ => Iff.rfl) turnsUnread_flushSync
    turnsUnread_padToByte

theorem turnsUnread_recordSize : TurnsUnread recordSize := by
  intro r s
  unfold recordSize memWrite
  by_cases h : s.blk.toNat < capacity s.cfg .size
  · rw [if_pos h, if_pos (show (withTurns r s).blk.toNat < capacity (withTurns r s).cfg .size from h)]
    rfl
  · rw [if_neg h, if_neg (show ¬ (withTurns r s).blk.toNat < capacity (withTurns r s).cfg .size from h)]
    rfl

theorem nextOrDone_withTurns (r : List Turn) (s : State) : nextOrDone (withTurns r s) = withTurns r (nextOrDone s) := by
  unfold nextOrDone
  by_cases h : s.consumed = s.latInputSize
  · rw [if_pos h, if_pos (show (withTurns r s).consumed = (withTurns r s).latInputSize from h)]
    rfl
  · rw [if_neg h, if_neg (show ¬ (withTurns r s).consumed = (withTurns r s).latInputSize from h)]
    rfl

theorem sendOutput_withTurns (r : List Turn) (s : State) : sendOutput (withTurns r s) = withTurns r (sendOutput s) := by
  have h := (turnsUnread_emitCode .lit eobSymbol).andThen <| turnsUnread_flushBlock.andThen <|
    turnsUnread_recordSize.andThen (turnsUnread_map nextOrDone_withTurns)
  exact (congrArg finish (h r s)).trans (finish_mapTurns r _)

theorem hdrFixed_withTurns (r : List Turn) (s : State) : hdrFixed (withTurns r s) = withTurns r (hdrFixed s) := by
  have h := (turnsUnread_putBits ((2#32 <<< 1) ||| s.bfinal.zeroExtend 32) 3).andThen <|
    (turnsUnread_putBits (BitVec.ofNat 32 (s.m0.toNat - 257)) 5).andThen <|
      (turnsUnread_putBits (BitVec.ofNat 32 (s.m1.toNat - 1)) 5).andThen <|
        (turnsUnread_putBits (BitVec.ofNat 32 (s.m2.toNat - 4)) 4).andThen (turnsUnread_goto .hdrClen)
  exact (congrArg finish (h r s)).trans (finish_mapTurns r _)

theorem hdrTree_withTurns (r : List Turn) (s : State) : hdrTree (withTurns r s) = withTurns r (hdrTree s) := by
  have hdist : TurnsUnread fun t => sendTree .dist t.m1.toNat t := fun r t => turnsUnread_sendTree .dist t.m1.toNat r t
  have h := (turnsUnread_sendTree .lit s.m0.toNat).andThen <| hdist.andThen (turnsUnread_goto .writeToken)
  exact (congrArg finish (h r s)).trans (finish_mapTurns r _)

theorem blkStart_withTurns (r : List Turn) (s : State) : blkStart (withTurns r s) = withTurns r (blkStart s) := by
  have hd : memRead .desc (withTurns r s).blk.toNat (withTurns r s) = memRead .desc s.blk.toNat s := rfl
  have hm : readMaxCodes (withTurns r s) = readMaxCodes s := rfl
  have hb (bs : Nat) : badBlockSize bs (withTurns r s) = badBlockSize bs s := rfl
  unfold blkStart
  rw [hd, hm]
  cases memRead .desc s.blk.toNat s with
  | error c => rfl
  | ok bs =>
    simp only [hb]
    cases badBlockSize bs.toNat s with
    | true => rfl
    | false =>
      cases readMaxCodes s with
      | error c => rfl
      | ok abc =>
        obtain ⟨a, b, c⟩ := abc
        simp only
        cases maxCodesInRange a.toNat b.toNat c.toNat <;> rfl

theorem acceptToken_withTurns (i : Instr) (r : List Turn) (s : State) :
    acceptToken i (withTurns r s) = withTurns r (acceptToken i s) := by
  cases i with
  | matchTok len off =>
    have hc : checkMatch len off (withTurns r s) = checkMatch len off s := rfl
    show acceptMatch len off (withTurns r s) = withTurns r (acceptMatch len off s)
    unfold acceptMatch
    rw [hc]
    cases checkMatch len off s <;> rfl
  | _ => rfl

theorem writeToken_withTurns (r : List Turn) (s : State) : writeToken (withTurns r s) = withTurns r (writeToken s) := by
  have hacc := acceptToken_withTurns (decodeToken (element s.mem .tok s.tp.toNat)) r s
  unfold writeToken
  by_cases hb : s.blkRem = 0#32
  · rw [if_pos hb, if_pos (show (withTurns r s).blkRem = 0#32 from hb)]
    rfl
  · rw [if_neg hb, if_neg (show ¬ (withTurns r s).blkRem = 0#32 from hb)]
    by_cases hp : s.tp.toNat < s.cfg.tokWords.toNat
    · rw [if_pos hp, if_pos (show (withTurns r s).tp.toNat < (withTurns r s).cfg.tokWords.toNat from hp)]
      exact hacc
    · rw [if_neg hp, if_neg (show ¬ (withTurns r s).tp.toNat < (withTurns r s).cfg.tokWords.toNat from hp)]
      rfl

/-- No action of the core reads or writes the list of moves. -/
theorem coreStep_withTurns (r : List Turn) (s : State) : coreStep (withTurns r s) = withTurns r (coreStep s) := by
  have hst : (withTurns r s).st = s.st := rfl
  unfold coreStep
  rw [hst]
  cases s.st with
  | idle => rfl
  | fault => rfl
  | blkStart => exact blkStart_withTurns r s
  | hdrFixed => exact hdrFixed_withTurns r s
  | hdrClen => exact (turnsUnread_putClens (blOrder.take s.m2.toNat)).finish_goto .hdrTree r s
  | hdrTree => exact hdrTree_withTurns r s
  | writeToken => exact writeToken_withTurns r s
  | litRep => exact (turnsUnread_emitCode .lit s.tLit.toNat).finish_goto .writeToken r s
  | mlDistRep =>
    exact (turnsUnread_emitCode .lit (257 + lcode s.tLen.toNat)).finish_goto .mlExtra r
      { s with lc := BitVec.ofNat 5 (lcode s.tLen.toNat) }
  | mlExtra =>
    exact (turnsUnread_putExtra (s.tLen.toNat - lbase s.lc.toNat) (lext s.lc.toNat)).finish_goto .distRep r s
  | distRep =>
    exact (turnsUnread_emitCode .dist (dcode s.tOff.toNat)).finish_goto .distExtra r
      { s with dc := BitVec.ofNat 5 (dcode s.tOff.toNat) }
  | distExtra =>
    exact (turnsUnread_putExtra (s.tOff.toNat + 1 - dbase s.dc.toNat) (dext s.dc.toNat)).finish_goto .writeToken r s
  | sendOutput => exact sendOutput_withTurns r s

/-- Settles O14, since no action of the core reads or writes the list of moves. -/
theorem listedCoreTurnIsCoreStep : Obligations.ListedCoreTurnIsCoreStep := by
  intro s t rest ht
  rw [step_listed_core ht]
  refine ⟨fun hpass => ?_, fun hf h => ?_⟩
  · by_cases hf : s.fault = none
    · have hs : s.st = .idle := hpass.resolve_right (not_not_intro hf)
      rw [perform_coreMove (s := { s with turns := rest }) hf]
      exact congrArg Host.Outcome.next (coreStep_eq_self (.inl hs))
    · exact perform_coreMove_faulted (s := { s with turns := rest }) hf
  · obtain ⟨-, -, rfl⟩ := eq_coreStep_of_step (s := { s with turns := [] }) rfl h
    rw [perform_coreMove (s := { s with turns := rest }) hf]
    exact congrArg Host.Outcome.next (coreStep_withTurns rest { s with turns := [] })

end Sys2Proof.Machine
end

section
/-! PROOFS. The control registers as the host reads and writes them, and the reset state (O44, O49). -/

namespace Sys2Proof.Machine

/-- Bit 1 of `CTRL` is DONE, bit 2 is IDLE, and the rest reads 0 (R24). -/
theorem getLsbD_ctrlWord (s : State) (i : Nat) :
    (ctrlWord s).getLsbD i = (decide (i = 1) && s.done || decide (i = 2) && decide (s.st = .idle)) := by
  have two : (0x00000002#32).getLsbD i = decide (i = 1) := by
    rw [show 0x00000002#32 = BitVec.twoPow 32 1 from rfl, BitVec.getLsbD_twoPow]
    simp [eq_comm]
  have four : (0x00000004#32).getLsbD i = decide (i = 2) := by
    rw [show 0x00000004#32 = BitVec.twoPow 32 2 from rfl, BitVec.getLsbD_twoPow]
    simp [eq_comm]
  unfold ctrlWord idleFlag
  rw [BitVec.getLsbD_or, apply_ite (BitVec.getLsbD · i), apply_ite (BitVec.getLsbD · i), two, four,
    BitVec.getLsbD_zero]
  cases s.done <;> cases decide (s.st = .idle) <;> simp

/-- A control access that is not a whole aligned word is refused (R23). -/
theorem wholeAlignedWord_eq_false {off width : Nat} (h : width ≠ 4 ∨ off % 4 ≠ 0) :
    wholeAlignedWord off width = false := by
  simp only [wholeAlignedWord, Bool.and_eq_false_iff, decide_eq_false_iff_not]
  exact h

theorem wholeAlignedWord_four {off : Nat} (h : off % 4 = 0) : wholeAlignedWord off 4 = true := by
  simp [wholeAlignedWord, h]

/-- A whole aligned read inside the control space (R23). -/
theorem hostReadCtrl_eq {off : Nat} (ha : off % 4 = 0) (hoff : off < 32) (s : State) :
    hostReadCtrl off 4 s = .answer (.next (hostReads (ctrlRead off s) s)) := by
  simp [hostReadCtrl, wholeAlignedWord_four ha, ctrlSpaceBytes, Nat.not_le.2 hoff]

/-- A whole aligned write inside the control space, other than of `CTRL` (R23). -/
theorem hostWriteCtrl_eq {off : Nat} (ha : off % 4 = 0) (hoff : off < 32) (hctrl : off ≠ 0x00) (v : Word) (s : State) :
    hostWriteCtrl off 4 v s = .answer (.next (ctrlWrite off v s)) := by
  simp [hostWriteCtrl, wholeAlignedWord_four ha, ctrlSpaceBytes, Nat.not_le.2 hoff, ctrlOffset, hctrl]

/-- Settles O44: refusals, reads by register, and writes by register. -/
theorem controlAccesses : Obligations.ControlAccesses := by
  intro s rest off width v
  refine ⟨fun ht hbad => ?_, fun ht ha hoff => ?_, fun ht ha hoff => ?_⟩
  · have hw := wholeAlignedWord_eq_false hbad
    rcases ht with ht | ht <;> rw [step_listed_host ht]
    · simp [hostMove, hostReadCtrl, hw]
    · simp [hostMove, hostWriteCtrl, hw]
  · refine ⟨ctrlRead off { s with turns := rest }, ?_, ?_, ?_, ?_, ?_⟩
    · rw [step_listed_host ht, hostMove, hostReadCtrl_eq ha hoff]
      rfl
    · rintro rfl
      show (ctrlWord { s with turns := rest }).getLsbD 1 = _ ∧ (ctrlWord { s with turns := rest }).getLsbD 2 = _ ∧
        ∀ i, _ → _ → (ctrlWord { s with turns := rest }).getLsbD i = false
      simp only [getLsbD_ctrlWord]
      refine ⟨by simp, by simp, fun i h1 h2 => by simp [h1, h2]⟩
    · rintro rfl
      rfl
    · rintro rfl
      rfl
    · intro h0 h1 h2
      simp [ctrlRead, ctrlOffset, inputSizeOffset, blockSizeKbOffset, h0, h1, h2]
  · have hstep (hctrl : off ≠ 0x00) : step s = .next (ctrlWrite off v { s with turns := rest }) := by
      rw [step_listed_host ht, hostMove, hostWriteCtrl_eq ha hoff hctrl]
      rfl
    refine ⟨?_, ?_, fun h0 h1 h2 => ?_⟩
    · rintro rfl
      exact hstep (by decide)
    · rintro rfl
      exact hstep (by decide)
    · rw [hstep h0]
      simp [ctrlWrite, inputSizeOffset, blockSizeKbOffset, h1, h2]

/-- Settles O49, by evaluation of the fixed reset state (R41). -/
theorem resetStateAsStated : Obligations.ResetStateAsStated := ⟨rfl, rfl, rfl, rfl, rfl⟩

end Sys2Proof.Machine
end

section
/-! PROOFS. The fields that the emitting states hand to `PutBits` fit their widths: extra bits (R103, R105), the items
of a tree (R187) and the codes of a table (R109). -/

namespace Sys2Proof.Machine

/-- R103: every length's code fits `lc`, and its extra value the code's extra bits. -/
theorem lengthExtra_fits {len : Nat} (h3 : 3 ≤ len) (h : len < 256) :
    lcode len < 32 ∧ len - lbase (lcode len) < 2 ^ lext (lcode len) ∧ lext (lcode len) ≤ 16 := by
  have all : ∀ l < 256, 3 ≤ l →
      lcode l < 32 ∧ l - lbase (lcode l) < 2 ^ lext (lcode l) ∧ lext (lcode l) ≤ 16 := by decide +kernel
  exact all len h h3

/-- A distance code's entry for an offset: the code fits `dc`, and the offset's extra value the code's extra bits. -/
def DistanceFits (c off : Nat) : Prop := c < 32 ∧ off + 1 - dbase c < 2 ^ dext c ∧ dext c ≤ 16

/-- `DIST_CODE` entry by entry (R106): entry k below 256 serves offset k, entry k from 258 on the 128 offsets up to
`128 (k - 256) + 127`, the last of which has the largest extra value. -/
theorem distCodeTable_fits :
    ∀ e ∈ distCodeTable.zipIdx,
      (e.2 < 256 → DistanceFits e.1 e.2) ∧ (258 ≤ e.2 → DistanceFits e.1 (128 * (e.2 - 256) + 127)) := by
  unfold DistanceFits
  decide +kernel

theorem distCodeTable_length : distCodeTable.length = 512 := by decide +kernel

theorem getD_mem_zipIdx {k : Nat} (h : k < 512) : (distCodeTable.getD k 0, k) ∈ distCodeTable.zipIdx := by
  rw [List.mk_mem_zipIdx_iff_getElem?, List.getD_eq_getElem?_getD,
    List.getElem?_eq_getElem (by rw [distCodeTable_length]; exact h)]
  rfl

/-- R105: the code of an offset fits `dc`, and its extra value the code's extra bits, in both branches. -/
theorem distanceExtra_fits {off : Nat} (h : off ≤ 32767) : DistanceFits (dcode off) off := by
  unfold dcode
  split_ifs with hlow
  · exact (distCodeTable_fits _ (getD_mem_zipIdx (by omega))).1 hlow
  · have hj : off >>> 7 = off / 128 := Nat.shiftRight_eq_div_pow off 7
    rw [hj]
    obtain ⟨hc, hv, he⟩ := (distCodeTable_fits _ (getD_mem_zipIdx (k := 256 + off / 128) (by omega))).2
      (by show 258 ≤ 256 + off / 128; omega)
    exact ⟨hc, lt_of_le_of_lt (Nat.sub_le_sub_right (by omega) _) hv, he⟩

/-- The field of an item fits its width (R188). -/
def Item.fits (i : Item) : Prop := i.bits ≤ 16 ∧ i.extra < 2 ^ i.bits

theorem Item.fits_mk {sym extra bits : Nat} (hb : bits ≤ 16) (he : extra < 2 ^ bits) : Item.fits ⟨sym, extra, bits⟩ :=
  ⟨hb, he⟩

/-- The limits that `SendTree` holds while it counts a run of `cur` after the run `prev` (R187). -/
def limitsFor (prev : Option Nat) (cur : Nat) : Nat × Nat :=
  if cur = 0 then (138, 3) else if some cur = prev then (6, 3) else (7, 4)

theorem runLimits_some (prev : Option Nat) (cur : Nat) : runLimits (some cur) prev = limitsFor prev cur := by
  simp [runLimits, limitsFor]

/-- A run within its limit needs no repeat count beyond its field (R187). -/
theorem runItems_fit {prev : Option Nat} {cur count : Nat} (h : count ≤ (limitsFor prev cur).1) :
    ∀ i ∈ runItems prev cur count (limitsFor prev cur).2, i.fits := by
  intro i hi
  have single : Item.fits ⟨cur, 0, 0⟩ := Item.fits_mk (by decide) (by decide)
  unfold runItems at hi
  unfold limitsFor at h
  split_ifs at hi with hshort hcur hprev hten
  · obtain ⟨-, rfl⟩ := List.mem_replicate.1 hi
    exact single
  · rw [if_neg hcur, if_neg hprev] at h
    rcases List.mem_pair.1 hi with rfl | rfl
    · exact single
    · exact Item.fits_mk (by decide) (by omega)
  · rw [if_neg hcur, if_pos (not_not.1 hprev)] at h
    obtain rfl := List.mem_singleton.1 hi
    exact Item.fits_mk (by decide) (by omega)
  · obtain rfl := List.mem_singleton.1 hi
    exact Item.fits_mk (by decide) (by omega)
  · rw [if_pos (not_not.1 hcur)] at h
    obtain rfl := List.mem_singleton.1 hi
    exact Item.fits_mk (by decide) (by omega)

theorem treeItemsFrom_fit (lens : List Nat) (prev : Option Nat) (count : Nat) (limits : Nat × Nat)
    (hl : ∀ cur, lens.head? = some cur → limits = limitsFor prev cur) (hc : count < limits.1) :
    ∀ i ∈ treeItemsFrom prev count limits lens, i.fits := by
  induction lens generalizing prev count limits with
  | nil => simp [treeItemsFrom]
  | cons cur rest ih =>
    have hlim : limits = limitsFor prev cur := hl cur rfl
    unfold treeItemsFrom
    split_ifs with hmore
    · refine ih prev (count + 1) limits (fun next hnext => ?_) hmore.1
      have : next = cur := by simpa [hnext] using hmore.2
      rw [this, hlim]
    · intro i hi
      rcases List.mem_append.1 hi with hi | hi
      · subst hlim
        exact runItems_fit hc i hi
      · refine ih (some cur) 0 _ (fun next hnext => ?_) ?_ i hi
        · rw [hnext, runLimits_some]
        · unfold runLimits
          split_ifs <;> decide

/-- Every item of `SendTree` fits its extra field (R187, R188). -/
theorem treeItems_fit (lens : List Nat) : ∀ i ∈ treeItems lens, i.fits := by
  refine treeItemsFrom_fit lens none 0 _ (fun cur hcur => ?_) ?_
  · simp [hcur, limitsFor]
  · split_ifs <;> decide

/-- A reversal has no bit at or above its width (R11). -/
theorem rev_toNat_lt (v : Word) {n : Nat} (hn : n ≤ 32) : (rev v n).toNat < 2 ^ n := by
  refine Nat.lt_pow_two_of_testBit _ fun i hi => ?_
  have := getLsbD_rev v n hn i
  simpa [BitVec.getLsbD, Nat.not_lt.2 hi] using this

theorem codeField_toNat_lt (o : CodeOrder) {code : Word} {len : Nat} (hlen : len ≤ 32) (h : code.toNat < 2 ^ len) :
    (codeField o code len).toNat < 2 ^ len := by
  cases o with
  | reversed => exact h
  | canonical => exact rev_toNat_lt code hlen

end Sys2Proof.Machine
end

section
/-! PROOFS. What the emitting operations keep when they go on: an accumulator in the form of R34, and output counters
within the buffer (R131, R133). -/

namespace Sys2Proof.Machine

/-- The output counters are in range: `op` within the buffer, and the block's bytes part of the output (R32, R33). -/
def OutBounded (s : State) : Prop := s.op.toNat ≤ s.cfg.outBytes.toNat ∧ s.blkOut.toNat ≤ s.op.toNat

/-- The state of the bit-packer between two operations of a block. -/
def Buffered (s : State) : Prop := Packed s ∧ OutBounded s

/-- An operation that keeps the bit-packer's form when it goes on. -/
def Keeps (k : State → Act) : Prop := ∀ s t : State, Buffered s → k s = .ok t → Buffered t

theorem keeps_ok : Keeps Except.ok := fun _ _ hb h => by cases h; exact hb

theorem Keeps.andThen {f g : State → Act} (hf : Keeps f) (hg : Keeps g) : Keeps fun s => andThen (f s) g := by
  intro s t hb h
  obtain ⟨u, hu, hut⟩ := andThen_eq_ok.1 h
  exact hg u t (hf s u hb hu) hut

/-- A state's action that ends with a `goto`: it goes on with the bit-packer in form, or has raised. -/
theorem Keeps.finish_goto {k : State → Act} (hk : Keeps k) {s : State} {codes : FaultCode → Prop}
    (hspec : EmitSpec s (k s) codes) (hb : Buffered s) (x : St) :
    (finish (Machine.andThen (k s) fun t => .ok (goto x t))).st = .fault ∨
      Buffered (finish (Machine.andThen (k s) fun t => .ok (goto x t))) := by
  cases hks : k s with
  | ok t => exact .inr (hk s t hb hks)
  | error t =>
    obtain ⟨u, c, rfl, -⟩ := hspec.error t hks
    exact .inl rfl

/-- Below another 32-bit value, adding 1 does not wrap (R11). -/
theorem toNat_add_one {x y : Word} (h : x.toNat < y.toNat) : (x + 1).toNat = x.toNat + 1 := by
  have hlt : x.toNat + (1 : Word).toNat < 2 ^ 32 := Nat.lt_of_le_of_lt h y.isLt
  exact BitVec.toNat_add_of_lt hlt

theorem outByte_ok {b : Byte} {s t : State} (h : outByte b s = .ok t) :
    s.op.toNat < s.cfg.outBytes.toNat ∧ t = emitted b s := by
  rw [outByte_eq] at h
  split_ifs at h with hroom
  cases h
  exact ⟨hroom, rfl⟩

theorem OutBounded.emitted {s : State} (h : OutBounded s) (hroom : s.op.toNat < s.cfg.outBytes.toNat) (b : Byte) :
    OutBounded (emitted b s) := by
  obtain ⟨-, hblk⟩ := h
  have hop := toNat_add_one hroom
  have hout : (s.blkOut + 1).toNat = s.blkOut.toNat + 1 := toNat_add_one (hblk.trans_lt hroom)
  refine ⟨?_, ?_⟩
  · show (s.op + 1).toNat ≤ s.cfg.outBytes.toNat
    omega
  · show (s.blkOut + 1).toNat ≤ (s.op + 1).toNat
    omega

theorem keeps_outByte (b : Byte) : Keeps (outByte b) := by
  intro s t hb h
  obtain ⟨hroom, rfl⟩ := outByte_ok h
  exact ⟨hb.1, hb.2.emitted hroom b⟩

/-- `k` rounds of the loop of `PutBits` take `8 k` bits off the pending ones (R130). -/
theorem drain_ok {k : Nat} {s t : State} (h : drain k s = .ok t) (hk : 8 * k ≤ s.nbits.toNat)
    (hacc : s.acc.toNat < 2 ^ s.nbits.toNat) (ho : OutBounded s) :
    t.nbits.toNat = s.nbits.toNat - 8 * k ∧ t.acc.toNat < 2 ^ t.nbits.toNat ∧ OutBounded t := by
  induction k generalizing s with
  | zero => cases h; exact ⟨rfl, hacc, ho⟩
  | succ k ih =>
    obtain ⟨u, hu, hut⟩ := andThen_eq_ok.1 h
    obtain ⟨hroom, rfl⟩ := outByte_ok hu
    have hn : (s.nbits - 8).toNat = s.nbits.toNat - 8 :=
      BitVec.toNat_sub_of_le (show (8 : BitVec 5).toNat ≤ s.nbits.toNat by show 8 ≤ _; omega)
    have ha : (s.acc >>> 8).toNat < 2 ^ (s.nbits - 8).toNat := by
      rw [hn, BitVec.toNat_ushiftRight, Nat.shiftRight_eq_div_pow]
      refine Nat.div_lt_of_lt_mul ?_
      rw [← pow_add]
      convert hacc using 2
      omega
    obtain ⟨h1, h2, h3⟩ := ih hut (show 8 * k ≤ (s.nbits - 8).toNat by omega) ha (ho.emitted hroom (s.acc.setWidth 8))
    refine ⟨?_, h2, h3⟩
    rw [h1]
    show (s.nbits - 8).toNat - 8 * k = _
    omega

/-- The bits of a field that fits lie just above the pending ones (R130). -/
theorem appendBits_acc_lt {v : Word} {n : Nat} {s : State} (hp : Packed s) (hn : n ≤ 16) (hv : v.toNat < 2 ^ n) :
    (appendBits v n s).acc.toNat < 2 ^ (s.nbits.toNat + n) := by
  obtain ⟨-, hacc⟩ := hp
  rw [appendBits_acc, BitVec.toNat_or, BitVec.toNat_shiftLeft, Nat.shiftLeft_eq]
  refine Nat.or_lt_two_pow (hacc.trans_le (Nat.pow_le_pow_right (by decide) (by omega))) ?_
  refine (Nat.mod_le _ _).trans_lt ?_
  rw [pow_add, mul_comm]
  exact Nat.mul_lt_mul_of_pos_left hv (Nat.two_pow_pos _)

theorem appendBits_nbits_toNat {v : Word} {n : Nat} {s : State} (hp : Packed s) (hn : n ≤ 16) :
    (appendBits v n s).nbits.toNat = s.nbits.toNat + n := by
  have := hp.1
  rw [appendBits_nbits, BitVec.toNat_add, BitVec.toNat_ofNat]
  omega

theorem keeps_putBits {v : Word} {n : Nat} (hn : n ≤ 16) (hv : v.toNat < 2 ^ n) : Keeps (putBits v n) := by
  intro s t hb h
  obtain ⟨hp, ho⟩ := hb
  have hnb := appendBits_nbits_toNat (v := v) hp hn
  have hacc := appendBits_acc_lt hp hn hv
  rw [← hnb] at hacc
  obtain ⟨h1, h2, h3⟩ := drain_ok h (by rw [hnb]; omega) hacc ho
  exact ⟨⟨by omega, h2⟩, h3⟩

theorem keeps_padToByte : Keeps padToByte := by
  intro s t hb h
  unfold padToByte at h
  split_ifs at h
  · exact keeps_putBits (by omega) (Nat.two_pow_pos _) s t hb h
  · exact keeps_ok s t hb h

theorem toNat_ofNat_lt {v n : Nat} (h : v < 2 ^ n) : (BitVec.ofNat 32 v).toNat < 2 ^ n := by
  rw [BitVec.toNat_ofNat]
  exact (Nat.mod_le _ _).trans_lt h

theorem keeps_putExtra {v e : Nat} (he : e ≤ 16) (hv : v < 2 ^ e) : Keeps (putExtra v e) := by
  intro s t hb h
  unfold putExtra at h
  split_ifs at h
  · exact keeps_ok s t hb h
  · exact keeps_putBits he (toNat_ofNat_lt hv) s t hb h

/-- `EmitCode` checks what it hands to `PutBits` (R134). -/
theorem keeps_emitCode (tb : Table) (sym : Nat) : Keeps (emitCode tb sym) := by
  intro s t hb h
  unfold emitCode at h
  split at h
  · cases h
  · rename_i len v hl
    obtain ⟨-, rfl, -, hmax, hcode, -⟩ := lookupCode_ok hl
    have h15 : tb.maxLen ≤ 15 := by cases tb <;> decide
    exact keeps_putBits (by omega) (codeField_toNat_lt _ (by omega) hcode) s t hb h

theorem keeps_putClen (sym : Nat) : Keeps (putClen sym) := by
  intro s t hb h
  unfold putClen at h
  split at h
  · cases h
  · split_ifs at h with hmax
    exact keeps_putBits (by decide) (lt_of_le_of_lt (Nat.not_lt.1 hmax) (by decide)) s t hb h

theorem keeps_putClens (l : List Nat) : Keeps (putClens l) := by
  induction l with
  | nil => exact keeps_ok
  | cons sym l ih => exact (keeps_putClen sym).andThen ih

theorem keeps_putItems (l : List Item) (hl : ∀ i ∈ l, i.fits) : Keeps (putItems l) := by
  induction l with
  | nil => exact keeps_ok
  | cons i l ih =>
    obtain ⟨hbits, hextra⟩ := hl i List.mem_cons_self
    exact ((keeps_emitCode .bl i.sym).andThen (keeps_putBits hbits (toNat_ofNat_lt hextra))).andThen
      (ih fun j hj => hl j (List.mem_cons_of_mem i hj))

theorem keeps_sendTree (tb : Table) (n : Nat) : Keeps (sendTree tb n) := by
  intro s t hb h
  unfold sendTree at h
  split at h
  · cases h
  · exact keeps_putItems _ (treeItems_fit _) s t hb h

theorem keeps_flushSync : Keeps flushSync :=
  (keeps_putBits (by decide) (by decide)).andThen <| keeps_padToByte.andThen <| (keeps_outByte _).andThen <|
    (keeps_outByte _).andThen <| (keeps_outByte _).andThen (keeps_outByte _)

theorem keeps_flushBlock : Keeps flushBlock := by
  intro s t hb h
  unfold flushBlock at h
  split_ifs at h
  · exact keeps_flushSync s t hb h
  · exact keeps_padToByte s t hb h

/-- The ranges of the header latch (R111). -/
theorem maxCodesInRange_iff {a b c : Nat} :
    maxCodesInRange a b c = true ↔ (257 ≤ a ∧ a ≤ 286) ∧ (1 ≤ b ∧ b ≤ 30) ∧ 4 ≤ c ∧ c ≤ 19 := by
  simp only [maxCodesInRange, Bool.and_eq_true, decide_eq_true_eq]
  tauto

/-- The fields of the header fit their widths when the latch is in range (R180). -/
theorem hdrFixed_buffered {s : State} (hw : Arrays.wf s.mem = true) (hb : Buffered s)
    (hm : maxCodesInRange s.m0.toNat s.m1.toNat s.m2.toNat = true) :
    (hdrFixed s).st = .fault ∨ Buffered (hdrFixed s) := by
  obtain ⟨⟨-, h0⟩, ⟨-, h1⟩, -, h2⟩ := maxCodesInRange_iff.1 hm
  have hbf : ((2#32 <<< 1) ||| s.bfinal.zeroExtend 32).toNat < 2 ^ 3 := by
    generalize s.bfinal = b
    revert b
    decide
  have hk := (keeps_putBits (by decide) hbf).andThen <|
    (keeps_putBits (n := 5) (by decide) (toNat_ofNat_lt (v := s.m0.toNat - 257) (by omega))).andThen <|
      (keeps_putBits (n := 5) (by decide) (toNat_ofNat_lt (v := s.m1.toNat - 1) (by omega))).andThen <|
        keeps_putBits (n := 4) (by decide) (toNat_ofNat_lt (v := s.m2.toNat - 4) (by omega))
  have hspec := (putBits_spec ((2#32 <<< 1) ||| s.bfinal.zeroExtend 32) 3 s hw).bind fun t _ _ ht =>
    (putBits_spec (BitVec.ofNat 32 (s.m0.toNat - 257)) 5 t ht).bind fun t _ _ ht =>
      (putBits_spec (BitVec.ofNat 32 (s.m1.toNat - 1)) 5 t ht).bind fun t _ _ ht =>
        putBits_spec (BitVec.ofNat 32 (s.m2.toNat - 4)) 4 t ht
  have := hk.finish_goto hspec hb .hdrClen
  simpa only [hdrFixed, andThen_assoc] using this

theorem hdrTree_buffered {s : State} (hw : Arrays.wf s.mem = true) (hb : Buffered s) :
    (hdrTree s).st = .fault ∨ Buffered (hdrTree s) := by
  have hdist : Keeps fun t => sendTree .dist t.m1.toNat t := fun t => keeps_sendTree .dist t.m1.toNat t
  have hspec := (sendTree_spec .lit s.m0.toNat s hw).bind fun t _ _ ht => sendTree_spec .dist t.m1.toNat t ht
  have := ((keeps_sendTree .lit s.m0.toNat).andThen hdist).finish_goto hspec hb .writeToken
  simpa only [hdrTree, andThen_assoc] using this

end Sys2Proof.Machine
end

section
/-! PROOFS. The invariant by kind of state: idle, faulted, at a block's start, or at work on a block. It holds after
reset (O50), and every step of the core and of the host keeps it (O51). -/

namespace Sys2Proof.Machine

/-! ## What the invariant asks of each kind of state -/

theorem inv_of_idle {s : State} (hst : s.st = .idle) (hf : s.fault = none) (hw : Arrays.wf s.mem = true) : Inv s where
  memCanonical := hw
  faultState := by simp [hst, hf]
  doneIdle _ := hst
  packed := by simp [hst, St.inBlock]
  counters := by simp [hst, St.busy, St.inBlock]
  block := by simp [hst, St.inBlock]
  moreInput := by simp [hst]
  headerAligned := by simp [hst]
  matchLatch := by simp [hst, St.inMatch]
  lengthCode := by simp [hst]
  distanceCode := by simp [hst]
  blockEnd := by simp [hst]

/-- A raise keeps the invariant wherever a running invocation makes it (R271). -/
theorem inv_raise {s : State} (hd : s.done = false) (hw : Arrays.wf s.mem = true) (c : FaultCode) :
    Inv (raise c s) where
  memCanonical := hw
  faultState := by simp
  doneIdle := by simp [hd]
  packed := by simp [St.inBlock]
  counters := by simp [St.busy, St.inBlock]
  block := by simp [St.inBlock]
  moreInput := by simp
  headerAligned := by simp
  matchLatch := by simp [St.inMatch]
  lengthCode := by simp
  distanceCode := by simp
  blockEnd := by simp

theorem inv_of_blkStart {s : State} (hst : s.st = .blkStart) (hf : s.fault = none) (hd : s.done = false)
    (hw : Arrays.wf s.mem = true)
    (hc : s.tp.toNat ≤ s.cfg.tokWords.toNat ∧ s.op.toNat ≤ s.cfg.outBytes.toNat ∧
      s.blk.toNat ≤ s.cfg.maxBlocks.toNat ∧ s.consumed.toNat ≤ s.latInputSize.toNat)
    (hmore : s.consumed.toNat < s.latInputSize.toNat) : Inv s where
  memCanonical := hw
  faultState := by simp [hst, hf]
  doneIdle := by simp [hd]
  packed := by simp [hst, St.inBlock]
  counters _ := hc
  block := by simp [hst, St.inBlock]
  moreInput _ := hmore
  headerAligned := by simp [hst]
  matchLatch := by simp [hst, St.inMatch]
  lengthCode := by simp [hst]
  distanceCode := by simp [hst]
  blockEnd := by simp [hst]

/-- The part of the invariant that every state of the work on a block meets, whatever `st` names. -/
structure Working (s : State) : Prop where
  memCanonical : Arrays.wf s.mem = true
  noFault : s.fault = none
  notDone : s.done = false
  buffered : Buffered s
  tokens : s.tp.toNat ≤ s.cfg.tokWords.toNat
  input : s.consumed.toNat + s.blkRem.toNat ≤ s.latInputSize.toNat
  blockIndex : s.blk.toNat < s.cfg.maxBlocks.toNat
  maxCodes : maxCodesInRange s.m0.toNat s.m1.toNat s.m2.toNat = true

/-- The part of the invariant that the reader named by state `x` relies on. -/
structure Ready (x : St) (s : State) : Prop where
  headerAligned : x = .hdrFixed → s.nbits = 0 ∧ s.blkOut = 0
  matchLatch : x.inMatch = true → 3 ≤ s.tLen.toNat ∧ s.tOff.toNat ≤ 32767
  lengthCode : x = .mlExtra → s.lc.toNat = lcode s.tLen.toNat
  distanceCode : x = .distExtra → s.dc.toNat = dcode s.tOff.toNat
  blockEnd : x = .sendOutput → s.blkRem = 0

/-- A state of the block that reads no latch and has no start condition. -/
theorem ready_of_plain {x : St} (hx : x = .hdrClen ∨ x = .hdrTree ∨ x = .writeToken ∨ x = .litRep) (s : State) :
    Ready x s := by
  rcases hx with rfl | rfl | rfl | rfl <;> exact
    { headerAligned := nofun, matchLatch := nofun, lengthCode := nofun, distanceCode := nofun, blockEnd := nofun }

theorem Inv.notDone {s : State} (h : Inv s) (hst : s.st ≠ .idle) : s.done = false :=
  Bool.eq_false_iff.2 (mt h.doneIdle hst)

theorem Inv.working {s : State} (h : Inv s) (hst : s.st.inBlock = true) : Working s where
  memCanonical := h.memCanonical
  noFault := h.faultState.2 fun hs => by simp [hs, St.inBlock] at hst
  notDone := h.notDone fun hs => by simp [hs, St.inBlock] at hst
  buffered := ⟨h.packed hst, (h.counters (by simp [St.busy, hst])).2.1, (h.block hst).2.1⟩
  tokens := (h.counters (by simp [St.busy, hst])).1
  input := (h.block hst).1
  blockIndex := (h.block hst).2.2.1
  maxCodes := (h.block hst).2.2.2

theorem Inv.ready {s : State} (h : Inv s) : Ready s.st s :=
  ⟨h.headerAligned, h.matchLatch, h.lengthCode, h.distanceCode, h.blockEnd⟩

theorem Working.inv {s : State} (h : Working s) (hst : s.st.inBlock = true) (hr : Ready s.st s) : Inv s where
  memCanonical := h.memCanonical
  faultState := by
    have : s.st ≠ .fault := fun hs => by simp [hs, St.inBlock] at hst
    simp [h.noFault, this]
  doneIdle := by simp [h.notDone]
  packed _ := h.buffered.1
  counters _ := ⟨h.tokens, h.buffered.2.1, h.blockIndex.le, (Nat.le_add_right _ _).trans h.input⟩
  block _ := ⟨h.input, h.buffered.2.2, h.blockIndex, h.maxCodes⟩
  moreInput hs := by simp [hs, St.inBlock] at hst
  headerAligned := hr.headerAligned
  matchLatch := hr.matchLatch
  lengthCode := hr.lengthCode
  distanceCode := hr.distanceCode
  blockEnd := hr.blockEnd

/-! ## What keeps a block's work going -/

/-- `Working` reads neither `st` nor the latches. -/
theorem Working.relatch {s : State} (h : Working s) (x : St) (lit len : Byte) (off : BitVec 16) (lc dc : BitVec 5) :
    Working { s with st := x, tLit := lit, tLen := len, tOff := off, lc := lc, dc := dc } :=
  ⟨h.memCanonical, h.noFault, h.notDone, h.buffered, h.tokens, h.input, h.blockIndex, h.maxCodes⟩

theorem Working.goto {s : State} (h : Working s) (x : St) : Working (goto x s) :=
  h.relatch x s.tLit s.tLen s.tOff s.lc s.dc

theorem toNat_add_one_le {x y : Word} (h : x.toNat < y.toNat) : (x + 1).toNat ≤ y.toNat :=
  (toNat_add_one h).trans_le h

theorem Working.nextToken {s : State} (h : Working s) (hp : s.tp.toNat < s.cfg.tokWords.toNat) :
    Working (nextToken s) :=
  ⟨h.memCanonical, h.noFault, h.notDone, h.buffered, toNat_add_one_le hp, h.input, h.blockIndex, h.maxCodes⟩

/-- A token's bytes move from `blk_rem` to `consumed` (R155). -/
theorem Working.countBytes {s : State} (h : Working s) {n : Word} (hn : n.toNat ≤ s.blkRem.toNat) :
    Working (countBytes n s) := by
  have hin := h.input
  have hlat := s.latInputSize.isLt
  have hrem : (s.blkRem - n).toNat = s.blkRem.toNat - n.toNat := BitVec.toNat_sub_of_le hn
  have hcon : (s.consumed + n).toNat = s.consumed.toNat + n.toNat := by
    rw [BitVec.toNat_add, Nat.mod_eq_of_lt (by omega)]
  have hsum : (s.consumed + n).toNat + (s.blkRem - n).toNat ≤ s.latInputSize.toNat := by omega
  exact ⟨h.memCanonical, h.noFault, h.notDone, h.buffered, h.tokens, hsum, h.blockIndex, h.maxCodes⟩

theorem Working.emit {s t : State} (h : Working s) (he : EmitsOnly s t) (hw : Arrays.wf t.mem = true)
    (hb : Buffered t) : Working t := by
  obtain ⟨heq, -, -⟩ := he
  refine ⟨hw, ?_, ?_, hb, ?_, ?_, ?_, ?_⟩ <;> rw [heq]
  · exact h.noFault
  · exact h.notDone
  · exact h.tokens
  · exact h.input
  · exact h.blockIndex
  · exact h.maxCodes

/-- The latches are read from a state that an emission leaves, unless it is the aligned header. -/
theorem Ready.emit {x : St} {s t : State} (h : Ready x s) (he : EmitsOnly s t) (hx : x ≠ .hdrFixed) : Ready x t := by
  obtain ⟨heq, -, -⟩ := he
  refine ⟨fun hh => absurd hh hx, ?_, ?_, ?_, ?_⟩ <;> rw [heq]
  · exact h.matchLatch
  · exact h.lengthCode
  · exact h.distanceCode
  · exact h.blockEnd

/-- An emitting state's step keeps the invariant: its next state finds the bit-packer in form and its latches ready, or
it has raised. -/
theorem Working.emitStep {s t : State} {next : St} (h : Working s) (hstep : EmitStep s t next)
    (hb : t.st = .fault ∨ Buffered t) (hin : next.inBlock = true) (hx : next ≠ .hdrFixed) (hr : Ready next s) :
    Inv t := by
  rcases hstep with ⟨he, hst, hw⟩ | ⟨u, c, rfl, -, he, hw⟩
  · have hbt : Buffered t := hb.resolve_left fun hf => by simp [← hst, hf, St.inBlock] at hin
    exact (h.emit he hw hbt).inv (hst ▸ hin) (hst ▸ hr.emit he hx)
  · exact inv_raise (by rw [he.1]; exact h.notDone) hw c

/-! ## The core's steps -/

theorem inv_blkStart {s : State} (h : Inv s) (hs : s.st = .blkStart) : Inv (blkStart s) := by
  have hd := h.notDone (by simp [hs])
  rcases blkStart_cases s with ⟨c, hc⟩ | ⟨bs, a, b, c, ho, -, hblk, hsize, hmax⟩
  · rw [hc]
    exact inv_raise hd h.memCanonical c
  · obtain ⟨htp, hop, -, -⟩ := h.counters (by simp [hs, St.busy])
    have hin : s.consumed.toNat + bs.toNat ≤ s.latInputSize.toNat := by
      simp only [badBlockSize, Bool.or_eq_false_iff, decide_eq_false_iff_not] at hsize
      exact Nat.not_lt.1 hsize.2
    have hlatch : maxCodesInRange (a.setWidth 9).toNat (b.setWidth 5).toNat (c.setWidth 5).toNat = true := by
      obtain ⟨⟨-, ha⟩, ⟨-, hb⟩, -, hc⟩ := maxCodesInRange_iff.1 hmax
      rw [BitVec.toNat_setWidth, BitVec.toNat_setWidth, BitVec.toNat_setWidth, Nat.mod_eq_of_lt (by omega),
        Nat.mod_eq_of_lt (by omega), Nat.mod_eq_of_lt (by omega)]
      exact hmax
    have hwork : Working (openBlock bs a b c s) :=
      ⟨h.memCanonical, h.faultState.2 (by simp [hs]), hd, ⟨⟨Nat.zero_le 7, Nat.one_pos⟩, hop, Nat.zero_le _⟩, htp, hin,
        hblk, hlatch⟩
    rw [ho]
    exact hwork.inv rfl
      { headerAligned := fun _ => ⟨rfl, rfl⟩, matchLatch := nofun, lengthCode := nofun, distanceCode := nofun,
        blockEnd := nofun }

/-- No word decodes to a match shorter than 3 (R91). -/
theorem three_le_of_decodeToken {w : Word} {len : Byte} {off : BitVec 16} (h : decodeToken w = .matchTok len off) :
    3 ≤ len.toNat := by
  unfold decodeToken at h
  split_ifs at h with h0 h1 h2
  cases h
  have n0 : (lenField w).toNat ≠ 0 := fun hn => h0 (BitVec.eq_of_toNat_eq hn)
  have n1 : (lenField w).toNat ≠ 1 := fun hn => h1 (BitVec.eq_of_toNat_eq hn)
  have n2 : (lenField w).toNat ≠ 2 := fun hn => h2 (BitVec.eq_of_toNat_eq hn)
  omega

theorem Working.acceptLit {s : State} (h : Working s) (hp : s.tp.toNat < s.cfg.tokWords.toNat) (hb : s.blkRem ≠ 0#32)
    (b : Byte) : Inv (acceptLit b s) := by
  have hone : (1 : Word).toNat ≤ s.blkRem.toNat := by
    have : s.blkRem.toNat ≠ 0 := fun hn => hb (BitVec.eq_of_toNat_eq hn)
    show 1 ≤ _
    omega
  have hread := (h.nextToken hp).relatch s.st b s.tLen s.tOff s.lc s.dc
  exact ((hread.countBytes hone).goto .litRep).inv rfl (ready_of_plain (by simp) _)

theorem Working.acceptMatch {s : State} (h : Working s) (hp : s.tp.toNat < s.cfg.tokWords.toNat) {len : Byte}
    (hlen : 3 ≤ len.toNat) (off : BitVec 16) : Inv (acceptMatch len off s) := by
  rcases acceptMatch_cases len off s with ⟨hoff, hrem, -, heq⟩ | ⟨c, heq⟩
  · have hn : (len.zeroExtend 32).toNat ≤ s.blkRem.toNat := by
      rwa [BitVec.toNat_setWidth_of_le (by decide)]
    have hread := (h.nextToken hp).relatch s.st s.tLit len off s.lc s.dc
    rw [heq]
    exact ((hread.countBytes hn).goto .mlDistRep).inv rfl
      { headerAligned := nofun, matchLatch := fun _ => ⟨hlen, hoff⟩, lengthCode := nofun, distanceCode := nofun,
        blockEnd := nofun }
  · rw [heq]
    exact inv_raise (s := Machine.nextToken s) h.notDone h.memCanonical c

theorem inv_writeToken {s : State} (h : Working s) : Inv (writeToken s) := by
  unfold writeToken
  split_ifs with hb hp
  · exact (h.goto .sendOutput).inv rfl
      { headerAligned := nofun, matchLatch := nofun, lengthCode := nofun, distanceCode := nofun,
        blockEnd := fun _ => hb }
  · cases hd : decodeToken (element s.mem .tok s.tp.toNat) with
    | lit b => exact h.acceptLit hp hb b
    | matchTok len off => exact h.acceptMatch hp (three_le_of_decodeToken hd) off
    | _ => exact inv_raise (s := nextToken s) h.notDone h.memCanonical .tokenRsv
  · exact inv_raise h.notDone h.memCanonical .tokenOverrun

theorem inv_mlDistRep {s : State} (h : Working s) (hr : Ready .mlDistRep s) : Inv (mlDistRep s) := by
  have hm := hr.matchLatch rfl
  have hlc : (BitVec.ofNat 5 (lcode s.tLen.toNat)).toNat = lcode s.tLen.toNat := by
    rw [BitVec.toNat_ofNat, Nat.mod_eq_of_lt (lengthExtra_fits hm.1 s.tLen.isLt).1]
  have hlatched := h.relatch s.st s.tLit s.tLen s.tOff (BitVec.ofNat 5 (lcode s.tLen.toNat)) s.dc
  exact hlatched.emitStep (mlDistRep_step s h.memCanonical)
    ((keeps_emitCode .lit _).finish_goto (emitCode_spec _ _ _ hlatched.memCanonical) hlatched.buffered .mlExtra) rfl
    nofun
    { headerAligned := nofun, matchLatch := fun _ => hm, lengthCode := fun _ => hlc, distanceCode := nofun,
      blockEnd := nofun }

theorem inv_mlExtra {s : State} (h : Working s) (hr : Ready .mlExtra s) : Inv (mlExtra s) := by
  have hm := hr.matchLatch rfl
  obtain ⟨-, hv, he⟩ := lengthExtra_fits hm.1 s.tLen.isLt
  rw [← hr.lengthCode rfl] at hv he
  exact h.emitStep (mlExtra_step s h.memCanonical)
    ((keeps_putExtra he hv).finish_goto (putExtra_spec _ _ s h.memCanonical) h.buffered .distRep) rfl nofun
    { headerAligned := nofun, matchLatch := fun _ => hm, lengthCode := nofun, distanceCode := nofun, blockEnd := nofun }

theorem inv_distRep {s : State} (h : Working s) (hr : Ready .distRep s) : Inv (distRep s) := by
  have hm := hr.matchLatch rfl
  have hdc : (BitVec.ofNat 5 (dcode s.tOff.toNat)).toNat = dcode s.tOff.toNat := by
    rw [BitVec.toNat_ofNat, Nat.mod_eq_of_lt (distanceExtra_fits hm.2).1]
  have hlatched := h.relatch s.st s.tLit s.tLen s.tOff s.lc (BitVec.ofNat 5 (dcode s.tOff.toNat))
  exact hlatched.emitStep (distRep_step s h.memCanonical)
    ((keeps_emitCode .dist _).finish_goto (emitCode_spec _ _ _ hlatched.memCanonical) hlatched.buffered .distExtra) rfl
    nofun
    { headerAligned := nofun, matchLatch := fun _ => hm, lengthCode := nofun, distanceCode := fun _ => hdc,
      blockEnd := nofun }

theorem inv_distExtra {s : State} (h : Working s) (hr : Ready .distExtra s) : Inv (distExtra s) := by
  obtain ⟨-, hv, he⟩ := distanceExtra_fits (hr.matchLatch rfl).2
  rw [← hr.distanceCode rfl] at hv he
  exact h.emitStep (distExtra_step s h.memCanonical)
    ((keeps_putExtra he hv).finish_goto (putExtra_spec _ _ s h.memCanonical) h.buffered .writeToken) rfl nofun
    (ready_of_plain (by simp) s)

/-- After the block's size is recorded the input is used up, or another block begins with input left (R257). -/
theorem inv_nextOrDone {s : State} (hw : Arrays.wf s.mem = true) (hf : s.fault = none) (hd : s.done = false)
    (hc : s.tp.toNat ≤ s.cfg.tokWords.toNat ∧ s.op.toNat ≤ s.cfg.outBytes.toNat ∧
      s.blk.toNat ≤ s.cfg.maxBlocks.toNat ∧ s.consumed.toNat ≤ s.latInputSize.toNat) : Inv (nextOrDone s) := by
  unfold nextOrDone
  split_ifs with hend
  · exact inv_of_idle rfl hf hw
  · have hne : s.consumed.toNat ≠ s.latInputSize.toNat := mt BitVec.eq_of_toNat_eq hend
    exact inv_of_blkStart rfl hf hd hw hc (lt_of_le_of_ne hc.2.2.2 hne)

theorem inv_sendOutput {s : State} (h : Working s) : Inv (sendOutput s) := by
  rcases sendOutput_cases s h.memCanonical with ⟨u, he, hw, hblk, hact, heq⟩ | ⟨u, c, heq, -, he, hw⟩
  · have hbu : Buffered u := ((keeps_emitCode .lit eobSymbol).andThen keeps_flushBlock) s u h.buffered hact
    have hu : Working u := h.emit he hw hbu
    rw [heq]
    exact inv_nextOrDone (wf_withElement _ _ _ _ hw) hu.noFault hu.notDone
      ⟨hu.tokens, hbu.2.1, toNat_add_one_le hblk, (Nat.le_add_right _ _).trans hu.input⟩
  · rw [heq]
    exact inv_raise (by rw [he.1]; exact h.notDone) hw c

/-- Every action of the core keeps the invariant. -/
theorem inv_coreStep {s : State} (h : Inv s) : Inv (coreStep s) := by
  have hr := h.ready
  have hwork := h.working
  have hw := h.memCanonical
  unfold coreStep
  cases hs : s.st <;> rw [hs] at hr hwork
  case idle => exact h
  case fault => exact h
  case blkStart => exact inv_blkStart h hs
  case hdrFixed =>
    have hk := hwork rfl
    exact hk.emitStep (hdrFixed_step s hw) (hdrFixed_buffered hw hk.buffered hk.maxCodes) rfl nofun
      (ready_of_plain (by simp) s)
  case hdrClen =>
    have hk := hwork rfl
    exact hk.emitStep (hdrClen_step s hw)
      ((keeps_putClens _).finish_goto (putClens_spec _ s hw) hk.buffered .hdrTree) rfl nofun
      (ready_of_plain (by simp) s)
  case hdrTree =>
    have hk := hwork rfl
    exact hk.emitStep (hdrTree_step s hw) (hdrTree_buffered hw hk.buffered) rfl nofun (ready_of_plain (by simp) s)
  case writeToken => exact inv_writeToken (hwork rfl)
  case litRep =>
    have hk := hwork rfl
    exact hk.emitStep (litRep_step s hw)
      ((keeps_emitCode .lit _).finish_goto (emitCode_spec _ _ s hw) hk.buffered .writeToken) rfl nofun
      (ready_of_plain (by simp) s)
  case mlDistRep => exact inv_mlDistRep (hwork rfl) hr
  case mlExtra => exact inv_mlExtra (hwork rfl) hr
  case distRep => exact inv_distRep (hwork rfl) hr
  case distExtra => exact inv_distExtra (hwork rfl) hr
  case sendOutput => exact inv_sendOutput (hwork rfl)

/-! ## The host's moves -/

/-- The invariant reads no argument register, no list of moves and nothing of what the host has read, and of the memory
only its form. -/
theorem Inv.host {s : State} (h : Inv s) {m : Arrays} (hw : Arrays.wf m = true) (size kb rd : Word) (ts : List Turn)
    (n : Nat) :
    Inv { s with inputSize := size, blockSizeKb := kb, mem := m, turns := ts, hostRd := rd, drawn := n } :=
  ⟨hw, h.faultState, h.doneIdle, h.packed, h.counters, h.block, h.moreInput, h.headerAligned, h.matchLatch,
    h.lengthCode, h.distanceCode, h.blockEnd⟩

theorem Inv.withTurns {s : State} (h : Inv s) (r : List Turn) : Inv { s with turns := r } :=
  h.host h.memCanonical s.inputSize s.blockSizeKb s.hostRd r s.drawn

/-- START keeps the invariant: it is ignored, completes at once, or begins the first block (R150, R151). -/
theorem inv_start {s t : State} (h : Inv s) (ht : exec .start s = .next t) : Inv t := by
  rw [exec_start_eq] at ht
  cases ht
  split_ifs with hacc hsize
  · exact inv_of_idle hacc.1 hacc.2 h.memCanonical
  · have hpos : 0 < s.inputSize.toNat :=
      Nat.pos_of_ne_zero fun hn => hsize (BitVec.eq_of_toNat_eq hn)
    exact inv_of_blkStart rfl hacc.2 rfl h.memCanonical
      ⟨Nat.zero_le _, Nat.zero_le _, Nat.zero_le _, Nat.zero_le _⟩ hpos
  · exact h

theorem inv_ctrlWrite {s : State} (h : Inv s) (off : Nat) (v : Word) : Inv (ctrlWrite off v s) := by
  unfold ctrlWrite
  split_ifs
  · exact h.host h.memCanonical v s.blockSizeKb s.hostRd s.turns s.drawn
  · exact h.host h.memCanonical s.inputSize v s.hostRd s.turns s.drawn
  · exact h

theorem inv_hostReads {s : State} (h : Inv s) (v : Word) : Inv (hostReads v s) :=
  h.host h.memCanonical s.inputSize s.blockSizeKb v s.turns s.drawn

theorem inv_hostWriteCtrl {s t : State} {off width : Nat} {v : Word} (h : Inv s)
    (ht : perform (hostWriteCtrl off width v s) = .next t) : Inv t := by
  unfold hostWriteCtrl decodeCtrl at ht
  split_ifs at ht
  · cases ht
  · cases ht
  · exact inv_start h ht
  · cases ht
    exact h
  · cases ht
    exact inv_ctrlWrite h off v

theorem inv_hostReadCtrl {s t : State} {off width : Nat} (h : Inv s)
    (ht : perform (hostReadCtrl off width s) = .next t) : Inv t := by
  unfold hostReadCtrl at ht
  split_ifs at ht
  · cases ht
  · cases ht
  · cases ht
    exact inv_hostReads h _

theorem inv_hostReadArray {s t : State} {sp : Space} {i : Nat} (h : Inv s) (ht : hostReadArray sp i s = .next t) :
    Inv t := by
  unfold hostReadArray at ht
  split_ifs at ht <;> cases ht
  · exact inv_hostReads h _
  · exact h.host h.memCanonical s.inputSize s.blockSizeKb _ s.turns (s.drawn + 1)
  · exact inv_hostReads h _

theorem inv_hostWriteArray {s t : State} {sp : Space} {i : Nat} {v : Word} (h : Inv s)
    (ht : hostWriteArray sp i v s = .next t) : Inv t := by
  unfold hostWriteArray at ht
  split_ifs at ht
  cases ht
  exact h.host (wf_withElement _ _ _ _ h.memCanonical) s.inputSize s.blockSizeKb s.hostRd s.turns s.drawn

theorem inv_hostMove {s t : State} (h : Inv s) (a : HostAct) (ht : perform (hostMove a s) = .next t) : Inv t := by
  cases a with
  | writeCtrl off width v => exact inv_hostWriteCtrl h ht
  | readCtrl off width => exact inv_hostReadCtrl h ht
  | writeArray sp i v => exact inv_hostWriteArray h ht
  | readArray sp i => exact inv_hostReadArray h ht
  | reset =>
    cases ht
    exact inv_of_idle rfl rfl h.memCanonical

/-- A turn of the core keeps the invariant, faulted or not. -/
theorem inv_coreMove {s t : State} (h : Inv s) (ht : perform (coreMove s) = .next t) : Inv t := by
  by_cases hf : s.fault = none
  · rw [perform_coreMove hf] at ht
    cases ht
    exact inv_coreStep h
  · rw [perform_coreMove_faulted hf] at ht
    cases ht
    exact h

/-- Settles O50: the reset state is idle and its arrays are empty. -/
theorem resetSatisfiesInvariant : Obligations.ResetSatisfiesInvariant := inv_of_idle rfl rfl rfl

/-- Settles O51, by the mover: a core step, or a listed turn of the core or the host. -/
theorem stepKeepsInvariant : Obligations.StepKeepsInvariant := by
  intro s t h hstep
  cases hturns : s.turns with
  | nil =>
    obtain ⟨-, -, rfl⟩ := eq_coreStep_of_step hturns hstep
    exact inv_coreStep h
  | cons turn rest =>
    cases turn with
    | core =>
      rw [step_listed_core hturns] at hstep
      exact inv_coreMove (h.withTurns rest) hstep
    | host a =>
      rw [step_listed_host hturns] at hstep
      exact inv_hostMove (h.withTurns rest) a hstep

end Sys2Proof.Machine
end

section
/-! PROOFS. The token pointer: `WRITE_TOKEN` moves it, and no other action (O53). -/

namespace Sys2Proof.Machine

theorem EmitsOnly.tp {s t : State} (h : EmitsOnly s t) : t.tp = s.tp := by rw [h.1]

theorem EmitStep.tp {s t : State} {next : St} (h : EmitStep s t next) : t.tp = s.tp := by
  rcases h with ⟨he, -⟩ | ⟨u, c, rfl, -, he, -⟩
  · exact he.tp
  · exact he.tp

theorem blkStart_tp (s : State) : (blkStart s).tp = s.tp := by
  rcases blkStart_cases s with ⟨c, h⟩ | ⟨bs, a, b, c, h, -⟩ <;> rw [h] <;> rfl

theorem nextOrDone_tp (s : State) : (nextOrDone s).tp = s.tp := by
  unfold nextOrDone
  split_ifs <;> rfl

theorem sendOutput_tp {s : State} (hw : Arrays.wf s.mem = true) : (sendOutput s).tp = s.tp := by
  rcases sendOutput_cases s hw with ⟨u, he, -, -, -, h⟩ | ⟨u, c, h, -, he, -⟩
  · rw [h, nextOrDone_tp]
    exact he.tp
  · rw [h]
    exact he.tp

theorem acceptToken_tp (i : Instr) (s : State) : (acceptToken i s).tp = s.tp + 1 := by
  cases i with
  | matchTok len off =>
    show (acceptMatch len off s).tp = s.tp + 1
    rcases acceptMatch_cases len off s with ⟨-, -, -, h⟩ | ⟨c, h⟩
    · rw [h]
    · rw [h]
      rfl
  | _ => rfl

/-- Every action but `WRITE_TOKEN` leaves the token pointer (R28). -/
theorem coreStep_tp {s : State} (hw : Arrays.wf s.mem = true) (hs : s.st ≠ .writeToken) :
    (coreStep s).tp = s.tp := by
  unfold coreStep
  cases h : s.st with
  | idle => rfl
  | fault => rfl
  | blkStart => exact blkStart_tp s
  | hdrFixed => exact (hdrFixed_step s hw).tp
  | hdrClen => exact (hdrClen_step s hw).tp
  | hdrTree => exact (hdrTree_step s hw).tp
  | writeToken => exact absurd h hs
  | litRep => exact (litRep_step s hw).tp
  | mlDistRep => exact (mlDistRep_step s hw).tp
  | mlExtra => exact (mlExtra_step s hw).tp
  | distRep => exact (distRep_step s hw).tp
  | distExtra => exact (distExtra_step s hw).tp
  | sendOutput => exact sendOutput_tp hw

/-- `WRITE_TOKEN` moves the token pointer exactly when it reads a token (R155, R156). -/
theorem writeToken_tp (s : State) :
    (writeToken s).tp = if s.blkRem ≠ 0#32 ∧ s.tp.toNat < s.cfg.tokWords.toNat then s.tp + 1 else s.tp := by
  unfold writeToken
  by_cases hb : s.blkRem = 0#32
  · rw [if_pos hb, if_neg fun h => h.1 hb]
    rfl
  · by_cases hp : s.tp.toNat < s.cfg.tokWords.toNat
    · rw [if_neg hb, if_pos hp, if_pos ⟨hb, hp⟩, acceptToken_tp]
    · rw [if_neg hb, if_neg hp, if_neg fun h => hp h.2]
      rfl

/-- Settles O53: below the capacity of `TOK` the pointer's next value is the next number. -/
theorem tokenPointerIsSequential : Obligations.TokenPointerIsSequential := by
  intro s t h hturns hstep
  obtain ⟨-, -, rfl⟩ := eq_coreStep_of_step hturns hstep
  by_cases hs : s.st = .writeToken
  · have ht : coreStep s = writeToken s := by rw [coreStep, hs]
    rw [ht, writeToken_tp]
    refine ⟨fun ⟨_, hb, hp⟩ => ?_, fun hno => if_neg fun hread => hno ⟨hs, hread⟩⟩
    rw [if_pos ⟨hb, hp⟩, toNat_add_one hp]
  · exact ⟨fun hread => absurd hread.1 hs, fun _ => coreStep_tp h.memCanonical hs⟩

end Sys2Proof.Machine
end

section
/-! PROOFS. The spaces as the host sees them: the bytes of a u32 element, and array reads and writes (O5, O45,
O46, O47). -/

namespace Sys2Proof.Machine

/-! ## Bytes of an element -/

theorem Memory.read_write (m : Memory) (a a' : Nat) (v : Byte) (h : Memory.wf m = true) :
    Memory.read (Memory.write m a v) a' = if a' = a then v else Memory.read m a' := by
  split_ifs with ha
  · rw [ha, Memory.read_write_same m a v h]
  · exact Memory.read_write_ne m v ha h

/-- Byte k of a written u32 element stands at address 4i + k (R65, log 4). -/
theorem Memory.read_writeWord_byte (m : Memory) (i : Nat) (w : Word) {k : Nat} (hk : k < 4) (h : Memory.wf m = true) :
    Memory.read (Memory.writeWord m i w) (4 * i + k) = byteOfWord w k := by
  have h1 := Memory.wf_write m (4 * i) (byteOfWord w 0) h
  have h2 := Memory.wf_write _ (4 * i + 1) (byteOfWord w 1) h1
  have h3 := Memory.wf_write _ (4 * i + 2) (byteOfWord w 2) h2
  rw [Memory.writeWord, Memory.read_write _ _ _ _ h3, Memory.read_write _ _ _ _ h2, Memory.read_write _ _ _ _ h1,
    Memory.read_write _ _ _ _ h]
  obtain rfl | rfl | rfl | rfl : k = 0 ∨ k = 1 ∨ k = 2 ∨ k = 3 := by omega
  all_goals simp

/-- Settles O5: the four bytes of a word put together again, and the element and byte that a write stores. -/
theorem tokenBytesAreLittleEndian : Obligations.TokenBytesAreLittleEndian := by
  intro w rest m i hm
  refine ⟨?_, Memory.readWord_writeWord_same m i w hm, fun k hk => Memory.read_writeWord_byte m i w hk hm⟩
  exact congrArg (fun v => Except.ok (decodeToken v, rest)) (wordOfBytes_byteOfWord w)

/-! ## Host array accesses -/

theorem step_writeArray {s : State} {rest : List Turn} {sp : Space} {i : Nat} {v : Word}
    (ht : s.turns = .host (.writeArray sp i v) :: rest) :
    step s = hostWriteArray sp i v { s with turns := rest } := step_listed_host ht

theorem step_readArray {s : State} {rest : List Turn} {sp : Space} {i : Nat}
    (ht : s.turns = .host (.readArray sp i) :: rest) :
    step s = hostReadArray sp i { s with turns := rest } := step_listed_host ht

theorem idleFlag_iff {s : State} : idleFlag s = true ↔ s.st = .idle := decide_eq_true_iff

/-- A host write of an element that exists lands exactly while `CTRL.IDLE` reads 1 (R71(e)). -/
theorem hostWriteArray_eq {s : State} {sp : Space} {i : Nat} (hi : i < capacity s.cfg sp) (v : Word) :
    hostWriteArray sp i v s =
      if s.st = .idle then .next { s with mem := withElement s.mem sp i v } else .refused .arrayAccessWhileBusy := by
  simp only [hostWriteArray, if_neg (Nat.not_le.2 hi), idleFlag_iff]

/-- A host read of a result that exists answers the element once it is ready, else a free value (R71(d)). -/
theorem hostReadArray_output {s : State} {sp : Space} {i : Nat} (hi : i < capacity s.cfg sp)
    (hsp : sp.isOutput = true) :
    hostReadArray sp i s =
      if resultReady sp i s = true then .next (hostReads (element s.mem sp i) s) else .next (hostReadsAny sp s) := by
  rw [hostReadArray, if_neg (Nat.not_le.2 hi), if_pos hsp]

/-- A host read of an input element that exists answers it exactly while `CTRL.IDLE` reads 1 (R281). -/
theorem hostReadArray_input {s : State} {sp : Space} {i : Nat} (hi : i < capacity s.cfg sp)
    (hsp : ¬ sp.isOutput = true) :
    hostReadArray sp i s =
      if s.st = .idle then .next (hostReads (element s.mem sp i) s) else .refused .arrayAccessWhileBusy := by
  simp only [hostReadArray, if_neg (Nat.not_le.2 hi), if_neg hsp, idleFlag_iff]

theorem isOutput_iff {sp : Space} : sp.isOutput = true ↔ sp = .out ∨ sp = .size := by
  cases sp <;> simp [Space.isOutput]

/-- R71(d): a result is ready once `DONE` reads 1, below `op` in `OUT` and below `blk` in `SIZE`. -/
theorem resultReady_iff {s : State} {sp : Space} {i : Nat} (hsp : sp = .out ∨ sp = .size) :
    resultReady sp i s = true ↔
      s.done = true ∧ (sp = .out → i < s.op.toNat) ∧ (sp = .size → i < s.blk.toNat) := by
  rcases hsp with rfl | rfl <;> simp [resultReady]

/-- The low 8 bits of a word, as `OUT` keeps them and as a mask (log 25). -/
theorem zeroExtend_setWidth_eq_and (v : Word) : (v.setWidth 8).zeroExtend 32 = v &&& 0xFF#32 := by
  apply BitVec.eq_of_toNat_eq
  calc ((v.setWidth 8).zeroExtend 32).toNat
      = (v.setWidth 8).toNat := BitVec.toNat_setWidth_of_le (by decide)
    _ = v.toNat % 2 ^ 8 := BitVec.toNat_setWidth 8 v
    _ = v.toNat &&& (2 ^ 8 - 1) := (Nat.and_two_pow_sub_one_eq_mod v.toNat 8).symm
    _ = (v &&& 0xFF#32).toNat := (BitVec.toNat_and v 0xFF#32).symm

/-- An element reads back as written, a value above 255 in `OUT` by its low 8 bits (R61, log 25). -/
theorem element_withElement (m : Arrays) (sp : Space) (i : Nat) (v : Word) (h : Arrays.wf m = true) :
    element (withElement m sp i v) sp i = if sp = .out then v &&& 0xFF#32 else v := by
  split_ifs with hs
  · subst hs
    rw [element_withElement_out m i v h, zeroExtend_setWidth_eq_and]
  · exact element_withElement_same m i v hs h

/-- Settles O45: a write that lands sets one element of one space and keeps the canonical form. -/
theorem hostArrayWrites : Obligations.HostArrayWrites := by
  intro s rest sp i v ht hw hi
  rw [step_writeArray ht, hostWriteArray_eq (s := { s with turns := rest }) hi]
  refine ⟨fun hbusy => if_neg hbusy, fun hidle => ⟨withElement s.mem sp i v, if_pos hidle,
    wf_withElement s.mem sp i v hw, element_withElement s.mem sp i v hw, fun sq j hne => ?_⟩⟩
  by_cases hs : sq = sp
  · subst hs
    exact element_withElement_ne s.mem v (hne.resolve_left (not_not_intro rfl)) hw
  · exact element_withElement_space_ne s.mem i j v hs

/-- Settles O46: the read is of a ready result, or draws a free value (log 12). -/
theorem hostResultReads : Obligations.HostResultReads := by
  intro s rest sp i ht hsp hi
  have hready := resultReady_iff (s := { s with turns := rest }) (i := i) hsp
  rw [step_readArray ht, hostReadArray_output (s := { s with turns := rest }) hi (isOutput_iff.2 hsp)]
  refine ⟨fun hdone hop hblk => if_pos (hready.2 ⟨hdone, hop, hblk⟩), fun hfree => ⟨_, if_neg fun hr => ?_⟩⟩
  obtain ⟨hdone, hop, hblk⟩ := hready.1 hr
  rcases hfree with hnot | ⟨ho, hle⟩ | ⟨ho, hle⟩
  · exact absurd (hdone.symm.trans hnot) (by decide)
  · exact absurd (hop ho) (Nat.not_lt.2 hle)
  · exact absurd (hblk ho) (Nat.not_lt.2 hle)

/-- Settles O47: an input space's read depends on `CTRL.IDLE` alone. -/
theorem hostInputReads : Obligations.HostInputReads := by
  intro s rest sp i ht hout hsize hi
  have hsp : ¬ sp.isOutput = true := fun h => (isOutput_iff.1 h).elim hout hsize
  rw [step_readArray ht, hostReadArray_input (s := { s with turns := rest }) hi hsp]
  exact ⟨fun hidle => if_pos hidle, fun hbusy => if_neg hbusy⟩

end Sys2Proof.Machine
end

section
/-! PROOFS. What a step writes: no step the parameters, and a core step only results (O52). -/

namespace Sys2Proof.Machine

/-! ## Core steps -/

/-- R63: t differs from s in no parameter, no input space, no byte of `OUT` outside the bytes written, in no argument
register and none of the host's own fields, and in `SIZE` only after `SEND_OUTPUT`. -/
def OnlyResultsWritten (s t : State) : Prop :=
  t.cfg = s.cfg ∧ sameInputArrays s.mem t.mem ∧ (s.st ≠ .sendOutput → t.mem.size = s.mem.size) ∧
    (∀ a, a < s.op.toNat ∨ t.op.toNat ≤ a → Memory.read t.mem.out a = Memory.read s.mem.out a) ∧
    t.inputSize = s.inputSize ∧ t.blockSizeKb = s.blockSizeKb ∧ t.hostRd = s.hostRd ∧ t.drawn = s.drawn

theorem sameInputArrays_refl (m : Arrays) : sameInputArrays m m := ⟨rfl, rfl, rfl, rfl, rfl, rfl, rfl, rfl, rfl⟩

/-- Nothing written. It serves every action that moves only registers of the core, whose other fields are those of s
by definition. -/
theorem onlyResultsWritten_refl (s : State) : OnlyResultsWritten s s :=
  ⟨rfl, sameInputArrays_refl s.mem, fun _ => rfl, fun _ _ => rfl, rfl, rfl, rfl, rfl⟩

theorem EmitsOnly.onlyResultsWritten {s t : State} (h : EmitsOnly s t) : OnlyResultsWritten s t := by
  obtain ⟨heq, -, hout⟩ := h
  refine ⟨?_, ?_, fun _ => ?_, hout, ?_, ?_, ?_, ?_⟩ <;> rw [heq]
  exact sameInputArrays_refl s.mem

/-- A raise moves only `fault` and `st` (R271). -/
theorem EmitStep.onlyResultsWritten {s t : State} {next : St} (h : EmitStep s t next) : OnlyResultsWritten s t := by
  rcases h with ⟨he, -⟩ | ⟨u, c, rfl, -, he, -⟩ <;> exact he.onlyResultsWritten

theorem blkStart_onlyResultsWritten (s : State) : OnlyResultsWritten s (blkStart s) := by
  rcases blkStart_cases s with ⟨c, h⟩ | ⟨bs, a, b, c, h, -⟩ <;> rw [h] <;> exact onlyResultsWritten_refl s

theorem acceptToken_onlyResultsWritten (i : Instr) (s : State) : OnlyResultsWritten s (acceptToken i s) := by
  cases i with
  | matchTok len off =>
    show OnlyResultsWritten s (acceptMatch len off s)
    rcases acceptMatch_cases len off s with ⟨-, -, -, h⟩ | ⟨c, h⟩ <;> rw [h] <;> exact onlyResultsWritten_refl s
  | _ => exact onlyResultsWritten_refl s

theorem writeToken_onlyResultsWritten (s : State) : OnlyResultsWritten s (writeToken s) := by
  unfold writeToken
  split_ifs
  · exact onlyResultsWritten_refl s
  · exact acceptToken_onlyResultsWritten _ s
  · exact onlyResultsWritten_refl s

/-- `NextOrDone` moves only `st` and `DONE` (R257). -/
theorem OnlyResultsWritten.nextOrDone {s t : State} (h : OnlyResultsWritten s t) :
    OnlyResultsWritten s (nextOrDone t) := by
  unfold Machine.nextOrDone
  split_ifs <;> exact h

/-- `SEND_OUTPUT` alone writes `SIZE`, when it records the block's byte count (R255). -/
theorem sendOutput_onlyResultsWritten {s : State} (hw : Arrays.wf s.mem = true) (hs : s.st = .sendOutput) :
    OnlyResultsWritten s (sendOutput s) := by
  rcases sendOutput_cases s hw with ⟨u, he, -, -, -, h⟩ | ⟨u, c, h, -, he, -⟩ <;> rw [h]
  · obtain ⟨hcfg, harrays, -, hkept⟩ := he.onlyResultsWritten
    exact OnlyResultsWritten.nextOrDone ⟨hcfg, harrays, fun hne => absurd hs hne, hkept⟩
  · exact he.onlyResultsWritten

theorem coreStep_onlyResultsWritten {s : State} (hw : Arrays.wf s.mem = true) : OnlyResultsWritten s (coreStep s) := by
  unfold coreStep
  cases hs : s.st with
  | idle => exact onlyResultsWritten_refl s
  | fault => exact onlyResultsWritten_refl s
  | blkStart => exact blkStart_onlyResultsWritten s
  | hdrFixed => exact (hdrFixed_step s hw).onlyResultsWritten
  | hdrClen => exact (hdrClen_step s hw).onlyResultsWritten
  | hdrTree => exact (hdrTree_step s hw).onlyResultsWritten
  | writeToken => exact writeToken_onlyResultsWritten s
  | litRep => exact (litRep_step s hw).onlyResultsWritten
  | mlDistRep => exact (mlDistRep_step s hw).onlyResultsWritten
  | mlExtra => exact (mlExtra_step s hw).onlyResultsWritten
  | distRep => exact (distRep_step s hw).onlyResultsWritten
  | distExtra => exact (distExtra_step s hw).onlyResultsWritten
  | sendOutput => exact sendOutput_onlyResultsWritten hw hs

/-! ## The parameters -/

theorem exec_start_cfg {s t : State} (h : exec .start s = .next t) : t.cfg = s.cfg := by
  rw [exec_start_eq] at h
  cases h
  split_ifs <;> rfl

theorem ctrlWrite_cfg (off : Nat) (v : Word) (s : State) : (ctrlWrite off v s).cfg = s.cfg := by
  unfold ctrlWrite
  split_ifs <;> rfl

/-- What a move of the host can lead to: START's next state, a control write, a read of a value or of a free one, a
write of an array, a reset, or the same state. -/
theorem hostMove_next {s t : State} {a : HostAct} (h : perform (hostMove a s) = .next t) :
    exec .start s = .next t ∨ (∃ off v, t = ctrlWrite off v s) ∨ (∃ v, t = hostReads v s) ∨
      (∃ sp, t = hostReadsAny sp s) ∨ (∃ sp i v, t = { s with mem := withElement s.mem sp i v }) ∨
      t = resetEvent s ∨ t = s := by
  cases a with
  | writeCtrl off width v =>
    simp only [hostMove, hostWriteCtrl, decodeCtrl] at h
    split_ifs at h
    · cases h
    · cases h
    · exact .inl h
    · cases h
      simp
    · cases h
      exact .inr (.inl ⟨off, v, rfl⟩)
  | readCtrl off width =>
    simp only [hostMove, hostReadCtrl] at h
    split_ifs at h <;> cases h
    exact .inr (.inr (.inl ⟨_, rfl⟩))
  | writeArray sp i v =>
    simp only [hostMove, perform_answer, hostWriteArray] at h
    split_ifs at h
    cases h
    exact .inr (.inr (.inr (.inr (.inl ⟨sp, i, v, rfl⟩))))
  | readArray sp i =>
    simp only [hostMove, perform_answer, hostReadArray] at h
    split_ifs at h <;> cases h
    · exact .inr (.inr (.inl ⟨_, rfl⟩))
    · exact .inr (.inr (.inr (.inl ⟨sp, rfl⟩)))
    · exact .inr (.inr (.inl ⟨_, rfl⟩))
  | reset =>
    cases h
    simp

theorem hostMove_cfg {s t : State} {a : HostAct} (h : perform (hostMove a s) = .next t) : t.cfg = s.cfg := by
  rcases hostMove_next h with h | ⟨off, v, rfl⟩ | ⟨v, rfl⟩ | ⟨sp, rfl⟩ | ⟨sp, i, v, rfl⟩ | rfl | rfl
  · exact exec_start_cfg h
  · exact ctrlWrite_cfg off v s
  all_goals rfl

theorem coreMove_cfg {s t : State} (hw : Arrays.wf s.mem = true) (h : perform (coreMove s) = .next t) :
    t.cfg = s.cfg := by
  by_cases hf : s.fault = none
  · rw [perform_coreMove hf] at h
    cases h
    exact (coreStep_onlyResultsWritten hw).1
  · rw [perform_coreMove_faulted hf] at h
    cases h
    rfl

/-- Settles O52: the frame of a core step, and the parameters under every mover. -/
theorem coreWritesOnlyResults : Obligations.CoreWritesOnlyResults := by
  intro s t h hstep
  cases hturns : s.turns with
  | nil =>
    obtain ⟨-, -, rfl⟩ := eq_coreStep_of_step hturns hstep
    obtain ⟨hcfg, hframe⟩ := coreStep_onlyResultsWritten h.memCanonical
    exact ⟨hcfg, fun _ => hframe⟩
  | cons turn rest =>
    refine ⟨?_, nofun⟩
    cases turn with
    | core =>
      rw [step_listed_core hturns] at hstep
      exact coreMove_cfg (s := { s with turns := rest }) h.memCanonical hstep
    | host a =>
      rw [step_listed_host hturns] at hstep
      exact hostMove_cfg (s := { s with turns := rest }) hstep

end Sys2Proof.Machine
end

section
/-! PROOFS. A token word is its three fields (R90), and what decoder and encoder say of a word made of given fields
(O1 to O4). -/

namespace Sys2Proof

/-! ## Words and fields -/

@[simp] theorem litField_append (off : BitVec 16) (len lit : Byte) : litField (off ++ len ++ lit) = lit :=
  BitVec.extractLsb'_append_eq_right

@[simp] theorem lenField_append (off : BitVec 16) (len lit : Byte) : lenField (off ++ len ++ lit) = len := by
  rw [lenField, BitVec.extractLsb'_append_eq_of_le (by decide)]
  exact BitVec.extractLsb'_append_eq_right

@[simp] theorem offField_append (off : BitVec 16) (len lit : Byte) : offField (off ++ len ++ lit) = off := by
  rw [offField, BitVec.extractLsb'_append_eq_of_le (by decide)]
  exact BitVec.extractLsb'_append_eq_left

/-- R90: the three fields are the whole word. -/
theorem fields_append (w : Word) : offField w ++ lenField w ++ litField w = w := by
  unfold offField lenField litField
  have high : w.extractLsb' 16 16 ++ w.extractLsb' 8 8 = w.extractLsb' 8 24 :=
    BitVec.extractLsb'_append_extractLsb'_eq_extractLsb' rfl
  have whole : w.extractLsb' 8 24 ++ w.extractLsb' 0 8 = w.extractLsb' 0 32 :=
    BitVec.extractLsb'_append_extractLsb'_eq_extractLsb' rfl
  rw [high, whole, BitVec.extractLsb'_eq_self]

/-- A mask acts on each field by its own part. -/
theorem and_fields (w : Word) (off : BitVec 16) (len lit : Byte) :
    w &&& (off ++ len ++ lit) = (offField w &&& off) ++ (lenField w &&& len) ++ (litField w &&& lit) := by
  conv_lhs => rw [← fields_append w]
  rw [BitVec.and_append, BitVec.and_append]

theorem zeroExtend_eq_fields (b : Byte) : b.zeroExtend 32 = 0#16 ++ 0#8 ++ b := by
  rw [BitVec.zeroExtend, BitVec.setWidth_eq_append (by decide)]
  rfl

/-! ## The decoder by cases of `LEN` (R91) -/

theorem decodeToken_of_len_zero {w : Word} (h : lenField w = 0#8) : decodeToken w = .lit (litField w) :=
  if_pos h

theorem decodeToken_of_len_one {w : Word} (h : lenField w = 1#8) : decodeToken w = .rsvLen1 := by
  simp [decodeToken, h]

theorem decodeToken_of_len_two {w : Word} (h : lenField w = 2#8) : decodeToken w = .rsvLen2 := by
  simp [decodeToken, h]

theorem decodeToken_of_three_le_len {w : Word} (h : 3 ≤ (lenField w).toNat) :
    decodeToken w = .matchTok (lenField w) (offField w) := by
  have ne (n : Byte) (hn : n.toNat < 3) : lenField w ≠ n := fun he => absurd h (by rw [he]; omega)
  rw [decodeToken, if_neg (ne 0#8 (by decide)), if_neg (ne 1#8 (by decide)), if_neg (ne 2#8 (by decide))]

/-- R91: the four values of `LEN` that the decoder tells apart. -/
theorem lenField_cases (w : Word) :
    lenField w = 0#8 ∨ lenField w = 1#8 ∨ lenField w = 2#8 ∨ 3 ≤ (lenField w).toNat := by
  simp only [← BitVec.toNat_inj, BitVec.toNat_ofNat]
  omega

/-! ## Decoder and encoder undo each other -/

theorem decode_encode {i : Instr} (h : i.wf = true) : decode (encode i) = .ok i := by
  cases i with
  | lit b =>
    rw [encode, zeroExtend_eq_fields, decode, decodeToken_of_len_zero (lenField_append ..), litField_append]
  | rsvLen1 => rfl
  | rsvLen2 => rfl
  | matchTok len off =>
    have hlen : lenField (matchWord len off) = len := lenField_append ..
    have hoff : offField (matchWord len off) = off := offField_append ..
    rw [encode, decode, decodeToken_of_three_le_len (by rw [hlen]; exact of_decide_eq_true h), hlen, hoff]
  | start => rfl

/-- Settles O2, constructor by constructor: the encoder's word is made of the fields the decoder reads. -/
theorem decodeUndoesEncode : Obligations.DecodeUndoesEncode :=
  fun _ => decode_encode

theorem decodeToken_wf (w : Word) : (decodeToken w).wf = true := by
  obtain h | h | h | h := lenField_cases w
  · rw [decodeToken_of_len_zero h, Instr.wf]
  · rw [decodeToken_of_len_one h, Instr.wf]
  · rw [decodeToken_of_len_two h, Instr.wf]
  · rw [decodeToken_of_three_le_len h]
    exact decide_eq_true h

/-! What the masks of the three kinds of token keep (R92, R93, R94(c)). -/

theorem and_literalMask (w : Word) : w &&& 0x0000FFFF#32 = 0#16 ++ lenField w ++ litField w := by
  rw [show 0x0000FFFF#32 = 0#16 ++ BitVec.allOnes 8 ++ BitVec.allOnes 8 from rfl, and_fields]
  simp only [BitVec.and_zero, BitVec.and_allOnes]

theorem and_reservedMask (w : Word) : w &&& 0x0000FF00#32 = 0#16 ++ lenField w ++ 0#8 := by
  rw [show 0x0000FF00#32 = 0#16 ++ BitVec.allOnes 8 ++ 0#8 from rfl, and_fields]
  simp only [BitVec.and_zero, BitVec.and_allOnes]

theorem and_matchMask (w : Word) : w &&& 0xFFFFFF00#32 = offField w ++ lenField w ++ 0#8 := by
  rw [show 0xFFFFFF00#32 = BitVec.allOnes 16 ++ BitVec.allOnes 8 ++ 0#8 from rfl, and_fields]
  simp only [BitVec.and_zero, BitVec.and_allOnes]

theorem encode_decodeToken (w : Word) :
    encode (decodeToken w) = .token (w &&&
      (if lenField w = 0#8 then 0x0000FFFF#32
       else if (lenField w).toNat < 3 then 0x0000FF00#32
       else 0xFFFFFF00#32)) := by
  obtain h | h | h | h := lenField_cases w
  · rw [if_pos h, and_literalMask, h, decodeToken_of_len_zero h, encode, zeroExtend_eq_fields]
  · rw [decodeToken_of_len_one h, h, if_neg (by decide), if_pos (by decide), and_reservedMask, h]
    rfl
  · rw [decodeToken_of_len_two h, h, if_neg (by decide), if_pos (by decide), and_reservedMask, h]
    rfl
  · have h0 : lenField w ≠ 0#8 := fun he => absurd h (by rw [he]; decide)
    rw [if_neg h0, if_neg (Nat.not_lt.2 h), and_matchMask, decodeToken_of_three_le_len h, encode, matchWord]

/-- Settles O3, by cases of `LEN`: each mask keeps the fields its token has. -/
theorem encodeUndoesDecode : Obligations.EncodeUndoesDecode :=
  fun w => ⟨decodeToken_wf w, encode_decodeToken w⟩

/-! ## Single words -/

/-- Settles O1: the decoder's answers on eight words. -/
theorem writtenWordsDecode : Obligations.WrittenWordsDecode := by
  unfold Obligations.WrittenWordsDecode
  decide

/-- Bits 15:0 alone hold `LEN` and `LIT` (R90). -/
theorem lenField_replace_high (w : Word) (junk : BitVec 16) : lenField (junk ++ w.extractLsb' 0 16) = lenField w := by
  rw [lenField, BitVec.extractLsb'_append_eq_of_add_le (by decide), BitVec.extractLsb'_extractLsb'_of_le (by decide)]
  rfl

theorem litField_replace_high (w : Word) (junk : BitVec 16) : litField (junk ++ w.extractLsb' 0 16) = litField w := by
  rw [litField, BitVec.extractLsb'_append_eq_of_add_le (by decide), BitVec.extractLsb'_extractLsb'_of_le (by decide)]
  rfl

/-- Settles O4: `LEN` = 0 selects the literal, whose byte and whose selection lie in bits 15:0 (R92). -/
theorem literalOperandBits : Obligations.LiteralOperandBits := by
  intro w junk h
  have hlen : lenField w = 0#8 := h
  refine ⟨decodeToken_of_len_zero hlen, ?_⟩
  rw [decodeToken_of_len_zero hlen, decodeToken_of_len_zero ((lenField_replace_high w junk).trans hlen),
    litField_replace_high]

end Sys2Proof
end

section
/-! PROOFS. Length and distance codes: each is the largest code whose base is at most the value (O7, O8). -/

namespace Sys2Proof.Machine

/-! ## The search for the largest code -/

theorem largestCode_le (base : Nat → Nat) (v n : Nat) : largestCode base v n ≤ n := by
  induction n with
  | zero => exact le_rfl
  | succ n ih =>
    unfold largestCode
    split_ifs
    · exact le_rfl
    · exact Nat.le_succ_of_le ih

theorem base_largestCode_le {base : Nat → Nat} {v : Nat} (h0 : base 0 ≤ v) (n : Nat) :
    base (largestCode base v n) ≤ v := by
  induction n with
  | zero => exact h0
  | succ n ih =>
    unfold largestCode
    split_ifs with h
    · exact h
    · exact ih

theorem le_largestCode {base : Nat → Nat} {v n c : Nat} (hc : c ≤ n) (hv : base c ≤ v) :
    c ≤ largestCode base v n := by
  induction n with
  | zero => exact hc
  | succ n ih =>
    unfold largestCode
    split_ifs with h
    · exact hc
    · have hne : c ≠ n + 1 := fun he => h (he ▸ hv)
      exact ih (by omega)

/-! ## Lengths (R103) -/

theorem lcode_of_le_257 {len : Nat} (h : len ≤ 257) : lcode len = largestCode lbase len 27 :=
  if_neg (by omega)

/-- The lengths of a code reach up to the next code's base. -/
theorem lbase_succ_le : ∀ c ≤ 27, lbase (c + 1) ≤ lbase c + 2 ^ lext c := by decide

/-- Below the next code's base, the extra value of the largest code fits its extra bits. -/
theorem lengthExtra_lt {len : Nat} (h : len ≤ 257) : len - lbase (lcode len) < 2 ^ lext (lcode len) := by
  rw [lcode_of_le_257 h]
  have hc := largestCode_le lbase len 27
  have next : len < lbase (largestCode lbase len 27 + 1) := by
    by_contra hle
    by_cases h27 : largestCode lbase len 27 = 27
    · rw [h27] at hle
      exact hle (Nat.lt_succ_of_le h)
    · have := le_largestCode (n := 27) (by omega) (Nat.not_lt.1 hle)
      omega
  have := lbase_succ_le _ hc
  have : 0 < 2 ^ lext (largestCode lbase len 27) := Nat.two_pow_pos _
  omega

/-- Settles O7: up to 257 `LCODE` is the search for the largest code, and 258 has a code of its own. -/
theorem lengthCodeIsLargest : Obligations.LengthCodeIsLargest := by
  intro len h3 h258
  refine ⟨fun h => ?_, fun h => if_pos h, ?_⟩
  · rw [lcode_of_le_257 h]
    exact ⟨largestCode_le .., base_largestCode_le (base := lbase) h3 27, fun c => le_largestCode⟩
  · obtain rfl | hlt := Nat.eq_or_lt_of_le h258
    · decide
    · exact lengthExtra_lt (Nat.le_of_lt_succ hlt)

/-! ## Distances (R105) -/

theorem dcode_of_lt_256 {off : Nat} (h : off < 256) : dcode off = distCodeTable.getD off 0 := if_pos h

theorem dcode_of_256_le {off : Nat} (h : 256 ≤ off) : dcode off = distCodeTable.getD (256 + off / 128) 0 := by
  rw [dcode, if_neg (Nat.not_lt.2 h), Nat.shiftRight_eq_div_pow]

theorem distCodeTable_getElem? {k : Nat} (h : k < 512) : distCodeTable[k]? = some (distCodeTable.getD k 0) :=
  List.mk_mem_zipIdx_iff_getElem?.1 (getD_mem_zipIdx h)

/-- `DIST_CODE` entry by entry (R106): its code's base is at most the least distance the entry serves. -/
theorem distCodeTable_base_le :
    ∀ e ∈ distCodeTable.zipIdx,
      e.1 ≤ 29 ∧ (e.2 < 256 → dbase e.1 ≤ e.2 + 1) ∧ (258 ≤ e.2 → dbase e.1 ≤ 128 * (e.2 - 256) + 1) := by
  decide +kernel

/-- R105: the code of an offset is a distance code with base at most the distance, in both branches. -/
theorem dcode_base_le {off : Nat} (h : off ≤ 32767) : dcode off ≤ 29 ∧ dbase (dcode off) ≤ off + 1 := by
  by_cases hlow : off < 256
  · rw [dcode_of_lt_256 hlow]
    obtain ⟨hc, hb, -⟩ := distCodeTable_base_le _ (getD_mem_zipIdx (k := off) (by omega))
    exact ⟨hc, hb hlow⟩
  · rw [dcode_of_256_le (Nat.not_lt.1 hlow)]
    obtain ⟨hc, -, hb⟩ := distCodeTable_base_le _ (getD_mem_zipIdx (k := 256 + off / 128) (by omega))
    have hb := hb (by show 258 ≤ 256 + off / 128; omega)
    exact ⟨hc, hb.trans (by omega)⟩

/-- The distances of a code end before the base of every larger code (R104). -/
theorem dbase_add_le : ∀ c ≤ 29, ∀ b < c, dbase b + 2 ^ dext b ≤ dbase c := by decide

/-- Settles O8: the table gives a code that starts at or before the distance (`dcode_base_le`) and reaches it
(`distanceExtra_fits`), so every larger code starts after it. -/
theorem distanceCodeIsLargest : Obligations.DistanceCodeIsLargest := by
  intro off h
  obtain ⟨hle, hbase⟩ := dcode_base_le h
  obtain ⟨-, hextra, -⟩ := distanceExtra_fits h
  refine ⟨fun hlow => ?_, fun hhigh => ?_, hle, hbase, fun c hc hcb => ?_, hextra⟩
  · rw [dcode_of_lt_256 hlow, distCodeTable_getElem? (by omega)]
  · rw [dcode_of_256_le hhigh, Nat.shiftRight_eq_div_pow, distCodeTable_getElem? (by omega)]
  · by_contra hlarger
    have := dbase_add_le c hc _ (Nat.not_le.1 hlarger)
    omega

end Sys2Proof.Machine
end

section
/-! PROOFS. The reserved tokens at `WRITE_TOKEN` (O21). -/

namespace Sys2Proof.Machine

theorem exec_reserved_at_token {s : State} (h : atToken s = true) :
    exec .rsvLen1 s = .next (rejectReserved s) ∧ exec .rsvLen2 s = .next (rejectReserved s) :=
  ⟨if_pos h, if_pos h⟩

/-- Settles O21: both tokens are rejected, which is the raise of R271 after the word has been read. -/
theorem reservedTokensFault : Obligations.ReservedTokensFault :=
  fun _ hf hs hb => exec_reserved_at_token (atToken_iff.2 ⟨hf, hs, hb⟩)

end Sys2Proof.Machine
end

section
/-! PROOFS. What the bit-packer writes: an emitting operation appends exactly its bits when `OUT` has room for the bytes
they complete, and otherwise stops with the buffer full (O23 to O25). -/

namespace Sys2Proof.Machine

/-! ## Bits of a field -/

theorem fieldBits_congr {v w : Word} {n : Nat} (h : ∀ i < n, v.getLsbD i = w.getLsbD i) :
    fieldBits v n = fieldBits w n :=
  List.map_congr_left fun i hi => h i (List.mem_range.1 hi)

/-- A field in two parts: its low bits, then the rest shifted down. -/
theorem fieldBits_add (v : Word) (m n : Nat) : fieldBits v (m + n) = fieldBits v m ++ fieldBits (v >>> m) n := by
  simp [fieldBits, List.range_add, Function.comp_def]

theorem byteBits_setWidth (v : Word) : byteBits (v.setWidth 8) = fieldBits v 8 := by
  refine List.map_congr_left fun i hi => ?_
  simp [List.mem_range.1 hi]

theorem fieldBits_zero (n : Nat) : fieldBits 0 n = List.replicate n false := by
  simp [fieldBits, List.map_const']

/-- No bit of a value stands at or above the width it fits. -/
theorem getLsbD_of_toNat_lt {v : Word} {n i : Nat} (h : v.toNat < 2 ^ n) (hi : n ≤ i) : v.getLsbD i = false :=
  Nat.testBit_eq_false_of_lt (h.trans_le (Nat.pow_le_pow_right (by decide) hi))

/-- A field placed just above the pending bits follows them in the stream (R130). -/
theorem fieldBits_or_shiftLeft {acc v : Word} {m n : Nat} (hacc : acc.toNat < 2 ^ m) (hfit : m + n ≤ 32) :
    fieldBits (acc ||| (v <<< m)) (m + n) = fieldBits acc m ++ fieldBits v n := by
  rw [fieldBits_add]
  congr 1
  · refine fieldBits_congr fun i hi => ?_
    simp [hi]
  · refine fieldBits_congr fun i hi => ?_
    have hlow : acc.getLsbD (m + i) = false := getLsbD_of_toNat_lt hacc (by omega)
    have hin : m + i < 32 := by omega
    rw [BitVec.getLsbD_ushiftRight, BitVec.getLsbD_or, hlow, BitVec.getLsbD_shiftLeft]
    simp [hin]

/-! ## The stream -/

/-- The field that `PutBits` places above the pending bits ends the stream (R66, R130). -/
theorem streamBits_appendBits {v : Word} {n : Nat} {s : State} (hp : Packed s) (hn : n ≤ 16) :
    streamBits (appendBits v n s) = streamBits s ++ fieldBits v n := by
  have hnb := hp.1
  unfold streamBits
  rw [appendBits_nbits_toNat hp hn, appendBits_acc, fieldBits_or_shiftLeft hp.2 (by omega), List.append_assoc]
  rfl

/-- The state one round of the loop of `PutBits` leaves when there is room: the oldest eight bits are a byte of `OUT`
(R130). -/
def drained (s : State) : State :=
  { emitted (s.acc.setWidth 8) s with acc := s.acc >>> 8, nbits := s.nbits - 8 }

theorem drain_succ (k : Nat) {s : State} (hroom : s.op.toNat < s.cfg.outBytes.toNat) :
    drain (k + 1) s = drain k (drained s) := by
  rw [drain, outByte_eq, if_pos hroom]
  rfl

theorem drain_succ_full (k : Nat) {s : State} (hfull : ¬ s.op.toNat < s.cfg.outBytes.toNat) :
    drain (k + 1) s = .error (raise .outOverflow s) := by
  rw [drain, outByte_eq, if_neg hfull]
  rfl

/-- The bytes of `OUT` up to and with the one just stored. -/
theorem outBits_emitted {b : Byte} {s : State} (hw : Arrays.wf s.mem = true)
    (hroom : s.op.toNat < s.cfg.outBytes.toNat) :
    ((List.range (emitted b s).op.toNat).flatMap fun i => byteBits (Memory.read (emitted b s).mem.out i)) =
      ((List.range s.op.toNat).flatMap fun i => byteBits (Memory.read s.mem.out i)) ++ byteBits b := by
  have ho : Memory.wf s.mem.out = true := (Arrays.wf_iff s.mem).1 hw .out
  have hop : (emitted b s).op.toNat = s.op.toNat + 1 := op_add_one_toNat hroom
  rw [hop, List.range_succ, List.flatMap_append, List.flatMap_singleton]
  congr 1
  · refine List.flatMap_congr fun i hi => ?_
    rw [List.mem_range] at hi
    exact congrArg byteBits (Memory.read_write_ne _ _ hi.ne ho)
  · exact congrArg byteBits (Memory.read_write_same _ _ _ ho)

theorem nbits_sub_eight {s : State} (h : 8 ≤ s.nbits.toNat) : (s.nbits - 8).toNat = s.nbits.toNat - 8 :=
  BitVec.toNat_sub_of_le (show (8 : BitVec 5).toNat ≤ s.nbits.toNat from h)

/-- A round moves eight bits from the accumulator to `OUT`, and the stream stays as it is (R66, R130). -/
theorem streamBits_drained {s : State} (hw : Arrays.wf s.mem = true) (hroom : s.op.toNat < s.cfg.outBytes.toNat)
    (h8 : 8 ≤ s.nbits.toNat) : streamBits (drained s) = streamBits s := by
  have hsplit : s.nbits.toNat = 8 + (s.nbits - 8).toNat := by rw [nbits_sub_eight h8]; omega
  calc streamBits (drained s)
      = ((List.range s.op.toNat).flatMap fun i => byteBits (Memory.read s.mem.out i)) ++
          byteBits (s.acc.setWidth 8) ++ fieldBits (s.acc >>> 8) (s.nbits - 8).toNat :=
        congrArg (· ++ _) (outBits_emitted hw hroom)
    _ = streamBits s := by
        rw [byteBits_setWidth, List.append_assoc, ← fieldBits_add, ← hsplit]
        rfl

/-! ## The loop of `PutBits` -/

theorem drained_emitsOnly {s : State} (hw : Arrays.wf s.mem = true) (hroom : s.op.toNat < s.cfg.outBytes.toNat) :
    EmitsOnly s (drained s) :=
  (emitted_emitsOnly _ s hw hroom).trans ⟨rfl, le_refl _, fun _ _ => rfl⟩

/-- `t` is `s` after `k` whole bytes of the pending bits have moved to `OUT`, the stream unchanged (R130). -/
structure Drained (k : Nat) (s t : State) : Prop where
  stream : streamBits t = streamBits s
  nbits : t.nbits.toNat + 8 * k = s.nbits.toNat
  acc : s.acc.toNat < 2 ^ s.nbits.toNat → t.acc.toNat < 2 ^ t.nbits.toNat
  op : t.op.toNat = s.op.toNat + k
  blkOut : s.blkOut.toNat ≤ s.op.toNat → t.blkOut.toNat = s.blkOut.toNat + k

theorem Drained.refl (s : State) : Drained 0 s s := ⟨rfl, rfl, id, rfl, fun _ => rfl⟩

theorem Drained.trans {j k : Nat} {s t u : State} (h : Drained j s t) (h' : Drained k t u) : Drained (j + k) s u where
  stream := h'.stream.trans h.stream
  nbits := by have := h.nbits; have := h'.nbits; omega
  acc := h'.acc ∘ h.acc
  op := by rw [h'.op, h.op, Nat.add_assoc]
  blkOut hle := by
    have hmid := h.blkOut hle
    have hop := h.op
    rw [h'.blkOut (by omega), hmid, Nat.add_assoc]

/-- One round. -/
theorem drained_once {s : State} (hw : Arrays.wf s.mem = true) (hroom : s.op.toNat < s.cfg.outBytes.toNat)
    (h8 : 8 ≤ s.nbits.toNat) : Drained 1 s (drained s) where
  stream := streamBits_drained hw hroom h8
  nbits := by
    show (s.nbits - 8).toNat + 8 * 1 = _
    rw [nbits_sub_eight h8]
    omega
  acc hacc := by
    show (s.acc >>> 8).toNat < 2 ^ (s.nbits - 8).toNat
    rw [nbits_sub_eight h8, BitVec.toNat_ushiftRight, Nat.shiftRight_eq_div_pow]
    refine Nat.div_lt_of_lt_mul ?_
    rwa [← pow_add, Nat.add_sub_of_le h8]
  op := op_add_one_toNat hroom
  blkOut hle := toNat_add_one (hle.trans_lt hroom)

/-- With room for `k` bytes the loop runs its `k` rounds. -/
theorem drain_room {k : Nat} {s : State} (hw : Arrays.wf s.mem = true)
    (hroom : s.op.toNat + k ≤ s.cfg.outBytes.toNat) (hk : 8 * k ≤ s.nbits.toNat) :
    ∃ t, drain k s = .ok t ∧ Drained k s t := by
  induction k generalizing s with
  | zero => exact ⟨s, rfl, .refl s⟩
  | succ k ih =>
    have hlt : s.op.toNat < s.cfg.outBytes.toNat := by omega
    have hone := drained_once hw hlt (by omega)
    have hop := hone.op
    have hnb := hone.nbits
    have hrest : (drained s).op.toNat + k ≤ (drained s).cfg.outBytes.toNat := by
      show (drained s).op.toNat + k ≤ s.cfg.outBytes.toNat
      omega
    obtain ⟨t, ht, hd⟩ := ih (s := drained s) (emitted_wf _ s hw) hrest (by omega)
    exact ⟨t, (drain_succ k hlt).trans ht, Nat.add_comm k 1 ▸ hone.trans hd⟩

/-- An operation that ends its step with `F_OUT_OVERFLOW`, the buffer full and only the bit-packer moved. -/
def Overflows (s : State) (a : Act) : Prop :=
  ∃ u, a = .error (raise .outOverflow u) ∧ EmitsOnly s u ∧ u.st = s.st ∧ u.op = s.cfg.outBytes

theorem Overflows.after {s t : State} {a : Act} (h : Overflows t a) (he : EmitsOnly s t) (hst : t.st = s.st) :
    Overflows s a := by
  obtain ⟨u, ha, hu, hust, hop⟩ := h
  exact ⟨u, ha, he.trans hu, hust.trans hst, hop.trans (congrArg Config.outBytes he.cfg)⟩

theorem Overflows.andThen {s : State} {a : Act} (h : Overflows s a) (k : State → Act) :
    Overflows s (andThen a k) := by
  obtain ⟨u, rfl, hu⟩ := h
  exact ⟨u, rfl, hu⟩

/-- Without room for `k` bytes a round finds the buffer full (R131). -/
theorem drain_full {k : Nat} {s : State} (hw : Arrays.wf s.mem = true) (hop : s.op.toNat ≤ s.cfg.outBytes.toNat)
    (hfull : s.cfg.outBytes.toNat < s.op.toNat + k) : Overflows s (drain k s) := by
  induction k generalizing s with
  | zero => omega
  | succ k ih =>
    by_cases hlt : s.op.toNat < s.cfg.outBytes.toNat
    · have hnext : (drained s).op.toNat = s.op.toNat + 1 := op_add_one_toNat hlt
      rw [drain_succ k hlt]
      refine (ih (s := drained s) (emitted_wf _ s hw) ?_ ?_).after (drained_emitsOnly hw hlt) rfl
      · show (drained s).op.toNat ≤ s.cfg.outBytes.toNat
        omega
      · show s.cfg.outBytes.toNat < (drained s).op.toNat + k
        omega
    · rw [drain_succ_full k hlt]
      exact ⟨s, rfl, .refl s, rfl, BitVec.eq_of_toNat_eq (by omega)⟩

/-! ## Operations that write a list of bits -/

/-- The bit-packer can take bits: its registers are in the form of R34 and `op` is within the buffer (R131). -/
structure PackerReady (s : State) : Prop where
  memCanonical : Arrays.wf s.mem = true
  packed : Packed s
  bounded : s.op.toNat ≤ s.cfg.outBytes.toNat

/-- Part of a step that writes exactly these bits: with room for the bytes they complete it appends them and goes on,
without room it overflows. -/
structure Writes (bits : List Bool) (s : State) (a : Act) : Prop where
  room : Room bits.length s → ∃ t, a = .ok t ∧ t.st = s.st ∧ Arrays.wf t.mem = true ∧ Appends bits s t
  full : ¬ Room bits.length s → Overflows s a

theorem Appends.packerReady {bits : List Bool} {s t : State} (h : Appends bits s t) (hw : Arrays.wf t.mem = true)
    (hroom : Room bits.length s) : PackerReady t := by
  obtain ⟨he, hp, -, hop, -⟩ := h
  refine ⟨hw, hp, ?_⟩
  rw [hop, he.cfg]
  exact hroom

/-- What is left of the room for two fields once the first is appended (R131). -/
theorem Appends.room_iff {bits : List Bool} {s t : State} (h : Appends bits s t) (n : Nat) :
    Room n t ↔ Room (bits.length + n) s := by
  have hn := h.nbits
  obtain ⟨he, -, -, hop, -⟩ := h
  unfold Room
  rw [he.cfg, hop, hn]
  omega

theorem Room.of_le {m n : Nat} {s : State} (h : Room n s) (hmn : m ≤ n) : Room m s := by
  unfold Room at *
  omega

theorem Writes.nothing {s : State} (h : PackerReady s) : Writes [] s (.ok s) := by
  obtain ⟨hw, hp, hop⟩ := h
  refine ⟨fun _ => ⟨s, rfl, rfl, hw, .nil hp⟩, fun hfull => absurd ?_ hfull⟩
  have := hp.1
  unfold Room
  rw [List.length_nil]
  omega

/-- One writing operation after another. -/
theorem Writes.andThen {b c : List Bool} {s : State} {a : Act} {k : State → Act} (h : Writes b s a)
    (hk : ∀ t, PackerReady t → Appends b s t → Writes c t (k t)) : Writes (b ++ c) s (andThen a k) := by
  by_cases hroom : Room b.length s
  · obtain ⟨t, rfl, hst, hw, happ⟩ := h.room hroom
    have hnext := hk t (happ.packerReady hw hroom) happ
    have hrest := happ.room_iff c.length
    rw [← List.length_append] at hrest
    refine ⟨fun hr => ?_, fun hr => (hnext.full (mt hrest.1 hr)).after happ.1 hst⟩
    obtain ⟨u, hu, hust, huw, huapp⟩ := hnext.room (hrest.2 hr)
    exact ⟨u, hu, hust.trans hst, huw, happ.trans huapp⟩
  · have hnone : ¬ Room (b ++ c).length s := fun hr =>
      hroom (hr.of_le (by rw [List.length_append]; omega))
    exact ⟨fun hr => absurd hr hnone, fun _ => (h.full hroom).andThen k⟩

/-- `PutBits` (R130) writes its field. -/
theorem putBits_writes {v : Word} {n : Nat} {s : State} (h : PackerReady s) (hn : n ≤ 16) (hv : v.toNat < 2 ^ n) :
    Writes (fieldBits v n) s (putBits v n s) := by
  obtain ⟨hw, hp, hop⟩ := h
  have hnb := appendBits_nbits_toNat (v := v) hp hn
  constructor <;> unfold Room <;> rw [fieldBits_length]
  · intro hroom
    obtain ⟨t, ht, hd⟩ := drain_room (s := appendBits v n s) hw hroom (by omega)
    obtain ⟨he, hst, hwt⟩ := (putBits_spec v n s hw).ok t ht
    have hacc := hd.acc (hnb ▸ appendBits_acc_lt hp hn hv)
    have hleft := hd.nbits
    refine ⟨t, ht, hst, hwt, he, ⟨by omega, hacc⟩, hd.stream.trans (streamBits_appendBits hp hn), ?_, fun hle => ?_⟩
    · rw [fieldBits_length]
      exact hd.op
    · have hout : t.blkOut.toNat = s.blkOut.toNat + (s.nbits.toNat + n) / 8 := hd.blkOut hle
      unfold blockBits
      rw [fieldBits_length]
      omega
  · intro hfull
    exact (drain_full (s := appendBits v n s) hw hop (Nat.not_le.1 hfull)).after ⟨rfl, le_refl _, fun _ _ => rfl⟩ rfl

/-- Settles O23: `PutBits` writes its field. -/
theorem putBitsAppendsField : Obligations.PutBitsAppendsField := by
  intro v n s hw hp hn hv hop
  have h := putBits_writes ⟨hw, hp, hop⟩ hn hv
  have hlen := fieldBits_length v n
  refine ⟨fun hroom => ?_, fun hfull => h.full (by rwa [hlen])⟩
  obtain ⟨t, ht, hst, -, happ⟩ := h.room (by rwa [hlen])
  exact ⟨t, ht, hst, happ⟩

/-- Settles O24, by the equation of `OutByte` on both sides of the capacity. -/
theorem outByteStoresOneByte : Obligations.OutByteStoresOneByte := by
  intro b s hw
  have ho : Memory.wf s.mem.out = true := (Arrays.wf_iff s.mem).1 hw .out
  rw [outByte_eq]
  refine ⟨fun hroom => ⟨op_add_one_toNat hroom, fun hle => toNat_add_one (hle.trans_lt hroom), ?_⟩, fun hfull => ?_⟩
  · exact ⟨_, if_pos hroom, Memory.read_write_same _ _ _ ho, fun a ha => Memory.read_write_ne _ _ ha ho⟩
  · exact if_neg (Nat.not_lt.2 hfull)

/-! ## Byte boundaries -/

theorem Packed.acc_eq_zero {s : State} (h : Packed s) (h0 : s.nbits.toNat = 0) : s.acc = 0 := by
  have hacc := h.2
  rw [h0] at hacc
  exact BitVec.eq_of_toNat_eq (Nat.lt_one_iff.1 hacc)

/-- `OutByte` (R131) at a byte boundary writes its byte's bits. -/
theorem outByte_writes {b : Byte} {s : State} (h : PackerReady s) (h0 : s.nbits.toNat = 0) :
    Writes (byteBits b) s (outByte b s) := by
  obtain ⟨hw, hp, hop⟩ := h
  constructor <;> unfold Room <;> rw [byteBits_length, h0, outByte_eq]
  · intro hroom
    have hlt : s.op.toNat < s.cfg.outBytes.toNat := by omega
    have hstream : streamBits (emitted b s) = streamBits s ++ byteBits b := by
      have hpend : fieldBits s.acc s.nbits.toNat = [] := by rw [h0]; rfl
      calc streamBits (emitted b s) = _ ++ fieldBits s.acc s.nbits.toNat := congrArg (· ++ _) (outBits_emitted hw hlt)
        _ = streamBits s ++ byteBits b := by rw [streamBits, hpend, List.append_nil, List.append_nil]
    have he := emitted_emitsOnly b s hw hlt
    refine ⟨emitted b s, if_pos hlt, rfl, emitted_wf b s hw, he, hp, hstream, ?_, fun hle => ?_⟩
    · rw [byteBits_length, h0]
      exact op_add_one_toNat hlt
    · have hout : (emitted b s).blkOut.toNat = s.blkOut.toNat + 1 := toNat_add_one (hle.trans_lt hlt)
      have hnb : (emitted b s).nbits = s.nbits := rfl
      rw [byteBits_length, blockBits, blockBits, hout, hnb]
      omega
  · intro hfull
    rw [if_neg (by omega)]
    exact ⟨s, rfl, .refl s, rfl, BitVec.eq_of_toNat_eq (by omega)⟩

/-- The zero bits that complete a byte of which `n` bits are there (R132). -/
def padBits (n : Nat) : List Bool := List.replicate ((8 - n % 8) % 8) false

/-- `PadToByte` (R132) writes zero bits up to the byte boundary. -/
theorem padToByte_writes {s : State} (h : PackerReady s) :
    Writes (padBits s.nbits.toNat) s (padToByte s) := by
  have h7 := h.packed.1
  unfold padToByte
  split_ifs with hpos
  · have hpad : padBits s.nbits.toNat = fieldBits 0 (8 - s.nbits.toNat) := by
      rw [fieldBits_zero, padBits]
      congr 1
      omega
    rw [hpad]
    exact putBits_writes h (by omega) (Nat.two_pow_pos _)
  · have hnone : padBits s.nbits.toNat = [] := by rw [Nat.eq_zero_of_not_pos hpos]; rfl
    rw [hnone]
    exact .nothing h

@[simp] theorem padBits_length (n : Nat) : (padBits n).length = (8 - n % 8) % 8 := List.length_replicate

/-- Padding ends at a byte boundary, with nothing pending (R132). -/
theorem Appends.padded {s t : State} (h : Appends (padBits s.nbits.toNat) s t) : t.nbits.toNat = 0 := by
  rw [h.nbits, padBits_length]
  omega

/-- Settles O25: `PadToByte` writes its padding, for which room for 7 bits is exactly the room for the byte. -/
theorem padToByteCompletesByte : Obligations.PadToByteCompletesByte := by
  intro s hw hp hop
  have h := padToByte_writes ⟨hw, hp, hop⟩
  have h7 := hp.1
  have hroom : Room (padBits s.nbits.toNat).length s ↔ Room 7 s := by
    rw [padBits_length]
    unfold Room
    omega
  refine ⟨fun hr => ?_, fun hr => h.full (mt hroom.1 hr)⟩
  obtain ⟨t, ht, hst, -, happ⟩ := h.room (hroom.2 hr)
  have hpad : padBits s.nbits.toNat = List.replicate ((8 - s.nbits.toNat) % 8) false := by
    rw [padBits, Nat.mod_eq_of_lt (show s.nbits.toNat < 8 by omega)]
  have hacc := happ.2.1.acc_eq_zero happ.padded
  exact ⟨t, ht, hst, BitVec.eq_of_toNat_eq happ.padded, hacc, hpad ▸ happ⟩

end Sys2Proof.Machine
end

section
/-! PROOFS. The code dispatcher: `EmitCode` by the rule of R134, and the bits it writes for an entry in range, under
either order of the stored codes (O26, O27). -/

namespace Sys2Proof.Machine

/-! ## The entry of a symbol -/

/-- A symbol's entry exists exactly when the block's table set does (R62). -/
theorem tableIndex_lt_iff {t : Table} {sym : Nat} (hsym : sym < t.stride) (s : State) :
    tableIndex t sym s < s.cfg.maxBlocks.toNat * t.stride ↔ s.blk.toNat < s.cfg.maxBlocks.toNat := by
  unfold tableIndex
  constructor <;> intro h
  · by_contra hge
    have := Nat.mul_le_mul_right t.stride (Nat.not_lt.1 hge)
    omega
  · have := Nat.mul_le_mul_right t.stride (Nat.succ_le_of_lt h)
    rw [Nat.succ_mul] at this
    omega

theorem capacity_lenSpace (c : Config) (t : Table) : capacity c t.lenSpace = c.maxBlocks.toNat * t.stride := by
  cases t <;> rfl

theorem capacity_codeSpace (c : Config) (t : Table) : capacity c t.codeSpace = c.maxBlocks.toNat * t.stride := by
  cases t <;> rfl

theorem overrunCode_lenSpace (t : Table) : overrunCode t.lenSpace = .blockOverrun := by
  cases t <;> rfl

theorem codeLen_eq {t : Table} {sym : Nat} (hsym : sym < t.stride) (s : State) :
    codeLen t sym s =
      if s.blk.toNat < s.cfg.maxBlocks.toNat then .ok (element s.mem t.lenSpace (tableIndex t sym s))
      else .error .blockOverrun := by
  simp only [codeLen, memRead, capacity_lenSpace, tableIndex_lt_iff hsym, overrunCode_lenSpace]

theorem codeValue_of_lt {t : Table} {sym : Nat} (hsym : sym < t.stride) {s : State}
    (hblk : s.blk.toNat < s.cfg.maxBlocks.toNat) : codeValue t sym s = .ok (entryCode t sym s) := by
  simp only [codeValue, memRead, capacity_codeSpace, tableIndex_lt_iff hsym, if_pos hblk, entryCode]

/-- The look-up of `EmitCode` (R134): its faults in order, else the stored length and the field of the stored code. -/
theorem lookupCode_eq {t : Table} {sym : Nat} (hsym : sym < t.stride) (s : State) :
    lookupCode t sym s =
      if s.cfg.maxBlocks.toNat ≤ s.blk.toNat then .error .blockOverrun
      else if entryLen t sym s = 0 then .error .zeroLen
      else if t.maxLen < entryLen t sym s then .error .lenRange
      else if 2 ^ entryLen t sym s ≤ (entryCode t sym s).toNat then .error .codeRange
      else .ok (entryLen t sym s, codeField s.cfg.codeOrder (entryCode t sym s) (entryLen t sym s)) := by
  unfold lookupCode
  rw [codeLen_eq hsym]
  by_cases hblk : s.blk.toNat < s.cfg.maxBlocks.toNat
  · rw [if_pos hblk, if_neg (Nat.not_le.2 hblk), codeValue_of_lt hsym hblk]
    simp only [checkCode, entryLen]
    split_ifs with hzero hmax hcode <;> simp only [*, if_true, if_false]
  · rw [if_neg hblk, if_pos (Nat.not_lt.1 hblk)]

theorem lookupCode_of_good {t : Table} {sym : Nat} {s : State} (h : GoodEntry t sym s) :
    lookupCode t sym s =
      .ok (entryLen t sym s, codeField s.cfg.codeOrder (entryCode t sym s) (entryLen t sym s)) := by
  obtain ⟨hblk, hsym, hpos, hmax, hcode⟩ := h
  rw [lookupCode_eq hsym, if_neg (Nat.not_le.2 hblk), if_neg (Nat.ne_of_gt hpos), if_neg (Nat.not_lt.2 hmax),
    if_neg (Nat.not_le.2 hcode)]

theorem emitCode_of_error {t : Table} {sym : Nat} {s : State} {c : FaultCode} (h : lookupCode t sym s = .error c) :
    emitCode t sym s = .error (raise c s) := by
  rw [emitCode, h]

/-- Settles O26, by the look-up's rule in each of its branches. -/
theorem emitCodeFollowsItsRule : Obligations.EmitCodeFollowsItsRule := by
  intro t sym s hsym
  unfold emitCode
  rw [lookupCode_eq hsym]
  split_ifs
  case neg => cases s.cfg.codeOrder <;> rfl
  all_goals rfl

/-! ## The bits of a code -/

/-- A reversed field is the field read from its top bit down (R11, R109). -/
theorem fieldBits_rev (v : Word) {n : Nat} (hn : n ≤ 32) : fieldBits (rev v n) n = (fieldBits v n).reverse := by
  refine List.ext_getElem (by simp) fun i hi _ => ?_
  have hin : i < n := by simpa using hi
  simp only [fieldBits, List.getElem_map, List.getElem_range, List.getElem_reverse, List.length_map, List.length_range,
    getLsbD_rev v n hn, hin, decide_true, Bool.true_and]

theorem fieldBits_codeField (t : Table) (sym : Nat) (s : State) (hlen : entryLen t sym s ≤ 32) :
    fieldBits (codeField s.cfg.codeOrder (entryCode t sym s) (entryLen t sym s)) (entryLen t sym s) =
      codeBits t sym s := by
  unfold codeBits
  cases s.cfg.codeOrder with
  | reversed => rfl
  | canonical => exact fieldBits_rev _ hlen

theorem Table.maxLen_le (t : Table) : t.maxLen ≤ 15 := by
  cases t <;> decide

/-- `EmitCode` on an entry in range writes the entry's code (R134). -/
theorem emitCode_writes {t : Table} {sym : Nat} {s : State} (h : PackerReady s) (hg : GoodEntry t sym s) :
    Writes (codeBits t sym s) s (emitCode t sym s) := by
  have hlook := lookupCode_of_good hg
  obtain ⟨-, -, -, hmax, hcode⟩ := hg
  have hlen := hmax.trans t.maxLen_le
  unfold emitCode
  rw [hlook, ← fieldBits_codeField t sym s (by omega)]
  exact putBits_writes h (by omega) (codeField_toNat_lt _ (by omega) hcode)

theorem Room.packerReady {n : Nat} {s : State} (h : Room n s) (hw : Arrays.wf s.mem = true) (hp : Packed s) :
    PackerReady s :=
  ⟨hw, hp, (Nat.le_add_right _ _).trans h⟩

/-- Settles O27, by what `EmitCode` writes. -/
theorem emitCodeAppendsCode : Obligations.EmitCodeAppendsCode := by
  intro t sym s hw hp hg hroom
  obtain ⟨u, hu, hst, -, happ⟩ := (emitCode_writes (hroom.packerReady hw hp) hg).room (by rwa [codeBits_length])
  exact ⟨u, hu, hst, happ⟩

end Sys2Proof.Machine
end

section
/-! PROOFS. What the states of a block write: extra bits, the header's fields and items, and the block flush, each as
the exact list of its bits. -/

namespace Sys2Proof.Machine

/-! ## What an emission leaves as it is -/

theorem EmitsOnly.m1 {s t : State} (h : EmitsOnly s t) : t.m1 = s.m1 := by rw [h.1]

theorem EmitsOnly.bfinal {s t : State} (h : EmitsOnly s t) : t.bfinal = s.bfinal := by rw [h.1]

theorem EmitsOnly.itemBits {s t : State} (h : EmitsOnly s t) : itemBits t = itemBits s := by
  funext i
  rw [Machine.itemBits, h.codeBits, Machine.itemBits]

theorem EmitsOnly.tableLens {s t : State} (h : EmitsOnly s t) (tb : Table) (n : Nat) :
    tableLens tb n t = tableLens tb n s :=
  List.map_congr_left fun sym _ => h.entryLen tb sym

theorem Working.packerReady {s : State} (h : Working s) : PackerReady s :=
  ⟨h.memCanonical, h.buffered.1, h.buffered.2.1⟩

/-! ## Extra bits -/

theorem putExtra_writes {v e : Nat} {s : State} (h : PackerReady s) (he : e ≤ 16) (hv : v < 2 ^ e) :
    Writes (extraBits v e) s (putExtra v e s) := by
  unfold putExtra
  split_ifs with h0
  · subst h0
    exact .nothing h
  · exact putBits_writes h he (toNat_ofNat_lt hv)

/-! ## The header -/

/-- The fields of `HDR_FIXED` (R180), before its `goto`. -/
def putFixedHeader (s : State) : Act :=
  andThen (putBits ((2#32 <<< 1) ||| s.bfinal.zeroExtend 32) 3 s) fun t =>
    andThen (putBits (BitVec.ofNat 32 (s.m0.toNat - 257)) 5 t) fun t =>
      andThen (putBits (BitVec.ofNat 32 (s.m1.toNat - 1)) 5 t) (putBits (BitVec.ofNat 32 (s.m2.toNat - 4)) 4)

theorem hdrFixed_eq (s : State) :
    hdrFixed s = finish (andThen (putFixedHeader s) fun t => .ok (goto .hdrClen t)) := by
  simp only [hdrFixed, putFixedHeader, andThen_assoc]

theorem putFixedHeader_writes {s : State} (h : PackerReady s)
    (hm : maxCodesInRange s.m0.toNat s.m1.toNat s.m2.toNat = true) :
    Writes
      (fieldBits ((2#32 <<< 1) ||| s.bfinal.zeroExtend 32) 3 ++
        (extraBits (s.m0.toNat - 257) 5 ++ (extraBits (s.m1.toNat - 1) 5 ++ extraBits (s.m2.toNat - 4) 4)))
      s (putFixedHeader s) := by
  obtain ⟨⟨-, h0⟩, ⟨-, h1⟩, -, h2⟩ := maxCodesInRange_iff.1 hm
  have hbf : ((2#32 <<< 1) ||| s.bfinal.zeroExtend 32).toNat < 2 ^ 3 := by
    generalize s.bfinal = b
    revert b
    decide
  exact (putBits_writes h (by decide) hbf).andThen fun t ht _ =>
    (putBits_writes ht (by decide) (toNat_ofNat_lt (by omega))).andThen fun t ht _ =>
      (putBits_writes ht (by decide) (toNat_ofNat_lt (by omega))).andThen fun t ht _ =>
        putBits_writes ht (by decide) (toNat_ofNat_lt (by omega))

/-- One rank of `HDR_CLEN` (R183). -/
theorem putClen_writes {sym : Nat} {s : State} (h : PackerReady s) (hblk : s.blk.toNat < s.cfg.maxBlocks.toNat)
    (hsym : sym < Table.bl.stride) (hlen : entryLen .bl sym s ≤ 7) :
    Writes (extraBits (entryLen .bl sym s) 3) s (putClen sym s) := by
  have hbits : extraBits (entryLen .bl sym s) 3 =
      fieldBits (element s.mem Table.bl.lenSpace (tableIndex .bl sym s)) 3 := by
    rw [extraBits, entryLen, BitVec.ofNat_toNat, BitVec.setWidth_eq]
  have hcheck : ¬ maxLenBl < (element s.mem Table.bl.lenSpace (tableIndex .bl sym s)).toNat := Nat.not_lt.2 hlen
  simp only [putClen, codeLen_eq hsym, if_pos hblk, if_neg hcheck, hbits]
  exact putBits_writes h (by decide) (Nat.lt_succ_of_le hlen)

/-- The ranks of `HDR_CLEN` in order (R183). -/
theorem putClens_writes {l : List Nat} {s : State} (h : PackerReady s) (hblk : s.blk.toNat < s.cfg.maxBlocks.toNat)
    (hsym : ∀ sym ∈ l, sym < Table.bl.stride) (hlen : ∀ sym ∈ l, entryLen .bl sym s ≤ 7) :
    Writes (l.flatMap fun sym => extraBits (entryLen .bl sym s) 3) s (putClens l s) := by
  induction l generalizing s with
  | nil => exact .nothing h
  | cons sym l ih =>
    rw [List.forall_mem_cons] at hsym hlen
    refine (putClen_writes h hblk hsym.1 hlen.1).andThen fun t ht happ => ?_
    have he := happ.1
    simp only [← he.entryLen] at hlen ⊢
    exact ih ht (by rwa [he.blk, he.cfg]) hsym.2 hlen.2

/-! ## The items of a tree -/

/-- One item (R188). -/
theorem putItem_writes {i : Item} {s : State} (h : PackerReady s) (hg : GoodEntry .bl i.sym s) (hf : i.fits) :
    Writes (itemBits s i) s (putItem i s) :=
  (emitCode_writes h hg).andThen fun _ ht _ => putBits_writes ht hf.1 (toNat_ofNat_lt hf.2)

theorem putItems_writes {l : List Item} {s : State} (h : PackerReady s) (hg : ∀ i ∈ l, GoodEntry .bl i.sym s)
    (hf : ∀ i ∈ l, i.fits) : Writes (l.flatMap (itemBits s)) s (putItems l s) := by
  induction l generalizing s with
  | nil => exact .nothing h
  | cons i l ih =>
    rw [List.forall_mem_cons] at hg hf
    refine (putItem_writes h hg.1 hf.1).andThen fun t ht happ => ?_
    rw [← happ.1.itemBits]
    exact ih ht (fun j hj => happ.1.goodEntry (hg.2 j hj)) hf.2

/-- A bad item among items faults after the bits of those before it (R271). -/
theorem putItems_bad {before after : List Item} {i : Item} {s : State} {c : FaultCode} (h : PackerReady s)
    (hg : ∀ j ∈ before, GoodEntry .bl j.sym s) (hf : ∀ j ∈ before, j.fits)
    (hroom : Room (before.flatMap (itemBits s)).length s) (hbad : lookupCode .bl i.sym s = .error c) :
    ∃ u, putItems (before ++ i :: after) s = .error (raise c u) ∧ Appends (before.flatMap (itemBits s)) s u := by
  obtain ⟨u, hu, -, -, happ⟩ := (putItems_writes h hg hf).room hroom
  refine ⟨u, ?_, happ⟩
  rw [putItems_append, hu, andThen_ok, putItems, putItem, emitCode_of_error (happ.1.lookupCode .bl i.sym ▸ hbad),
    andThen_error, andThen_error]

/-- The lengths `SendTree` reads when none is beyond the table's maximum (R187). -/
theorem readLens_eq {tb : Table} {k n : Nat} {s : State} (hblk : s.blk.toNat < s.cfg.maxBlocks.toNat)
    (hn : k + n ≤ tb.stride) (hlen : ∀ l ∈ (List.range' k n).map fun sym => entryLen tb sym s, l ≤ tb.maxLen) :
    readLens tb k n s = .ok ((List.range' k n).map fun sym => entryLen tb sym s) := by
  induction n generalizing k with
  | zero => rfl
  | succ n ih =>
    rw [List.range'_succ, List.map_cons, List.forall_mem_cons] at hlen
    obtain ⟨hfirst, hrest⟩ := hlen
    have hcheck : ¬ tb.maxLen < (element s.mem tb.lenSpace (tableIndex tb k s)).toNat := Nat.not_lt.2 hfirst
    simp only [readLens, codeLen_eq (show k < tb.stride by omega), if_pos hblk, if_neg hcheck,
      ih (k := k + 1) (by omega) hrest, List.range'_succ, List.map_cons, entryLen]

/-- `SendTree` writes the items of the table's lengths (R187). -/
theorem sendTree_eq {tb : Table} {n : Nat} {s : State} (hblk : s.blk.toNat < s.cfg.maxBlocks.toNat)
    (hn : n ≤ tb.stride) (hlen : ∀ l ∈ tableLens tb n s, l ≤ tb.maxLen) :
    sendTree tb n s = putItems (treeItems (tableLens tb n s)) s := by
  have hread : readLens tb 0 n s = .ok (tableLens tb n s) := by
    rw [tableLens, List.range_eq_range'] at *
    exact readLens_eq hblk (by omega) hlen
  rw [sendTree, hread]

/-- The two tables of `HDR_TREE` (R186), before its `goto`. -/
def putTrees (s : State) : Act :=
  andThen (sendTree .lit s.m0.toNat s) fun t => sendTree .dist t.m1.toNat t

theorem hdrTree_eq (s : State) : hdrTree s = finish (andThen (putTrees s) fun t => .ok (goto .writeToken t)) := by
  simp only [hdrTree, putTrees, andThen_assoc]

theorem Working.sendTree_lit {s : State} (h : Working s) (hlit : ∀ l ∈ tableLens .lit s.m0.toNat s, l ≤ 15) :
    sendTree .lit s.m0.toNat s = putItems (treeItems (tableLens .lit s.m0.toNat s)) s := by
  obtain ⟨⟨-, h0⟩, -⟩ := maxCodesInRange_iff.1 h.maxCodes
  exact sendTree_eq h.blockIndex h0 hlit

/-- With every length in range the two tables are the header's items (R186). -/
theorem Working.putTrees_eq {s : State} (h : Working s) (hlit : ∀ l ∈ tableLens .lit s.m0.toNat s, l ≤ 15)
    (hdist : ∀ l ∈ tableLens .dist s.m1.toNat s, l ≤ 15) : putTrees s = putItems (headerItems s) s := by
  obtain ⟨-, ⟨-, h1⟩, -⟩ := maxCodesInRange_iff.1 h.maxCodes
  rw [putTrees, headerItems, putItems_append, h.sendTree_lit hlit]
  cases hput : putItems (treeItems (tableLens .lit s.m0.toNat s)) s with
  | error u => rfl
  | ok t =>
    obtain ⟨he, -, -⟩ := (putItems_spec _ s h.memCanonical).ok t hput
    rw [andThen_ok, andThen_ok, he.m1, ← he.tableLens]
    exact sendTree_eq (by rw [he.blk, he.cfg]; exact h.blockIndex) h1 (by rwa [he.tableLens])

theorem headerItems_fit (s : State) : ∀ i ∈ headerItems s, i.fits := by
  intro i hi
  rcases List.mem_append.1 hi with hi | hi <;> exact treeItems_fit _ i hi

/-- The header's items, all in range (R186 to R188). -/
theorem Working.putTrees_writes {s : State} (h : Working s) (hlit : ∀ l ∈ tableLens .lit s.m0.toNat s, l ≤ 15)
    (hdist : ∀ l ∈ tableLens .dist s.m1.toNat s, l ≤ 15) (hg : ∀ i ∈ headerItems s, GoodEntry .bl i.sym s) :
    Writes ((headerItems s).flatMap (itemBits s)) s (putTrees s) := by
  rw [h.putTrees_eq hlit hdist]
  exact putItems_writes h.packerReady hg (headerItems_fit s)

/-! ## The block flush -/

/-- The bits of the block flush when `n` bits of the current byte are there: those of the sync marker (R107), or padding
(R251, R252). -/
def flushBits (n : Nat) (s : State) : List Bool :=
  if s.cfg.flush = .sync ∧ s.bfinal = 0#1 then
    List.replicate 3 false ++
      (padBits (n + 3) ++ (byteBits 0x00 ++ (byteBits 0x00 ++ (byteBits 0xFF ++ byteBits 0xFF))))
  else padBits n

@[simp] theorem flushBits_length (n : Nat) (s : State) : (flushBits n s).length = flushLength n s := by
  unfold flushBits flushLength
  split_ifs
  · simp only [List.length_append, List.length_replicate, padBits_length, byteBits_length]
    omega
  · exact padBits_length n

/-- Only the position within the byte matters. -/
theorem padBits_mod (n : Nat) : padBits (n % 8) = padBits n := by
  rw [padBits, Nat.mod_mod, padBits]

theorem flushBits_mod (n : Nat) (s : State) : flushBits (n % 8) s = flushBits n s := by
  rw [flushBits, padBits_mod, ← padBits_mod (n % 8 + 3), Nat.mod_add_mod, padBits_mod, flushBits]

theorem EmitsOnly.flushBits {s t : State} (h : EmitsOnly s t) (n : Nat) : flushBits n t = flushBits n s := by
  unfold Machine.flushBits
  rw [h.cfg, h.bfinal]

/-- A whole byte leaves the byte boundary where it is. -/
theorem Appends.aligned {b : Byte} {s t : State} (h : Appends (byteBits b) s t) (h0 : s.nbits.toNat = 0) :
    t.nbits.toNat = 0 := by
  rw [h.nbits, byteBits_length, h0]

/-- `FlushSync` (R251): three zero bits, the padding they leave, and the four bytes. -/
theorem flushSync_writes {s : State} (h : PackerReady s) :
    Writes
      (List.replicate 3 false ++
        (padBits (s.nbits.toNat + 3) ++ (byteBits 0x00 ++ (byteBits 0x00 ++ (byteBits 0xFF ++ byteBits 0xFF)))))
      s (flushSync s) := by
  rw [← fieldBits_zero]
  refine (putBits_writes h (by decide) (by decide)).andThen fun t ht happ => ?_
  have hnb := happ.nbits
  rw [fieldBits_length] at hnb
  rw [← padBits_mod, ← hnb]
  exact (padToByte_writes ht).andThen fun t ht hp =>
    (outByte_writes ht hp.padded).andThen fun t ht h1 =>
      (outByte_writes ht (h1.aligned hp.padded)).andThen fun t ht h2 =>
        (outByte_writes ht (h2.aligned (h1.aligned hp.padded))).andThen fun t ht h3 =>
          outByte_writes ht (h3.aligned (h2.aligned (h1.aligned hp.padded)))

/-- The block flush (R250 to R252). -/
theorem flushBlock_writes {s : State} (h : PackerReady s) : Writes (flushBits s.nbits.toNat s) s (flushBlock s) := by
  unfold flushBlock flushBits
  split_ifs
  · exact flushSync_writes h
  · exact padToByte_writes h

/-- `SEND_OUTPUT` before `RecordSize` (R250): the code of EOB, then the flush. -/
theorem blockEnd_writes {s : State} (h : PackerReady s) (hg : GoodEntry .lit eobSymbol s) :
    Writes (codeBits .lit eobSymbol s ++ flushBits (s.nbits.toNat + entryLen .lit eobSymbol s) s) s
      (andThen (emitCode .lit eobSymbol s) flushBlock) := by
  refine (emitCode_writes h hg).andThen fun t ht happ => ?_
  have hnb := happ.nbits
  rw [codeBits_length] at hnb
  rw [← flushBits_mod, ← hnb, ← happ.1.flushBits]
  exact flushBlock_writes ht

theorem sendOutput_eq (s : State) :
    sendOutput s =
      finish (andThen (andThen (emitCode .lit eobSymbol s) flushBlock) fun t =>
        andThen (recordSize t) fun t => .ok (nextOrDone t)) := by
  rw [sendOutput, andThen_assoc]

end Sys2Proof.Machine
end

section
/-! PROOFS. The faults of the emitting states: the first bad table entry (O33), and a buffer without room for the bits
of the step (O34). -/

namespace Sys2Proof.Machine

/-! ## Bad entries -/

theorem exec_litRep {s : State} (hf : s.fault = none) (hs : s.st = .litRep) :
    exec (.lit s.tLit) s = .next (litRep s) := by
  simp [exec, execLit, atToken, atState, hf, hs]

theorem exec_mlDistRep {s : State} (hf : s.fault = none) (hs : s.st = .mlDistRep) :
    exec (.matchTok s.tLen s.tOff) s = .next (mlDistRep s) := by
  simp [exec, execMatch, atToken, atState, latchedMatch, hf, hs]

theorem exec_distRep {s : State} (hf : s.fault = none) (hs : s.st = .distRep) :
    exec (.matchTok s.tLen s.tOff) s = .next (distRep s) := by
  simp [exec, execMatch, atToken, atState, latchedMatch, hf, hs]

/-- A step whose look-up is bad ends with that raise (R134, R271). -/
theorem finish_emitCode_of_error {t : Table} {sym : Nat} {s : State} {c : FaultCode}
    (h : lookupCode t sym s = .error c) (k : State → Act) : finish (andThen (emitCode t sym s) k) = raise c s := by
  rw [emitCode_of_error h, andThen_error, finish_error]

/-- An element of the first of two lists, found by its position, splits that list. -/
theorem eq_append_cons_of_append_eq {α : Type} {a b before after : List α} {x : α}
    (h : a ++ b = before ++ x :: after) (hlt : before.length < a.length) : ∃ rest, a = before ++ x :: rest := by
  rcases List.append_eq_append_iff.1 h with ⟨pre, rfl, -⟩ | ⟨rest, rfl, hrest⟩
  · rw [List.length_append] at hlt
    omega
  · cases rest with
    | nil => simp at hlt
    | cons y rest =>
      obtain ⟨rfl, -⟩ := List.cons.inj hrest
      exact ⟨rest, rfl⟩

/-- `HDR_TREE` takes the fault of its first bad item. An item of the literal/length table is reached whatever the
distance lengths are, since each table's lengths are read when its turn comes (R186, R187). -/
theorem Working.putTrees_bad {s : State} (h : Working s) (hlit : ∀ l ∈ tableLens .lit s.m0.toNat s, l ≤ 15)
    {before after : List Item} {i : Item} {c : FaultCode} (hitems : headerItems s = before ++ i :: after)
    (hreach : before.length < (treeItems (tableLens .lit s.m0.toNat s)).length ∨
      ∀ l ∈ tableLens .dist s.m1.toNat s, l ≤ 15)
    (hg : ∀ j ∈ before, GoodEntry .bl j.sym s) (hroom : Room (before.flatMap (itemBits s)).length s)
    (hbad : lookupCode .bl i.sym s = .error c) :
    ∃ u, putTrees s = .error (raise c u) ∧ Appends (before.flatMap (itemBits s)) s u := by
  have hfit : ∀ j ∈ before, j.fits := fun j hj =>
    headerItems_fit s j (hitems ▸ List.mem_append_left _ hj)
  rcases hreach with hlt | hdist
  · obtain ⟨rest, hsplit⟩ := eq_append_cons_of_append_eq hitems hlt
    obtain ⟨u, hu, happ⟩ := putItems_bad (after := rest) h.packerReady hg hfit hroom hbad
    exact ⟨u, by rw [putTrees, h.sendTree_lit hlit, hsplit, hu, andThen_error], happ⟩
  · rw [h.putTrees_eq hlit hdist, hitems]
    exact putItems_bad h.packerReady hg hfit hroom hbad

/-- Settles O33: a bad look-up is the step's first raise, in `HDR_TREE` after the items before it. -/
theorem badEntriesFault : Obligations.BadEntriesFault := by
  intro b len off s c hf
  refine ⟨?_, ?_, ?_, ?_, ?_⟩
  · rintro hs rfl hbad
    rw [exec_litRep hf hs]
    exact congrArg Host.Outcome.next (finish_emitCode_of_error hbad _)
  · rintro hs rfl rfl hbad
    rw [exec_mlDistRep hf hs]
    exact congrArg Host.Outcome.next
      (finish_emitCode_of_error (s := { s with lc := BitVec.ofNat 5 (lcode s.tLen.toNat) }) hbad _)
  · rintro hs rfl rfl hbad
    rw [exec_distRep hf hs]
    exact congrArg Host.Outcome.next
      (finish_emitCode_of_error (s := { s with dc := BitVec.ofNat 5 (dcode s.tOff.toNat) }) hbad _)
  · intro ht hs hbad
    rw [step_sendOutput ht hf hs, sendOutput]
    exact congrArg Host.Outcome.next (finish_emitCode_of_error hbad _)
  · intro hinv ht hs hlit before i after hitems hreach hg hroom hbad
    obtain ⟨u, hu, happ⟩ := (hinv.working (by rw [hs]; rfl)).putTrees_bad hlit hitems hreach hg hroom hbad
    refine ⟨u, ?_, happ⟩
    rw [step_hdrTree ht hf hs, hdrTree_eq, hu]
    rfl

/-! ## A full buffer -/

/-- The core's step, once the code latch is written, writes n bits before anything else. -/
def StepWrites (n : Nat) (s : State) : Prop :=
  ∃ (bits : List Bool) (a : Act) (k : State → Act),
    coreStep s = finish (andThen a k) ∧ Writes bits (latchCode s) a ∧ bits.length = n

/-- A state that writes no code latch. -/
theorem StepWrites.unlatched {n : Nat} {s : State} {bits : List Bool} {a : Act} {k : State → Act}
    (hlatch : s.st ≠ .mlDistRep ∧ s.st ≠ .distRep) (hstep : coreStep s = finish (andThen a k)) (hw : Writes bits s a)
    (hlen : bits.length = n) : StepWrites n s :=
  ⟨bits, a, k, hstep, by rwa [latchCode_eq_self hlatch.1 hlatch.2], hlen⟩

theorem latchCode_mlDistRep {s : State} (hs : s.st = .mlDistRep) :
    latchCode s = { s with lc := BitVec.ofNat 5 (lcode s.tLen.toNat) } := by
  rw [latchCode, if_pos hs, if_neg (by simp [hs])]

theorem latchCode_distRep {s : State} (hs : s.st = .distRep) :
    latchCode s = { s with dc := BitVec.ofNat 5 (dcode s.tOff.toNat) } := by
  rw [latchCode, if_pos hs, if_neg (by simp [hs])]

/-- A code latch is no part of an entry, so a code is written as before it. -/
theorem PackerReady.emitCode_latchCode {t : Table} {sym : Nat} {s : State} (h : PackerReady s)
    (hg : GoodEntry t sym s) : Writes (codeBits t sym s) (latchCode s) (emitCode t sym (latchCode s)) :=
  emitCode_writes (s := latchCode s) ⟨h.memCanonical, h.packed, h.bounded⟩ hg

theorem blOrder_lt : ∀ sym ∈ blOrder, sym < Table.bl.stride := by decide

/-- A 3-bit field for each rank. -/
theorem flatMap_extraBits_length (l : List Nat) (f : Nat → Nat) :
    (l.flatMap fun sym => extraBits (f sym) 3).length = 3 * l.length := by
  simp [List.length_flatMap, Nat.mul_comm]

/-- With good entries the step of an emitting state writes `stepBits` bits (R101). -/
theorem Inv.stepWrites {s : State} (h : Inv s) (hin : s.st.inBlock = true) (hne : s.st ≠ .writeToken)
    (hg : EntriesGood s) : StepWrites (stepBits s) s := by
  have hwork := h.working hin
  have hready := hwork.packerReady
  unfold EntriesGood at hg
  cases hs : s.st <;> rw [hs] at hin hne hg <;> simp only [stepBits, hs]
  case writeToken => exact absurd rfl hne
  case idle => cases hin
  case blkStart => cases hin
  case fault => cases hin
  case hdrFixed =>
    exact .unlatched (by simp [hs]) (by rw [coreStep, hs, hdrFixed_eq]) (putFixedHeader_writes hready hwork.maxCodes)
      (by simp)
  case hdrClen =>
    obtain ⟨-, -, -, h2⟩ := maxCodesInRange_iff.1 hwork.maxCodes
    have hsym : ∀ sym ∈ blOrder.take s.m2.toNat, sym < Table.bl.stride :=
      fun sym hsym => blOrder_lt sym (List.mem_of_mem_take hsym)
    refine .unlatched (by simp [hs]) (by rw [coreStep, hs, hdrClen])
      (putClens_writes hready hwork.blockIndex hsym hg) ?_
    rw [flatMap_extraBits_length, List.length_take, Nat.min_eq_left (show s.m2.toNat ≤ blOrder.length from h2)]
  case hdrTree =>
    obtain ⟨hlit, hdist, hitems⟩ := hg
    exact .unlatched (by simp [hs]) (by rw [coreStep, hs, hdrTree_eq]) (hwork.putTrees_writes hlit hdist hitems) rfl
  case litRep =>
    exact .unlatched (by simp [hs]) (by rw [coreStep, hs, litRep]) (emitCode_writes hready hg) (codeBits_length _ _ _)
  case mlDistRep =>
    exact ⟨_, emitCode .lit (257 + lcode s.tLen.toNat) (latchCode s), _,
      by rw [coreStep, hs, mlDistRep, latchCode_mlDistRep hs], hready.emitCode_latchCode hg, codeBits_length _ _ _⟩
  case mlExtra =>
    obtain ⟨h3, -⟩ := h.matchLatch (by rw [hs]; rfl)
    obtain ⟨-, hfit, hle⟩ := lengthExtra_fits h3 s.tLen.isLt
    exact .unlatched (by simp [hs]) (by rw [coreStep, hs, mlExtra, h.lengthCode hs]) (putExtra_writes hready hle hfit)
      (extraBits_length _ _)
  case distRep =>
    exact ⟨_, emitCode .dist (dcode s.tOff.toNat) (latchCode s), _,
      by rw [coreStep, hs, distRep, latchCode_distRep hs], hready.emitCode_latchCode hg, codeBits_length _ _ _⟩
  case distExtra =>
    obtain ⟨-, hoff⟩ := h.matchLatch (by rw [hs]; rfl)
    obtain ⟨-, hfit, hle⟩ := distanceExtra_fits hoff
    exact .unlatched (by simp [hs]) (by rw [coreStep, hs, distExtra, h.distanceCode hs])
      (putExtra_writes hready hle hfit) (extraBits_length _ _)
  case sendOutput =>
    refine .unlatched (by simp [hs]) (by rw [coreStep, hs, sendOutput_eq]) (blockEnd_writes hready hg) ?_
    rw [List.length_append, codeBits_length, flushBits_length]
    rfl

/-- Settles O34: a step that writes more bits than `OUT` has room for overflows while it writes them. -/
theorem fullBufferFaults : Obligations.FullBufferFaults := by
  intro s hinv ht hin hne hg hfull
  have hf : s.fault = none := (hinv.working hin).noFault
  have hst : s.st ≠ .fault := fun hs => by rw [hs] at hin; cases hin
  obtain ⟨bits, a, k, hstep, hw, hlen⟩ := hinv.stepWrites hin hne hg
  obtain ⟨u, rfl, hu, -, hop⟩ := hw.full (by rwa [hlen])
  refine ⟨u, ?_, hu, hop⟩
  rw [step_core ht hf hst, perform_coreMove hf, hstep]
  rfl

end Sys2Proof.Machine
end

section
/-! PROOFS. How a core step of a running invocation ends, in terms of the counters that account for the input
(R155, R157, R160). -/

namespace Sys2Proof.Machine

/-- t has the counters of R30 and R31, the input size and the sizes in `DESC` of s. -/
structure SameAccount (s t : State) : Prop where
  desc : t.mem.desc = s.mem.desc
  blk : t.blk = s.blk
  consumed : t.consumed = s.consumed
  blkRem : t.blkRem = s.blkRem
  latInputSize : t.latInputSize = s.latInputSize

theorem SameAccount.refl (s : State) : SameAccount s s := ⟨rfl, rfl, rfl, rfl, rfl⟩

theorem EmitsOnly.sameAccount {s t : State} (h : EmitsOnly s t) : SameAccount s t := by
  rw [h.1]
  exact ⟨rfl, rfl, rfl, rfl, rfl⟩

theorem latchCode_sameAccount (s : State) : SameAccount s (latchCode s) := ⟨rfl, rfl, rfl, rfl, rfl⟩

theorem SameAccount.trans {s t u : State} (h : SameAccount s t) (h' : SameAccount t u) : SameAccount s u :=
  ⟨h'.desc.trans h.desc, h'.blk.trans h.blk, h'.consumed.trans h.consumed, h'.blkRem.trans h.blkRem,
    h'.latInputSize.trans h.latInputSize⟩

/-- The next state after the emission of a state whose step only emits (R157). -/
def emitNext : St → Option St
  | .hdrFixed => some .hdrClen
  | .hdrClen => some .hdrTree
  | .hdrTree => some .writeToken
  | .litRep => some .writeToken
  | .mlDistRep => some .mlExtra
  | .mlExtra => some .distRep
  | .distRep => some .distExtra
  | .distExtra => some .writeToken
  | _ => none

/-- A code latch apart, such a step only emits or raises. -/
theorem coreStep_emitStep {s : State} {x : St} (hw : Arrays.wf s.mem = true) (hx : emitNext s.st = some x) :
    EmitStep (latchCode s) (coreStep s) x := by
  unfold coreStep
  cases hs : s.st <;> rw [hs] at hx <;> cases hx
  case mlDistRep =>
    rw [latchCode_mlDistRep hs]
    exact mlDistRep_step s hw
  case distRep =>
    rw [latchCode_distRep hs]
    exact distRep_step s hw
  all_goals rw [latchCode_eq_self (by simp [hs]) (by simp [hs])]
  case hdrFixed => exact hdrFixed_step s hw
  case hdrClen => exact hdrClen_step s hw
  case hdrTree => exact hdrTree_step s hw
  case litRep => exact litRep_step s hw
  case mlExtra => exact mlExtra_step s hw
  case distExtra => exact distExtra_step s hw

/-- t is s with one block more finished; another begins, or the input is used up and the invocation completes (R255,
R257). -/
structure BlockSent (s t : State) : Prop where
  desc : t.mem.desc = s.mem.desc
  blk : t.blk = s.blk + 1
  consumed : t.consumed = s.consumed
  latInputSize : t.latInputSize = s.latInputSize
  ends : t.st = .blkStart ∨ t.st = .idle ∧ t.done = true ∧ t.consumed = t.latInputSize

/-- `SEND_OUTPUT` finishes the block, or raises (R250). -/
theorem sendOutput_ends {s : State} (hw : Arrays.wf s.mem = true) :
    BlockSent s (sendOutput s) ∨ ∃ u c, sendOutput s = raise c u ∧ SameAccount s u := by
  rcases sendOutput_cases s hw with ⟨u, he, -, -, -, heq⟩ | ⟨u, c, heq, -, he, -⟩
  · obtain ⟨hdesc, hblk, hcon, -, hlat⟩ := he.sameAccount
    rw [heq]
    unfold nextOrDone
    split_ifs with hend
    · exact .inl ⟨hdesc, congrArg (· + 1) hblk, hcon, hlat, .inr ⟨rfl, rfl, hend⟩⟩
    · exact .inl ⟨hdesc, congrArg (· + 1) hblk, hcon, hlat, .inl rfl⟩
  · exact .inr ⟨u, c, heq, he.sameAccount⟩

/-- How a core step of a running invocation ends. -/
inductive Advance (s : State) : State → Prop
  /-- A raise, with the account as it was (R271). -/
  | raised {u : State} (c : FaultCode) (hu : SameAccount s u) : Advance s (raise c u)
  /-- `BLK_START` opens a block of `DESC[blk]` bytes (R152). -/
  | opened (a b c : Word) (hs : s.st = .blkStart) : Advance s (openBlock (element s.mem .desc s.blk.toNat) a b c s)
  /-- The header's states, `LIT_REP` and the match states emit and go on. -/
  | emitted {t : State} (hs : emitNext s.st = some t.st) (ht : SameAccount s t) : Advance s t
  /-- `WRITE_TOKEN` accepts a token of `n` bytes (R155). -/
  | token {u : State} {n : Word} {x : St} (hs : s.st = .writeToken) (hu : SameAccount s u) (hpos : 1 ≤ n.toNat)
      (hle : n.toNat ≤ s.blkRem.toNat) (hx : x = .litRep ∨ x = .mlDistRep) : Advance s (goto x (countBytes n u))
  /-- `WRITE_TOKEN` at the block's end (R155). -/
  | blockEnd (hs : s.st = .writeToken) (hrem : s.blkRem = 0#32) : Advance s (goto .sendOutput s)
  /-- `SEND_OUTPUT` finishes the block (R250). -/
  | sent {t : State} (hs : s.st = .sendOutput) (ht : BlockSent s t) : Advance s t

theorem advance_acceptToken {s : State} (hs : s.st = .writeToken) (hrem : s.blkRem ≠ 0#32) (i : Instr)
    (hlen : ∀ len off, i = .matchTok len off → 3 ≤ len.toNat) : Advance s (acceptToken i s) := by
  cases i with
  | lit b =>
    have hpos : s.blkRem.toNat ≠ 0 := fun h => hrem (BitVec.eq_of_toNat_eq h)
    exact .token (u := { nextToken s with tLit := b }) (n := 1) hs ⟨rfl, rfl, rfl, rfl, rfl⟩ le_rfl
      (Nat.pos_of_ne_zero hpos) (.inl rfl)
  | matchTok len off =>
    show Advance s (acceptMatch len off s)
    rcases acceptMatch_cases len off s with ⟨-, hle, -, heq⟩ | ⟨c, heq⟩
    · have hn : (len.zeroExtend 32).toNat = len.toNat := BitVec.toNat_setWidth_of_le (by decide)
      have h3 := hlen len off rfl
      rw [heq]
      exact .token (u := { nextToken s with tLen := len, tOff := off }) (n := len.zeroExtend 32) hs
        ⟨rfl, rfl, rfl, rfl, rfl⟩ (by omega) (by omega) (.inr rfl)
    · rw [heq]
      exact .raised c ⟨rfl, rfl, rfl, rfl, rfl⟩
  | _ => exact .raised .tokenRsv ⟨rfl, rfl, rfl, rfl, rfl⟩

theorem advance_writeToken {s : State} (hs : s.st = .writeToken) : Advance s (writeToken s) := by
  unfold writeToken
  split_ifs with hrem hp
  · exact .blockEnd hs hrem
  · exact advance_acceptToken hs hrem _ fun len off => three_le_of_decodeToken
  · exact .raised .tokenOverrun (.refl s)

theorem EmitStep.advance {s t : State} {x : St} (h : EmitStep (latchCode s) t x) (hx : emitNext s.st = some x) :
    Advance s t := by
  rcases h with ⟨he, hst, -⟩ | ⟨u, c, rfl, -, he, -⟩
  · exact .emitted (hst ▸ hx) ((latchCode_sameAccount s).trans he.sameAccount)
  · exact .raised c ((latchCode_sameAccount s).trans he.sameAccount)

/-- Every core step of a running invocation advances it. -/
theorem coreStep_advance {s : State} (hw : Arrays.wf s.mem = true) (hb : s.st.busy = true) :
    Advance s (coreStep s) := by
  cases hx : emitNext s.st with
  | some x => exact (coreStep_emitStep hw hx).advance hx
  | none =>
    unfold coreStep
    cases hs : s.st <;> rw [hs] at hx hb <;> simp only
    case blkStart =>
      rcases blkStart_cases s with ⟨c, heq⟩ | ⟨bs, a, b, c, heq, rfl, -⟩ <;> rw [heq]
      · exact .raised c (.refl s)
      · exact .opened a b c hs
    case writeToken => exact advance_writeToken hs
    case sendOutput =>
      rcases sendOutput_ends hw with hsent | ⟨u, c, heq, hu⟩
      · exact .sent hs hsent
      · rw [heq]
        exact .raised c hu
    case idle => cases hb
    case fault => cases hb
    all_goals cases hx

end Sys2Proof.Machine
end

section
/-! PROOFS. The account of the input: the finished blocks' sizes and the covered part of the block at work are the bytes
consumed (O57). -/

namespace Sys2Proof.Machine

/-! ## The account by kind of state -/

theorem inputAccounted_of_not_busy {s : State} (h : s.st.busy = false) : InputAccounted s :=
  fun hb => by rw [h] at hb; cases hb

theorem busy_of_inBlock {x : St} (h : x.inBlock = true) : x.busy = true := by simp [St.busy, h]

/-- Outside a running invocation the core is idle or faulted. -/
theorem idle_or_fault_of_not_busy {x : St} (h : ¬ x.busy = true) : x = .idle ∨ x = .fault := by
  revert h
  cases x <;> decide

/-- Inside a block the account has the covered part of `DESC[blk]`. -/
theorem inputAccounted_inBlock {s : State} (h : s.st.inBlock = true) :
    InputAccounted s ↔
      s.blkRem.toNat ≤ (element s.mem .desc s.blk.toNat).toNat ∧
        descSum s.mem s.blk.toNat + ((element s.mem .desc s.blk.toNat).toNat - s.blkRem.toNat) = s.consumed.toNat := by
  simp [InputAccounted, busy_of_inBlock h, h]

theorem inputAccounted_blkStart {s : State} (h : s.st = .blkStart) :
    InputAccounted s ↔ descSum s.mem s.blk.toNat = s.consumed.toNat := by
  simp [InputAccounted, h, St.busy, St.inBlock]

theorem element_desc_congr {a b : Arrays} (h : b.desc = a.desc) (i : Nat) : element b .desc i = element a .desc i :=
  congrArg (Memory.readWord · i) h

theorem descSum_congr {a b : Arrays} (h : b.desc = a.desc) (n : Nat) : descSum b n = descSum a n := by
  induction n with
  | zero => rfl
  | succ n ih => rw [descSum, descSum, ih, element_desc_congr h]

/-- Between two states of a block the account carries over. -/
theorem SameAccount.inputAccounted {s t : State} (h : SameAccount s t) (hs : s.st.inBlock = true)
    (ht : t.st.inBlock = true) (ha : InputAccounted s) : InputAccounted t := by
  rw [inputAccounted_inBlock ht, descSum_congr h.desc, element_desc_congr h.desc, h.blk, h.consumed, h.blkRem]
  exact (inputAccounted_inBlock hs).1 ha

/-! ## Steps of the core -/

theorem emitNext_inBlock {x y : St} (h : emitNext x = some y) : x.inBlock = true ∧ y.inBlock = true := by
  cases x <;> cases h <;> exact ⟨rfl, rfl⟩

/-- A token's bytes move from `blk_rem` to `consumed` as numbers, since the input has them (R155). -/
theorem Working.countBytes_toNat {s : State} (h : Working s) {n : Word} (hn : n.toNat ≤ s.blkRem.toNat) :
    (s.blkRem - n).toNat = s.blkRem.toNat - n.toNat ∧ (s.consumed + n).toNat = s.consumed.toNat + n.toNat := by
  have hin := h.input
  have hlat := s.latInputSize.isLt
  exact ⟨BitVec.toNat_sub_of_le hn, BitVec.toNat_add_of_lt (by omega)⟩

/-- At `SEND_OUTPUT` the block is covered whole: its size completes the sum of the finished blocks' sizes (R160). -/
theorem BlockSent.covered {s t : State} (ht : BlockSent s t) (h : Inv s) (hs : s.st = .sendOutput)
    (ha : InputAccounted s) : descSum t.mem t.blk.toNat = t.consumed.toNat := by
  have hin : s.st.inBlock = true := by rw [hs]; rfl
  have hblk : t.blk.toNat = s.blk.toNat + 1 := by rw [ht.blk, toNat_add_one (h.working hin).blockIndex]
  obtain ⟨-, hsum⟩ := (inputAccounted_inBlock hin).1 ha
  rw [hblk, descSum_congr ht.desc, ht.consumed, ← hsum, h.blockEnd hs]
  rfl

theorem Advance.inputAccounted {s t : State} (hadv : Advance s t) (h : Inv s) (ha : InputAccounted s) :
    InputAccounted t := by
  cases hadv with
  | raised c hu => exact inputAccounted_of_not_busy rfl
  | opened a b c hs =>
    refine (inputAccounted_inBlock rfl).2 ⟨le_rfl, ?_⟩
    show descSum s.mem s.blk.toNat +
      ((element s.mem .desc s.blk.toNat).toNat - (element s.mem .desc s.blk.toNat).toNat) = s.consumed.toNat
    rw [Nat.sub_self]
    exact (inputAccounted_blkStart hs).1 ha
  | emitted hs ht =>
    obtain ⟨hin, hout⟩ := emitNext_inBlock hs
    exact ht.inputAccounted hin hout ha
  | @token u n x hs hu hpos hle hx =>
    have hin : s.st.inBlock = true := by rw [hs]; rfl
    obtain ⟨hrem, hsum⟩ := (inputAccounted_inBlock hin).1 ha
    obtain ⟨hsub, hadd⟩ := (h.working hin).countBytes_toNat hle
    have hx' : x.inBlock = true := by rcases hx with rfl | rfl <;> rfl
    rw [inputAccounted_inBlock hx']
    simp only [goto_mem, goto_blk, goto_consumed, goto_blkRem, countBytes_mem, countBytes_blk, countBytes_consumed,
      countBytes_blkRem]
    rw [descSum_congr hu.desc, element_desc_congr hu.desc, hu.blk, hu.consumed, hu.blkRem, hsub, hadd]
    omega
  | blockEnd hs hrem =>
    have hin : s.st.inBlock = true := by rw [hs]; rfl
    have hsame : SameAccount s (goto .sendOutput s) := ⟨rfl, rfl, rfl, rfl, rfl⟩
    exact hsame.inputAccounted hin rfl ha
  | sent hs ht =>
    rcases ht.ends with hst | ⟨hst, -⟩
    · exact (inputAccounted_blkStart hst).2 (ht.covered h hs ha)
    · exact inputAccounted_of_not_busy (congrArg St.busy hst)

/-- A turn of the core keeps the account: a core that is idle or faulted has none. -/
theorem inputAccounted_coreStep {s : State} (h : Inv s) (ha : InputAccounted s) : InputAccounted (coreStep s) := by
  by_cases hb : s.st.busy = true
  · exact (coreStep_advance h.memCanonical hb).inputAccounted h ha
  · rwa [coreStep_eq_self (idle_or_fault_of_not_busy hb)]

/-! ## Moves of the host -/

theorem inputAccounted_start {s t : State} (ha : InputAccounted s) (ht : exec .start s = .next t) :
    InputAccounted t := by
  rw [exec_start_eq] at ht
  cases ht
  split_ifs with hacc hsize
  · exact inputAccounted_of_not_busy (by rw [setDone_st]; exact congrArg St.busy hacc.1)
  · exact (inputAccounted_blkStart rfl).2 rfl
  · exact ha

/-- A host write lands only while `CTRL.IDLE` reads 1 (R71(e)). -/
theorem idle_of_hostWriteArray {s t : State} {sp : Space} {i : Nat} {v : Word}
    (h : hostWriteArray sp i v s = .next t) : s.st = .idle ∧ t = { s with mem := withElement s.mem sp i v } := by
  unfold hostWriteArray at h
  split_ifs at h with hcap hidle
  cases h
  exact ⟨idleFlag_iff.1 hidle, rfl⟩

/-- A move of the host is START, or leaves the core idle, or moves only the argument registers and the host's
own fields. -/
theorem hostMove_frame {s t : State} {a : HostAct} (h : perform (hostMove a s) = .next t) :
    exec .start s = .next t ∨ t.st = .idle ∨
      t = { s with
        inputSize := t.inputSize, blockSizeKb := t.blockSizeKb, hostRd := t.hostRd, drawn := t.drawn } := by
  cases a with
  | writeCtrl off width v =>
    simp only [hostMove, hostWriteCtrl, decodeCtrl] at h
    split_ifs at h
    · cases h
    · cases h
    · exact .inl h
    · cases h
      exact .inr (.inr rfl)
    · cases h
      unfold ctrlWrite
      split_ifs <;> exact .inr (.inr rfl)
  | readCtrl off width =>
    simp only [hostMove, hostReadCtrl] at h
    split_ifs at h <;> cases h
    exact .inr (.inr rfl)
  | writeArray sp i v =>
    obtain ⟨hidle, rfl⟩ := idle_of_hostWriteArray h
    exact .inr (.inl hidle)
  | readArray sp i =>
    simp only [hostMove, perform_answer, hostReadArray] at h
    split_ifs at h <;> cases h <;> exact .inr (.inr rfl)
  | reset =>
    cases h
    exact .inr (.inl rfl)

/-- A move of the host keeps the account: it writes an array only while the core is idle, and no register of the account
but by START and reset. -/
theorem inputAccounted_hostMove {s t : State} {a : HostAct} (ha : InputAccounted s)
    (ht : perform (hostMove a s) = .next t) : InputAccounted t := by
  rcases hostMove_frame ht with h | h | h
  · exact inputAccounted_start ha h
  · exact inputAccounted_of_not_busy (congrArg St.busy h)
  · rw [h]
    exact ha

theorem inputAccounted_coreMove {s t : State} (h : Inv s) (ha : InputAccounted s)
    (ht : perform (coreMove s) = .next t) : InputAccounted t := by
  by_cases hf : s.fault = none
  · rw [perform_coreMove hf] at ht
    cases ht
    exact inputAccounted_coreStep h ha
  · rw [perform_coreMove_faulted hf] at ht
    cases ht
    exact ha

/-! ## The statement -/

/-- Every step, of either agent, keeps the account. -/
theorem inputAccounted_step {s t : State} (h : Inv s) (ha : InputAccounted s) (hstep : step s = .next t) :
    InputAccounted t := by
  cases hturns : s.turns with
  | nil =>
    obtain ⟨-, -, rfl⟩ := eq_coreStep_of_step hturns hstep
    exact inputAccounted_coreStep h ha
  | cons turn rest =>
    cases turn with
    | core =>
      rw [step_listed_core hturns] at hstep
      exact inputAccounted_coreMove (h.withTurns rest) ha hstep
    | host a =>
      rw [step_listed_host hturns] at hstep
      exact inputAccounted_hostMove (s := { s with turns := rest }) ha hstep

/-- Settles O57: the account by mover, and at the block's end by the two ways `SEND_OUTPUT` ends. -/
theorem blocksCoverInput : Obligations.BlocksCoverInput := by
  refine ⟨inputAccounted_of_not_busy rfl, fun s t hs _ ht => ?_, fun s t h ha hstep => ?_⟩
  · exact inputAccounted_start (inputAccounted_of_not_busy (congrArg St.busy hs)) ht
  · refine ⟨inputAccounted_step h ha hstep, fun hturns hs => ?_⟩
    rw [step_sendOutput hturns (eq_coreStep_of_step hturns hstep).1 hs] at hstep
    cases hstep
    rcases sendOutput_ends h.memCanonical with hsent | ⟨u, c, heq, -⟩
    · have hcov := hsent.covered h hs ha
      refine ⟨fun _ => hcov, fun ⟨hidle, _⟩ => ?_⟩
      rcases hsent.ends with hst | ⟨-, -, hend⟩
      · rw [hidle] at hst
        cases hst
      · rw [hcov, hend]
    · rw [heq]
      exact ⟨nofun, fun ⟨hidle, _⟩ => nomatch hidle⟩

end Sys2Proof.Machine
end

section
/-! PROOFS. `START`, and the tokens at `WRITE_TOKEN`: which one a step runs, what an accepted one writes and which
fault a rejected one takes (O11, O16 to O20). -/

namespace Sys2Proof.Machine

/-- Settles O16: the control write runs START (R24), and START's branches are those of R150 and R151. -/
theorem startFollowsItsRule : Obligations.StartFollowsItsRule := by
  intro s
  refine ⟨fun rest v hv =>
    ((stepRunsControlWrite { s with turns := .host (.writeCtrl 0x00 4 v) :: rest } rest v rfl).1 hv).2, ?_⟩
  rw [exec_start_eq]
  split_ifs <;> rfl

/-- The core's move on a token runs what the word at `tp` decodes to, whatever moves are listed (R155). -/
theorem perform_coreMove_token {s : State} (hf : s.fault = none) (hs : s.st = .writeToken) (hrem : s.blkRem ≠ 0#32)
    (hp : s.tp.toNat < s.cfg.tokWords.toNat) :
    perform (coreMove s) = exec (decodeToken (element s.mem .tok s.tp.toNat)) s := by
  have hstep : coreStep s = writeToken s := by rw [coreStep, hs]
  rw [perform_coreMove hf, hstep, writeToken, if_neg hrem, if_pos hp, exec_decodeToken (atToken_iff.2 ⟨hf, hs, hrem⟩)]

/-- Settles O11, from the core's move: the step with no move listed, and the listed core turn. -/
theorem stepRunsDecodedToken : Obligations.StepRunsDecodedToken := by
  intro s rest i hf hs hrem hp hi
  cases hi
  refine ⟨fun ht => step_token ht hf hs hrem hp, fun ht => ?_⟩
  rw [step_listed_core ht]
  exact perform_coreMove_token (s := { s with turns := rest }) hf hs hrem hp

/-- Settles O18: at the token exec of LIT takes the literal branch. -/
theorem literalIsAccepted : Obligations.LiteralIsAccepted :=
  fun _ _ hf hs hrem => if_pos (atToken_iff.2 ⟨hf, hs, hrem⟩)

theorem exec_match_at_token {s : State} (h : atToken s = true) (len : Byte) (off : BitVec 16) :
    exec (.matchTok len off) s = .next (acceptMatch len off s) := if_pos h

/-- The match branch of `WRITE_TOKEN` in the order of its checks (R155, R275). -/
theorem acceptMatch_eq (len : Byte) (off : BitVec 16) (s : State) :
    acceptMatch len off s =
      if 32767 < off.toNat then raise .distRange (nextToken s)
      else if s.blkRem.toNat < len.toNat then raise .boundary (nextToken s)
      else if s.consumed.toNat < off.toNat + 1 then raise .distHistory (nextToken s)
      else goto .mlDistRep (countBytes (len.zeroExtend 32) { nextToken s with tLen := len, tOff := off }) := by
  unfold acceptMatch checkMatch
  split_ifs <;> rfl

/-- Settles O19: none of the three checks stops the match. -/
theorem matchIsAccepted : Obligations.MatchIsAccepted := by
  intro len off s hf hs hrem hoff hlen hdist
  rw [exec_match_at_token (atToken_iff.2 ⟨hf, hs, hrem⟩), acceptMatch_eq, if_neg (Nat.not_lt.2 hoff),
    if_neg (Nat.not_lt.2 hlen), if_neg (Nat.not_lt.2 hdist)]
  rfl

/-- Settles O20: each check is reached with those before it passed. -/
theorem matchFaultsInOrder : Obligations.MatchFaultsInOrder := by
  intro len off s hf hs hrem
  rw [exec_match_at_token (atToken_iff.2 ⟨hf, hs, hrem⟩), acceptMatch_eq]
  refine ⟨fun hrange => ?_, fun hoff hbound => ?_, fun hoff hlen hdist => ?_⟩
  · rw [if_pos hrange]
    rfl
  · rw [if_neg (Nat.not_lt.2 hoff), if_pos hbound]
    rfl
  · rw [if_neg (Nat.not_lt.2 hoff), if_neg (Nat.not_lt.2 hlen), if_pos hdist]
    rfl

/-- Settles O17, by the branches of the rule: the decoder's cases of `LEN` (R91), and a match's checks. -/
theorem writeTokenFollowsItsRule : Obligations.WriteTokenFollowsItsRule := by
  intro s ht hf hs
  by_cases hrem : s.blkRem = 0#32
  · rw [step_blockEnd ht hf hs hrem, if_pos hrem]
    rfl
  by_cases hp : s.cfg.tokWords.toNat ≤ s.tp.toNat
  · rw [step_overrun ht hf hs hrem hp, if_neg hrem, if_pos hp]
    rfl
  rw [step_token ht hf hs hrem (Nat.not_le.1 hp), exec_decodeToken (atToken_iff.2 ⟨hf, hs, hrem⟩), if_neg hrem,
    if_neg hp]
  generalize element s.mem .tok s.tp.toNat = w
  show _ = Host.Outcome.next (if lenField w = 0#8 then _ else if (lenField w).toNat < 3 then _ else _)
  rcases lenField_cases w with h | h | h | h
  · rw [decodeToken_of_len_zero h, if_pos h]
    rfl
  · rw [decodeToken_of_len_one h, if_neg (by rw [h]; decide), if_pos (by rw [h]; decide)]
    rfl
  · rw [decodeToken_of_len_two h, if_neg (by rw [h]; decide), if_pos (by rw [h]; decide)]
    rfl
  · rw [decodeToken_of_three_le_len h, if_neg (fun h0 => by rw [h0] at h; exact absurd h (by decide)),
      if_neg (Nat.not_lt.2 h)]
    exact congrArg Host.Outcome.next (acceptMatch_eq (lenField w) (offField w) s)

end Sys2Proof.Machine
end

section
/-! PROOFS. `BLK_START`: its faults in order and what it writes for a block (O37). -/

namespace Sys2Proof.Machine

/-- The block-size test of R152, in mathematical integers. -/
theorem badBlockSize_iff {bs : Nat} {s : State} :
    badBlockSize bs s = true ↔
      bs < 116 ∨ s.latBskb.toNat * 1024 < bs ∨ s.cfg.maxBlockBytes.toNat < bs ∨
        s.latInputSize.toNat < s.consumed.toNat + bs := by
  simp only [badBlockSize, Bool.or_eq_true, decide_eq_true_eq, or_assoc]
  rfl

/-- In the block range all three `MAXC` entries exist (R62). -/
theorem readMaxCodes_of_lt {s : State} (h : s.blk.toNat < s.cfg.maxBlocks.toNat) :
    readMaxCodes s =
      .ok (element s.mem .maxc (3 * s.blk.toNat), element s.mem .maxc (3 * s.blk.toNat + 1),
        element s.mem .maxc (3 * s.blk.toNat + 2)) := by
  have hread (k : Nat) (hk : k < 3) :
      memRead .maxc (3 * s.blk.toNat + k) s = .ok (element s.mem .maxc (3 * s.blk.toNat + k)) :=
    if_pos (show 3 * s.blk.toNat + k < s.cfg.maxBlocks.toNat * 3 by omega)
  have h0 := hread 0 (by decide)
  unfold readMaxCodes maxcStride
  rw [Nat.add_zero] at h0
  rw [h0, hread 1 (by decide), hread 2 (by decide)]

/-- Settles O37, by the checks of R152 in their order. -/
theorem blockStartFollowsItsRule : Obligations.BlockStartFollowsItsRule := by
  intro s ht hf hs
  rw [step_blkStart ht hf hs, blkStart]
  refine congrArg Host.Outcome.next ?_
  by_cases hblk : s.cfg.maxBlocks.toNat ≤ s.blk.toNat
  · have hread : memRead .desc s.blk.toNat s = .error .blockOverrun := if_neg (Nat.not_lt.2 hblk)
    rw [hread]
    exact (if_pos hblk).symm
  · have hlt := Nat.not_le.1 hblk
    have hread : memRead .desc s.blk.toNat s = .ok (element s.mem .desc s.blk.toNat) := if_pos hlt
    rw [hread, readMaxCodes_of_lt hlt]
    simp only [badBlockSize_iff, maxCodesInRange_iff, if_neg hblk, and_assoc]
    rfl

end Sys2Proof.Machine
end

section
/-! PROOFS. The transition table (O54), and the bound on the steps of an invocation (O59). -/

namespace Sys2Proof.Machine

/-! ## The next states -/

theorem fault_mem_successors {x : St} (h : x.busy = true) : .fault ∈ successors x := by
  revert h
  cases x <;> decide

theorem emitNext_mem_successors {x y : St} (h : emitNext x = some y) : y ∈ successors x := by
  cases x <;> cases h <;> decide

theorem Advance.mem_successors {s t : State} (h : Advance s t) (hb : s.st.busy = true) :
    t.st ∈ successors s.st := by
  cases h with
  | raised c hu => exact fault_mem_successors hb
  | opened a b c hs => simp [hs, successors, openBlock]
  | emitted hs ht => exact emitNext_mem_successors hs
  | token hs hu hpos hle hx => rcases hx with rfl | rfl <;> simp [hs, successors]
  | blockEnd hs hrem => simp [hs, successors]
  | sent hs ht => rcases ht.ends with hst | ⟨hst, -⟩ <;> simp [hs, hst, successors]

/-- Settles O54: the table by the ways a step advances, and `FAULT` with a code by the invariant of the next state. -/
theorem transitionsFollowTable : Obligations.TransitionsFollowTable := by
  intro s t h hturns hstep
  have ht : Inv t := stepKeepsInvariant s t h hstep
  obtain ⟨-, hs, rfl⟩ := eq_coreStep_of_step hturns hstep
  refine ⟨?_, by rw [Ne, ht.faultState, not_not]⟩
  by_cases hb : s.st.busy = true
  · exact (coreStep_advance h.memCanonical hb).mem_successors hb
  · have hidle := (idle_or_fault_of_not_busy hb).resolve_right hs
    rw [coreStep_eq_self (.inl hidle), hidle]
    decide

/-! ## Steps against bytes and blocks -/

/-- The steps of a block that `st` leaves behind, beyond the 5 for each byte of its tokens: a token's own steps count
from 0 again, since its first byte has paid for them (R158). -/
def stepsBehind : St → Nat
  | .blkStart => 0
  | .hdrFixed => 1
  | .hdrClen => 2
  | .hdrTree => 3
  | .writeToken => 4
  | .sendOutput => 5
  | .litRep => 0
  | .mlDistRep => 0
  | .mlExtra => 1
  | .distRep => 2
  | .distExtra => 3
  | .idle => 0
  | .fault => 6

/-- What the bytes and blocks that lie behind a state allow in steps (R158). -/
def progress (s : State) : Nat := 5 * s.consumed.toNat + 6 * s.blk.toNat + stepsBehind s.st

theorem stepsBehind_lt_of_busy {x : St} (h : x.busy = true) : stepsBehind x < 6 := by
  revert h
  cases x <;> decide

theorem stepsBehind_lt_of_emitNext {x y : St} (h : emitNext x = some y) : stepsBehind x < stepsBehind y := by
  cases x <;> cases h <;> decide

/-- Every core step of a running invocation makes progress (R158). -/
theorem Advance.progress_lt {s t : State} (hadv : Advance s t) (h : Inv s) (hb : s.st.busy = true) :
    progress s < progress t := by
  unfold progress
  cases hadv with
  | raised c hu =>
    have := stepsBehind_lt_of_busy hb
    simp only [raise_consumed, raise_blk, raise_st, hu.consumed, hu.blk]
    exact Nat.add_lt_add_left this _
  | opened a b c hs =>
    rw [hs]
    exact Nat.lt_succ_self _
  | emitted hs ht =>
    rw [ht.consumed, ht.blk]
    exact Nat.add_lt_add_left (stepsBehind_lt_of_emitNext hs) _
  | @token u n x hs hu hpos hle hx =>
    have hadd := ((h.working (by rw [hs]; rfl)).countBytes_toNat hle).2
    simp only [goto_consumed, goto_blk, goto_st, countBytes_consumed, countBytes_blk, hu.consumed, hu.blk, hadd, hs]
    have : stepsBehind .writeToken = 4 := rfl
    omega
  | blockEnd hs hrem =>
    rw [hs]
    exact Nat.lt_succ_self _
  | sent hs ht =>
    have hblk := toNat_add_one (h.working (by rw [hs]; rfl)).blockIndex
    rw [ht.consumed, ht.blk, hblk, hs]
    have : stepsBehind .sendOutput = 5 := rfl
    omega

/-- The latched input size stays, and no step consumes more than it (R30, R38). -/
theorem Advance.consumed_le {s t : State} (hadv : Advance s t) (h : Inv s) (hb : s.st.busy = true) :
    t.latInputSize = s.latInputSize ∧ t.consumed.toNat ≤ s.latInputSize.toNat := by
  obtain ⟨-, -, -, hle⟩ := h.counters hb
  cases hadv with
  | raised c hu => exact ⟨hu.latInputSize, by rwa [raise_consumed, hu.consumed]⟩
  | opened a b c hs => exact ⟨rfl, hle⟩
  | emitted hs ht => exact ⟨ht.latInputSize, by rwa [ht.consumed]⟩
  | @token u n x hs hu hpos hn hx =>
    have hwork := h.working (by rw [hs]; rfl)
    have hadd := (hwork.countBytes_toNat hn).2
    have hin := hwork.input
    refine ⟨hu.latInputSize, ?_⟩
    rw [goto_consumed, countBytes_consumed, hu.consumed, hadd]
    omega
  | blockEnd hs hrem => exact ⟨rfl, hle⟩
  | sent hs ht => exact ⟨ht.latInputSize, by rwa [ht.consumed]⟩

/-! ## Termination -/

/-- How an invocation ends (R159). -/
def Ended (s : State) : Prop := EndedWell s ∨ s.st = .fault ∧ s.fault ≠ none

/-- Only a completed invocation leads to `IDLE`, and sets `DONE` (R257). -/
theorem Advance.done_of_idle {s t : State} (hadv : Advance s t) (hidle : t.st = .idle) : t.done = true := by
  cases hadv with
  | raised c hu => cases hidle
  | opened a b c hs => cases hidle
  | emitted hs ht =>
    have hin := (emitNext_inBlock hs).2
    rw [hidle] at hin
    cases hin
  | token hs hu hpos hle hx => rcases hx with rfl | rfl <;> cases hidle
  | blockEnd hs hrem => cases hidle
  | sent hs ht =>
    rcases ht.ends with hst | ⟨-, hdone, -⟩
    · rw [hidle] at hst
      cases hst
    · exact hdone

/-- A step of a running invocation leaves it running or ends it. -/
theorem Advance.busy_or_ended {s t : State} (hadv : Advance s t) (ht : Inv t) : t.st.busy = true ∨ Ended t := by
  by_cases hb : t.st.busy = true
  · exact .inl hb
  · by_cases hf : t.st = .fault
    · exact .inr (.inr ⟨hf, fun hnone => ht.faultState.1 hnone hf⟩)
    · have hidle := (idle_or_fault_of_not_busy hb).resolve_right hf
      exact .inr (.inl ⟨hidle, hadv.done_of_idle hidle, ht.faultState.2 hf⟩)

/-- No action of the core writes the list of moves. -/
theorem coreStep_turns (s : State) : (coreStep s).turns = s.turns := by
  have h : coreStep s = withTurns s.turns (coreStep s) := coreStep_withTurns s.turns s
  rw [h]
  rfl

theorem progress_le {s : State} (h : Inv s) (hb : s.st.busy = true) :
    progress s < 5 * s.latInputSize.toNat + 6 * s.cfg.maxBlocks.toNat + 6 := by
  obtain ⟨-, -, hblk, hcon⟩ := h.counters hb
  have := stepsBehind_lt_of_busy hb
  unfold progress
  omega

theorem run_succ_of_step {s t : State} (h : step s = .next t) (n : Nat) :
    Host.Core.run Sys2Proof.core (n + 1) s = Host.Core.run Sys2Proof.core n t := by
  have hcore : Sys2Proof.core.step s = .next t := h
  simp only [Host.Core.run, hcore]

/-- A running invocation ends, within as many steps as it makes progress: k bounds the progress still to make. -/
theorem run_ends {k : Nat} {s : State} (h : Inv s) (hturns : s.turns = []) (hb : s.st.busy = true)
    (hk : 5 * s.latInputSize.toNat + 6 * s.cfg.maxBlocks.toNat + 6 ≤ progress s + k) :
    ∃ (n : Nat) (u : State), Host.Core.run Sys2Proof.core n s = .next u ∧ Ended u ∧ progress s + n ≤ progress u ∧
      u.consumed.toNat ≤ s.latInputSize.toNat := by
  induction k generalizing s with
  | zero => exact absurd (progress_le h hb) (Nat.not_lt.2 hk)
  | succ k ih =>
    have hst : s.st ≠ .fault := fun hs => by rw [hs] at hb; cases hb
    have hstep : step s = .next (coreStep s) := by
      rw [step_core hturns (h.faultState.2 hst) hst, perform_coreMove (h.faultState.2 hst)]
    have hadv := coreStep_advance h.memCanonical hb
    have hinv := inv_coreStep h
    have hlt := hadv.progress_lt h hb
    obtain ⟨hlat, hcon⟩ := hadv.consumed_le h hb
    rcases hadv.busy_or_ended hinv with hbusy | hend
    · have hcfg : (coreStep s).cfg = s.cfg := (coreStep_onlyResultsWritten h.memCanonical).1
      obtain ⟨n, u, hrun, hend, hprog, hle⟩ :=
        ih hinv ((coreStep_turns s).trans hturns) hbusy (by rw [hlat, hcfg]; omega)
      exact ⟨n + 1, u, (run_succ_of_step hstep n).trans hrun, hend, by omega, hlat ▸ hle⟩
    · exact ⟨1, coreStep s, run_succ_of_step hstep 0, hend, hlt, hcon⟩

/-- Settles O59: START begins with no progress made, so the steps are at most the progress at the end. -/
theorem everyInvocationEnds : Obligations.EveryInvocationEnds := by
  intro s t h hturns hs hsize ht
  have hinv : Inv t := inv_start h ht
  have hf : s.fault = none := h.faultState.2 (by simp [hs])
  rw [exec_start_eq, if_pos ⟨hs, hf⟩, if_neg hsize] at ht
  cases ht
  obtain ⟨n, u, hrun, hend, hprog, hle⟩ := run_ends hinv hturns rfl (Nat.le_add_left _ _)
  have hstart : progress (goto .blkStart (latchArguments s)) = 0 := rfl
  have hin : u.consumed.toNat ≤ s.inputSize.toNat := hle
  rw [hstart, Nat.zero_add, progress] at hprog
  refine ⟨n, u, hrun, ?_⟩
  rcases hend with hgood | ⟨hst, hcode⟩
  · have hbehind : stepsBehind u.st = 0 := by rw [hgood.1, stepsBehind]
    exact .inl ⟨hgood, by omega⟩
  · have hbehind : stepsBehind u.st = 6 := by rw [hst, stepsBehind]
    exact .inr ⟨hst, hcode, by omega⟩

end Sys2Proof.Machine
end

section
/-! PROOFS. The run-length coder of `SendTree` (R187): its items read back by the code-length alphabet are the lengths
(O9), and each maximal run is written by the run rule (O10). -/

namespace Sys2Proof.Machine

/-! ## The limits and the items of one run -/

theorem limitsFor_zero (prev : Option Nat) : limitsFor prev 0 = (138, 3) := rfl

theorem limitsFor_again {v : Nat} (hv : v ≠ 0) : limitsFor (some v) v = (6, 3) := by
  simp [limitsFor, hv]

theorem limitsFor_new {prev : Option Nat} {v : Nat} (hv : v ≠ 0) (hp : prev ≠ some v) :
    limitsFor prev v = (7, 4) := by
  simp [limitsFor, hv, hp.symm]

theorem runItems_short (prev : Option Nat) (v : Nat) {n minc : Nat} (h : n < minc) :
    runItems prev v n minc = List.replicate n ⟨v, 0, 0⟩ := if_pos h

theorem runItems_zero (prev : Option Nat) {n : Nat} (h : 3 ≤ n) :
    runItems prev 0 n 3 = if n ≤ 10 then [⟨17, n - 3, 3⟩] else [⟨18, n - 11, 7⟩] := by
  simp [runItems, Nat.not_lt.2 h]

theorem runItems_again {v n : Nat} (hv : v ≠ 0) (h : 3 ≤ n) : runItems (some v) v n 3 = [⟨16, n - 3, 2⟩] := by
  simp [runItems, Nat.not_lt.2 h, hv]

theorem runItems_new {prev : Option Nat} {v n : Nat} (hv : v ≠ 0) (hp : prev ≠ some v) (h : 4 ≤ n) :
    runItems prev v n 4 = [⟨v, 0, 0⟩, ⟨16, n - 1 - 3, 2⟩] := by
  simp [runItems, Nat.not_lt.2 h, hv, hp.symm]

/-! ## The loop over the lengths -/

/-- The items of the lengths `lens` that follow a run of `prev` (R187). -/
def itemsAfter (prev : Option Nat) (lens : List Nat) : List Item :=
  treeItemsFrom prev 0 (runLimits lens.head? prev) lens

/-- A run goes on below its limit. -/
theorem treeItemsFrom_more {prev : Option Nat} {v count : Nat} {limits : Nat × Nat} (h : count + 1 < limits.1)
    (rest : List Nat) :
    treeItemsFrom prev count limits (v :: v :: rest) = treeItemsFrom prev (count + 1) limits (v :: rest) :=
  if_pos ⟨h, rfl⟩

/-- At its limit, or before another length, a run is written. -/
theorem treeItemsFrom_stop {prev : Option Nat} {v count : Nat} {limits : Nat × Nat} {rest : List Nat}
    (h : count + 1 < limits.1 → rest.head? ≠ some v) :
    treeItemsFrom prev count limits (v :: rest) =
      runItems prev v (count + 1) limits.2 ++ itemsAfter (some v) rest :=
  if_neg fun ⟨hlt, hhead⟩ => h hlt hhead

theorem itemsAfter_cons (prev : Option Nat) (v : Nat) (rest : List Nat) :
    itemsAfter prev (v :: rest) = treeItemsFrom prev 0 (limitsFor prev v) (v :: rest) := by
  rw [itemsAfter, List.head?_cons, runLimits_some]

theorem treeItems_eq (lens : List Nat) : treeItems lens = itemsAfter none lens := by
  cases lens with
  | nil => rfl
  | cons v rest => simp [itemsAfter_cons, treeItems, limitsFor]

/-! ## The items read back -/

theorem expandItems_append (done : List Nat) (a b : List Item) :
    expandItems done (a ++ b) = expandItems (expandItems done a) b := by
  induction a generalizing done with
  | nil => rfl
  | cons i a ih => exact ih _

/-- The items stand for the lengths `lens` after the lengths `done` (R99): they expand to them, are items of the
code-length alphabet, and are no more than the lengths. -/
structure Codes (done lens : List Nat) (items : List Item) : Prop where
  expands : expandItems done items = done ++ lens
  inRange : ∀ i ∈ items, itemInRange i = true
  short : items.length ≤ lens.length

theorem Codes.nil (done : List Nat) : Codes done [] [] := ⟨(List.append_nil done).symm, by simp, le_refl _⟩

theorem Codes.append {done a b : List Nat} {i j : List Item} (h : Codes done a i) (h' : Codes (done ++ a) b j) :
    Codes done (a ++ b) (i ++ j) where
  expands := by rw [expandItems_append, h.expands, h'.expands, List.append_assoc]
  inRange := List.forall_mem_append.2 ⟨h.inRange, h'.inRange⟩
  short := by
    rw [List.length_append, List.length_append]
    exact Nat.add_le_add h.short h'.short

/-- One item for at least one length. -/
theorem Codes.single {done lens : List Nat} {i : Item} (he : expandItems done [i] = done ++ lens)
    (hr : itemInRange i = true) (hpos : 1 ≤ lens.length) : Codes done lens [i] :=
  ⟨he, by simpa using hr, hpos⟩

theorem Codes.literal (done : List Nat) {v : Nat} (hv : v ≤ 15) : Codes done [v] [⟨v, 0, 0⟩] := by
  have h16 : v ≠ 16 ∧ v ≠ 17 ∧ v ≠ 18 := by omega
  exact .single (by simp [expandItems, h16]) (by simp [itemInRange, hv]) (le_refl 1)

theorem Codes.literals (done : List Nat) {v : Nat} (hv : v ≤ 15) (n : Nat) :
    Codes done (List.replicate n v) (List.replicate n ⟨v, 0, 0⟩) := by
  induction n generalizing done with
  | zero => exact .nil done
  | succ n ih => exact (Codes.literal done hv).append (ih _)

/-- Symbol 16 repeats the previous length. -/
theorem Codes.repeatLast {done : List Nat} {v n : Nat} (hlast : done.getLast? = some v) (h3 : 3 ≤ n) (h6 : n ≤ 6) :
    Codes done (List.replicate n v) [⟨16, n - 3, 2⟩] := by
  have hn : 3 + (n - 3) = n := by omega
  have hfit : n - 3 < 4 := by omega
  exact .single (by simp [expandItems, List.getLastD_eq_getLast?, hlast, hn]) (by simp [itemInRange, hfit])
    (by simp; omega)

/-- Symbol 17 is a short run of zeros. -/
theorem Codes.zeros (done : List Nat) {n : Nat} (h3 : 3 ≤ n) (h10 : n ≤ 10) :
    Codes done (List.replicate n 0) [⟨17, n - 3, 3⟩] := by
  have hn : 3 + (n - 3) = n := by omega
  have hfit : n - 3 < 8 := by omega
  exact .single (by simp [expandItems, hn]) (by simp [itemInRange, hfit]) (by simp; omega)

/-- Symbol 18 is a long run of zeros. -/
theorem Codes.manyZeros (done : List Nat) {n : Nat} (h11 : 11 ≤ n) (h138 : n ≤ 138) :
    Codes done (List.replicate n 0) [⟨18, n - 11, 7⟩] := by
  have hn : 11 + (n - 11) = n := by omega
  have hfit : n - 11 < 128 := by omega
  exact .single (by simp [expandItems, hn]) (by simp [itemInRange, hfit]) (by simp; omega)

/-- The items of a run within its limit stand for it (R187). -/
theorem runItems_codes {done : List Nat} {prev : Option Nat} {v n : Nat} (hv : v ≤ 15)
    (hprev : prev = some v → done.getLast? = some v) (hn : n ≤ (limitsFor prev v).1) :
    Codes done (List.replicate n v) (runItems prev v n (limitsFor prev v).2) := by
  by_cases hshort : n < (limitsFor prev v).2
  · rw [runItems_short prev v hshort]
    exact .literals done hv n
  rcases eq_or_ne v 0 with rfl | h0
  · rw [limitsFor_zero] at *
    rw [runItems_zero prev (Nat.not_lt.1 hshort)]
    split_ifs with h10
    · exact .zeros done (Nat.not_lt.1 hshort) h10
    · exact .manyZeros done (by omega) hn
  · by_cases hp : prev = some v
    · subst hp
      rw [limitsFor_again h0] at *
      rw [runItems_again h0 (Nat.not_lt.1 hshort)]
      exact .repeatLast (hprev rfl) (Nat.not_lt.1 hshort) hn
    · rw [limitsFor_new h0 hp] at *
      obtain ⟨m, rfl⟩ := Nat.exists_eq_add_of_le' (show 1 ≤ n by omega)
      rw [runItems_new h0 hp (Nat.not_lt.1 hshort)]
      exact (Codes.literal done hv).append
        (.repeatLast List.getLast?_concat (by omega) (Nat.le_of_succ_le_succ hn))

theorem limitsFor_pos (prev : Option Nat) (v : Nat) : 0 < (limitsFor prev v).1 := by
  unfold limitsFor
  split_ifs <;> decide

/-- The coder's items stand for the `count` lengths of the run so far and the lengths still to come (R187). -/
theorem treeItemsFrom_codes {rest done : List Nat} {prev : Option Nat} {v count : Nat}
    (hle : ∀ l ∈ v :: rest, l ≤ 15) (hprev : prev = some v → done.getLast? = some v)
    (hc : count < (limitsFor prev v).1) :
    Codes done (List.replicate count v ++ v :: rest) (treeItemsFrom prev count (limitsFor prev v) (v :: rest)) := by
  induction rest generalizing done prev v count with
  | nil =>
    rw [treeItemsFrom_stop (by simp), List.append_cons, ← List.replicate_succ']
    exact (runItems_codes (hle v List.mem_cons_self) hprev hc).append (.nil _)
  | cons next rest ih =>
    obtain ⟨hv, hrest⟩ := List.forall_mem_cons.1 hle
    rw [List.append_cons, ← List.replicate_succ']
    by_cases hmore : count + 1 < (limitsFor prev v).1 ∧ next = v
    · obtain ⟨hlt, rfl⟩ := hmore
      rw [treeItemsFrom_more hlt]
      exact ih hrest hprev hlt
    · rw [treeItemsFrom_stop (by simpa using hmore), itemsAfter_cons]
      refine (runItems_codes hv hprev hc).append (ih (count := 0) hrest (fun h => ?_) (limitsFor_pos _ _))
      rw [List.replicate_succ', ← List.append_assoc, List.getLast?_concat, h]

theorem treeItems_codes {lens : List Nat} (hle : ∀ l ∈ lens, l ≤ 15) : Codes [] lens (treeItems lens) := by
  cases lens with
  | nil => exact .nil []
  | cons v rest =>
    rw [treeItems_eq, itemsAfter_cons]
    exact treeItemsFrom_codes (count := 0) hle nofun (limitsFor_pos _ _)

/-- Settles O9: the items of a table stand for its lengths. -/
theorem treeItemsReadBack : Obligations.TreeItemsReadBack := by
  intro lens hle
  have h := treeItems_codes hle
  exact ⟨h.expands, h.inRange, h.short⟩

/-! ## The run rule -/

/-- Up to its limit a run is counted whole, then written (R187). -/
theorem treeItemsFrom_run {k v count : Nat} {prev : Option Nat} {limits : Nat × Nat} {rest : List Nat}
    (hle : count + k < limits.1) (hend : count + k + 1 < limits.1 → rest.head? ≠ some v) :
    treeItemsFrom prev count limits (List.replicate (k + 1) v ++ rest) =
      runItems prev v (count + k + 1) limits.2 ++ itemsAfter (some v) rest := by
  induction k generalizing count with
  | zero => exact treeItemsFrom_stop hend
  | succ k ih =>
    rw [← Nat.add_assoc, Nat.add_right_comm count] at *
    exact (treeItemsFrom_more (by omega) _).trans (ih hle hend)

/-- A run up to its limit after the run `prev`. -/
theorem itemsAfter_run {prev : Option Nat} {v n : Nat} {rest : List Nat} (hpos : 1 ≤ n)
    (hle : n ≤ (limitsFor prev v).1) (hend : n < (limitsFor prev v).1 → rest.head? ≠ some v) :
    itemsAfter prev (List.replicate n v ++ rest) =
      runItems prev v n (limitsFor prev v).2 ++ itemsAfter (some v) rest := by
  obtain ⟨k, rfl⟩ := Nat.exists_eq_add_of_le' hpos
  rw [List.replicate_succ, List.cons_append, itemsAfter_cons, ← List.cons_append, ← List.replicate_succ]
  simpa only [Nat.zero_add] using treeItemsFrom_run (count := 0) (by omega) (by rwa [Nat.zero_add])

/-! The run before matters only if it can be repeated: it is the same length, and not zero. -/

theorem runItems_congr_prev {p q : Option Nat} {v : Nat} (h : v = 0 ∨ p ≠ some v ∧ q ≠ some v) (n minc : Nat) :
    runItems p v n minc = runItems q v n minc := by
  rcases h with rfl | ⟨hp, hq⟩
  · simp [runItems]
  · simp [runItems, hp.symm, hq.symm]

theorem limitsFor_congr_prev {p q : Option Nat} {v : Nat} (h : v = 0 ∨ p ≠ some v ∧ q ≠ some v) :
    limitsFor p v = limitsFor q v := by
  rcases h with rfl | ⟨hp, hq⟩
  · rfl
  · simp [limitsFor, hp.symm, hq.symm]

theorem treeItemsFrom_congr_prev {p q : Option Nat} {v : Nat} (h : v = 0 ∨ p ≠ some v ∧ q ≠ some v)
    (rest : List Nat) (count : Nat) (limits : Nat × Nat) :
    treeItemsFrom p count limits (v :: rest) = treeItemsFrom q count limits (v :: rest) := by
  induction rest generalizing count with
  | nil => rw [treeItemsFrom_stop (by simp), treeItemsFrom_stop (by simp), runItems_congr_prev h]
  | cons w rest ih =>
    by_cases hmore : count + 1 < limits.1 ∧ w = v
    · obtain ⟨hlt, rfl⟩ := hmore
      rw [treeItemsFrom_more hlt, treeItemsFrom_more hlt, ih]
    · have hstop : count + 1 < limits.1 → (w :: rest).head? ≠ some v := by simpa using hmore
      rw [treeItemsFrom_stop hstop, treeItemsFrom_stop hstop, runItems_congr_prev h]

/-- A zero, or a length that is not `prev`, starts afresh. -/
theorem itemsAfter_eq_treeItems {prev : Option Nat} {v : Nat} (h : v = 0 ∨ prev ≠ some v) (rest : List Nat) :
    itemsAfter prev (v :: rest) = treeItems (v :: rest) := by
  have hboth : v = 0 ∨ prev ≠ some v ∧ none ≠ some v := h.imp_right (⟨·, nofun⟩)
  rw [treeItems_eq, itemsAfter_cons, itemsAfter_cons, limitsFor_congr_prev hboth, treeItemsFrom_congr_prev hboth]

/-- After a whole run the items start afresh. -/
theorem itemsAfter_run_end {v : Nat} {rest : List Nat} (h : rest.head? ≠ some v) :
    itemsAfter (some v) rest = treeItems rest := by
  cases rest with
  | nil => rfl
  | cons w rest => exact itemsAfter_eq_treeItems (.inr fun hw => h hw.symm) rest

/-- A run that continues one already written is cut into the longest repeats `maxc` and a remainder (R187). -/
theorem itemsAfter_repeats {v maxc : Nat} {rest : List Nat} (hlim : limitsFor (some v) v = (maxc, 3))
    (hrest : rest.head? ≠ some v) (n : Nat) :
    itemsAfter (some v) (List.replicate n v ++ rest) =
      (List.replicate (n / maxc) (runItems (some v) v maxc 3)).flatten ++ runItems (some v) v (n % maxc) 3 ++
        treeItems rest := by
  have hpos : 0 < maxc := by simpa [hlim] using limitsFor_pos (some v) v
  induction n using Nat.strong_induction_on with
  | _ n ih =>
    rcases Nat.lt_or_ge n maxc with hlt | hge
    · rw [Nat.div_eq_of_lt hlt, Nat.mod_eq_of_lt hlt, List.replicate_zero, List.flatten_nil, List.nil_append]
      rcases Nat.eq_zero_or_pos n with rfl | hn
      · exact itemsAfter_run_end hrest
      · rw [itemsAfter_run hn (by simpa [hlim] using hlt.le) fun _ => hrest, itemsAfter_run_end hrest, hlim]
    · obtain ⟨m, rfl⟩ := Nat.exists_eq_add_of_le hge
      rw [List.replicate_add, List.append_assoc, itemsAfter_run hpos (by rw [hlim]) (by simp [hlim]),
        ih m (by omega), hlim, Nat.add_div_left m hpos, Nat.add_mod_left, List.replicate_succ, List.flatten_cons]
      simp only [List.append_assoc]

theorem runCode_zero (n : Nat) :
    runCode 0 n = List.replicate (n / 138) ⟨18, 127, 7⟩ ++ runItems (some 0) 0 (n % 138) 3 := by
  rw [runCode, if_pos rfl]
  split_ifs with h3 h10
  · rw [runItems_short _ _ h3]
  · rw [runItems_zero _ (Nat.not_lt.1 h3), if_pos h10]
  · rw [runItems_zero _ (Nat.not_lt.1 h3), if_neg h10]

theorem runCode_short {v n : Nat} (hv : v ≠ 0) (h7 : n ≤ 7) : runCode v n = runItems none v n 4 := by
  rw [runCode, if_neg hv]
  split_ifs with h4
  · rw [runItems_short _ _ h4]
  · rw [runItems_new (prev := none) hv nofun (Nat.not_lt.1 h4), Nat.sub_sub]

theorem runCode_long {v m : Nat} (hv : v ≠ 0) (hm : m ≠ 0) :
    runCode v (7 + m) =
      runItems none v 7 4 ++ (List.replicate (m / 6) ⟨16, 3, 2⟩ ++ runItems (some v) v (m % 6) 3) := by
  rw [runCode, if_neg hv, if_neg (by omega), if_neg (by omega), Nat.add_sub_cancel_left,
    runItems_new (prev := none) hv nofun (by decide)]
  split_ifs with h3
  · rw [runItems_short _ _ h3, List.append_assoc]
  · rw [runItems_again hv (Nat.not_lt.1 h3), List.append_assoc]

/-- Settles O10: a run is written up to its limit, and what is left of it in repeats. -/
theorem treeItemsFollowRunRule : Obligations.TreeItemsFollowRunRule := by
  refine ⟨rfl, fun v n rest hpos hrest => ?_⟩
  rcases eq_or_ne v 0 with rfl | hv
  · obtain ⟨m, rfl⟩ := Nat.exists_eq_add_of_le' hpos
    have hfresh : itemsAfter (some 0) (List.replicate (m + 1) 0 ++ rest) =
        treeItems (List.replicate (m + 1) 0 ++ rest) := itemsAfter_eq_treeItems (.inl rfl) _
    rw [← hfresh, itemsAfter_repeats (limitsFor_zero _) hrest, runCode_zero, runItems_zero _ (by decide)]
    exact congrArg (· ++ _ ++ _) List.flatten_replicate_singleton
  · have hlim : limitsFor none v = (7, 4) := limitsFor_new hv nofun
    rw [treeItems_eq]
    rcases Nat.lt_or_ge 7 n with h7 | h7
    · obtain ⟨m, rfl⟩ := Nat.exists_eq_add_of_le h7.le
      rw [List.replicate_add, List.append_assoc, itemsAfter_run (by decide) (by rw [hlim]) (by simp [hlim]),
        itemsAfter_repeats (limitsFor_again hv) hrest, hlim, runItems_again hv (by decide : 3 ≤ 6),
        List.flatten_replicate_singleton, runCode_long hv (by omega), List.append_assoc (runItems none v 7 4)]
    · rw [itemsAfter_run hpos (by rwa [hlim]) fun _ => hrest, itemsAfter_run_end hrest, hlim, runCode_short hv h7]

end Sys2Proof.Machine
end

section
/-! PROOFS. The block header in steps: the fixed fields (O38), the lengths of the code-length alphabet (O39), the two
tables (O40), and a length that is too long (O39, O41). -/

namespace Sys2Proof.Machine

/-- A step that writes its bits and goes to its next state appends them, when there is room. -/
theorem Writes.step_goto {bits : List Bool} {s : State} {a : Act} {x : St} (h : Writes bits s a)
    (hroom : Room bits.length s) (hstep : step s = .next (finish (Machine.andThen a fun t => .ok (goto x t)))) :
    ∃ t, step s = .next t ∧ t.st = x ∧ Appends bits s t := by
  obtain ⟨t, rfl, -, -, happ⟩ := h.room hroom
  exact ⟨goto x t, hstep, rfl, happ.goto x⟩

/-- The bits of BFINAL and BTYPE = 10 (R180). -/
theorem fieldBits_blockType (b : BitVec 1) :
    fieldBits ((2#32 <<< 1) ||| b.zeroExtend 32) 3 = [decide (b = 1#1), false, true] := by
  revert b
  decide

/-- Settles O38: the four fields one after another. -/
theorem fixedHeaderIsAppended : Obligations.FixedHeaderIsAppended := by
  intro s hinv hturns hs hroom
  have hwork := hinv.working (by rw [hs]; rfl)
  have hw := putFixedHeader_writes hwork.packerReady hwork.maxCodes
  rw [fieldBits_blockType] at hw
  simp only [List.append_assoc]
  exact hw.step_goto (by simpa using hroom) (by rw [step_hdrFixed hturns hwork.noFault hs, hdrFixed_eq])

/-- A rank whose length is above 7 faults before its field is written (R183). -/
theorem putClen_long {sym : Nat} {s : State} (hblk : s.blk.toNat < s.cfg.maxBlocks.toNat)
    (hsym : sym < Table.bl.stride) (hlong : 7 < entryLen .bl sym s) :
    putClen sym s = .error (raise .lenRange s) := by
  rw [putClen, codeLen_eq hsym, if_pos hblk]
  exact if_pos hlong

/-- The first rank whose length is above 7 ends the step, after the fields before it (R183). -/
theorem putClens_long {l : List Nat} {s : State} (h : PackerReady s) (hblk : s.blk.toNat < s.cfg.maxBlocks.toNat)
    (hsym : ∀ sym ∈ l, sym < Table.bl.stride) (hroom : Room (3 * l.length) s)
    (hlong : ∃ sym ∈ l, 7 < entryLen .bl sym s) :
    ∃ u, putClens l s = .error (raise .lenRange u) ∧ EmitsOnly s u := by
  induction l generalizing s with
  | nil => simp at hlong
  | cons sym l ih =>
    obtain ⟨hfirst, hrest⟩ := List.forall_mem_cons.1 hsym
    rw [putClens]
    by_cases hlen : 7 < entryLen .bl sym s
    · exact ⟨s, by rw [putClen_long hblk hfirst hlen, andThen_error], .refl s⟩
    · have hw := putClen_writes h hblk hfirst (Nat.not_lt.1 hlen)
      rw [List.length_cons, Nat.mul_succ, Nat.add_comm, ← extraBits_length (entryLen .bl sym s) 3] at hroom
      have hroom3 := hroom.of_le (Nat.le_add_right _ _)
      obtain ⟨t, ht, -, hwt, happ⟩ := hw.room hroom3
      have he := happ.1
      obtain ⟨u, hu, heu⟩ := ih (happ.packerReady hwt hroom3) (by rwa [he.blk, he.cfg]) hrest
        ((happ.room_iff _).2 hroom) (by simpa [he.entryLen, hlen] using hlong)
      exact ⟨u, by rw [ht, andThen_ok, hu], he.trans heu⟩

/-- Settles O39: the ranks one after another, up to the first that is too long. -/
theorem codeLengthLengthsAreAppended : Obligations.CodeLengthLengthsAreAppended := by
  intro s hinv hturns hs hroom
  have hwork := hinv.working (by rw [hs]; rfl)
  obtain ⟨-, -, -, h19⟩ := maxCodesInRange_iff.1 hwork.maxCodes
  have hsym : ∀ sym ∈ blOrder.take s.m2.toNat, sym < Table.bl.stride :=
    fun sym hsym => blOrder_lt sym (List.mem_of_mem_take hsym)
  have hcount : (blOrder.take s.m2.toNat).length = s.m2.toNat :=
    List.length_take_of_le (show s.m2.toNat ≤ blOrder.length from h19)
  have hstep := step_hdrClen hturns hwork.noFault hs
  refine ⟨fun hlen => ?_, fun hlong => ?_⟩
  · exact (putClens_writes hwork.packerReady hwork.blockIndex hsym hlen).step_goto
      (by rwa [flatMap_extraBits_length, hcount]) hstep
  · obtain ⟨u, hu, he⟩ := putClens_long hwork.packerReady hwork.blockIndex hsym (by rwa [hcount]) hlong
    exact ⟨u, by rw [hstep, hdrClen, hu]; rfl, he⟩

/-- Settles O40: the items of the two tables, all in range. -/
theorem treesAreAppended : Obligations.TreesAreAppended := by
  intro s hinv hturns hs hlit hdist hgood hroom
  have hwork := hinv.working (by rw [hs]; rfl)
  exact (hwork.putTrees_writes hlit hdist hgood).step_goto hroom
    (by rw [step_hdrTree hturns hwork.noFault hs, hdrTree_eq])

/-- A length beyond the table's maximum is found while the lengths are read (R187). -/
theorem readLens_long {tb : Table} {k n : Nat} {s : State} (hblk : s.blk.toNat < s.cfg.maxBlocks.toNat)
    (hn : k + n ≤ tb.stride) (hlong : ∃ l ∈ (List.range' k n).map fun sym => entryLen tb sym s, tb.maxLen < l) :
    readLens tb k n s = .error .lenRange := by
  induction n generalizing k with
  | zero => simp at hlong
  | succ n ih =>
    rw [List.range'_succ, List.map_cons, List.exists_mem_cons_iff] at hlong
    rw [readLens, codeLen_eq (by omega), if_pos hblk]
    rcases hlong with hfirst | hrest
    · exact if_pos hfirst
    · simp only [ih (k := k + 1) (by omega) hrest, ite_self]

/-- `SendTree` faults on such a length with nothing written (R187, R275). -/
theorem sendTree_long {tb : Table} {n : Nat} {s : State} (hblk : s.blk.toNat < s.cfg.maxBlocks.toNat)
    (hn : n ≤ tb.stride) (hlong : ∃ l ∈ tableLens tb n s, tb.maxLen < l) :
    sendTree tb n s = .error (raise .lenRange s) := by
  rw [tableLens, List.range_eq_range'] at hlong
  rw [sendTree, readLens_long hblk (by omega) hlong]

/-- Settles O41: each table's lengths are checked before its items are written. -/
theorem longLengthFaultsBeforeTree : Obligations.LongLengthFaultsBeforeTree := by
  intro s hinv hturns hs
  have hwork := hinv.working (by rw [hs]; rfl)
  obtain ⟨⟨-, h286⟩, ⟨-, h30⟩, -⟩ := maxCodesInRange_iff.1 hwork.maxCodes
  rw [step_hdrTree hturns hwork.noFault hs, hdrTree_eq, putTrees]
  refine ⟨fun hlong => ?_, fun hlit hlong hgood hroom => ?_⟩
  · rw [sendTree_long hwork.blockIndex h286 hlong]
    rfl
  · obtain ⟨u, hu, -, -, happ⟩ := (putItems_writes hwork.packerReady hgood (treeItems_fit _)).room hroom
    have he := happ.1
    have hdist : sendTree .dist u.m1.toNat u = .error (raise .lenRange u) := by
      rw [he.m1]
      exact sendTree_long (by rw [he.blk, he.cfg]; exact hwork.blockIndex) h30 (by rwa [he.tableLens])
    exact ⟨u, by rw [hwork.sendTree_lit hlit, hu, andThen_ok, hdist]; rfl, happ⟩

end Sys2Proof.Machine
end

section
/-! PROOFS. The tokens after `WRITE_TOKEN`: the latched token that a step runs (O12), and the literal, whose `LIT_REP`
appends its code (O28) and which is two core steps in all (O35). -/

namespace Sys2Proof.Machine

/-! ## The latched token -/

theorem inMatch_iff {x : St} :
    x.inMatch = true ↔ x = .mlDistRep ∨ x = .mlExtra ∨ x = .distRep ∨ x = .distExtra := by
  simp [St.inMatch, or_assoc]

theorem coreMove_litRep {s : State} (hf : s.fault = none) (hs : s.st = .litRep) :
    coreMove s = .run (.lit s.tLit) s := by
  rw [coreMove, if_pos hf, hs]

theorem coreMove_inMatch {s : State} (hf : s.fault = none) (hs : s.st.inMatch = true) :
    coreMove s = .run (.matchTok s.tLen s.tOff) s := by
  rw [coreMove, if_pos hf]
  rcases inMatch_iff.1 hs with h | h | h | h <;> rw [h]

/-- Settles O12, from the instruction that the core's move selects in the states of a latched token. -/
theorem stepRunsLatchedToken : Obligations.StepRunsLatchedToken := by
  intro s ht hf
  refine ⟨fun hs => ?_, fun hs => ?_⟩
  · rw [step_core ht hf (by simp [hs]), coreMove_litRep hf hs, perform_run]
  · have hst : s.st ≠ .fault := fun h => by rw [h] at hs; cases hs
    rw [step_core ht hf hst, coreMove_inMatch hf hs, perform_run]

/-! ## The literal -/

/-- A writing operation and a `goto`, with room for the bits: where the step ends. -/
theorem Writes.finish_goto {bits : List Bool} {s : State} {a : Act} (h : Writes bits s a) (hroom : Room bits.length s)
    (x : St) :
    (finish (Machine.andThen a fun t => .ok (goto x t))).st = x ∧
      Appends bits s (finish (Machine.andThen a fun t => .ok (goto x t))) := by
  obtain ⟨t, rfl, -, -, happ⟩ := h.room hroom
  exact ⟨rfl, happ.goto x⟩

/-- `LIT_REP` (R210) on a good entry, with room for its code. -/
theorem litRep_appends {s : State} (h : PackerReady s) (hg : GoodEntry .lit s.tLit.toNat s)
    (hroom : Room (entryLen .lit s.tLit.toNat s) s) :
    (litRep s).st = .writeToken ∧ Appends (codeBits .lit s.tLit.toNat s) s (litRep s) :=
  (emitCode_writes h hg).finish_goto (by rwa [codeBits_length]) .writeToken

/-- Settles O28, by what `LIT_REP` appends. -/
theorem literalCodeIsAppended : Obligations.LiteralCodeIsAppended := by
  rintro _ s hf hs rfl hw hp hg hroom
  exact ⟨litRep s, exec_litRep hf hs, litRep_appends (hroom.packerReady hw hp) hg hroom⟩

theorem step_lit {s : State} {b : Byte} (ht : s.turns = []) (hf : s.fault = none) (hs : s.st = .writeToken)
    (hrem : s.blkRem ≠ 0#32) (hp : s.tp.toNat < s.cfg.tokWords.toNat)
    (hd : decodeToken (element s.mem .tok s.tp.toNat) = .lit b) : step s = .next (acceptLit b s) := by
  rw [step_token ht hf hs hrem hp, hd]
  exact literalIsAccepted b s hf hs hrem

/-- A literal covers one byte of the block and of the input (R155). -/
theorem Working.acceptLit_counts {s : State} (h : Working s) (hrem : s.blkRem ≠ 0#32) (b : Byte) :
    (Machine.acceptLit b s).blkRem.toNat + 1 = s.blkRem.toNat ∧
      (Machine.acceptLit b s).consumed.toNat = s.consumed.toNat + 1 := by
  have hpos : 1 ≤ s.blkRem.toNat := Nat.one_le_iff_ne_zero.2 fun h0 => hrem (BitVec.eq_of_toNat_eq h0)
  obtain ⟨hleft, hcovered⟩ := h.countBytes_toNat (n := 1) hpos
  exact ⟨(congrArg (· + 1) hleft).trans (Nat.sub_add_cancel hpos), hcovered⟩

/-- Settles O35: the literal is accepted, which moves the counters, and then `LIT_REP` appends its code. -/
theorem literalTokenRun : Obligations.LiteralTokenRun := by
  intro b s hinv ht hs hrem hp hd hg hroom
  have hwork := hinv.working (by rw [hs]; rfl)
  have hlatched : Working (acceptLit b s) := (hwork.acceptLit hp hrem b).working rfl
  obtain ⟨hst, happ⟩ := litRep_appends (s := acceptLit b s) hlatched.packerReady hg hroom
  have hsame := happ.1.sameAccount
  have htp := happ.1.tp
  obtain ⟨-, -, hstream, -, hbits⟩ := happ
  have hrun : Host.Core.run Sys2Proof.core 2 s = .next (litRep (acceptLit b s)) :=
    (run_succ_of_step (step_lit ht hwork.noFault hs hrem hp hd) 1).trans
      (run_succ_of_step (step_litRep (s := acceptLit b s) ht hlatched.noFault rfl) 0)
  have hcounts := hwork.acceptLit_counts hrem b
  rw [← hsame.blkRem, ← hsame.consumed] at hcounts
  refine ⟨litRep (acceptLit b s), hrun, hst, htp, hcounts.1, hcounts.2, hstream, ?_⟩
  rw [hbits hlatched.buffered.2.2, codeBits_length]
  rfl

end Sys2Proof.Machine
end

section
/-! PROOFS. The four states of an accepted match: what each appends, after the code latch that the first and the third
write (O29 to O32). -/

namespace Sys2Proof.Machine

/-! ## The latches -/

/-- Every length code fits `lc` (R36, R103). -/
theorem toNat_latchedLengthCode {len : Byte} (h3 : 3 ≤ len.toNat) :
    (BitVec.ofNat 5 (lcode len.toNat)).toNat = lcode len.toNat := by
  rw [BitVec.toNat_ofNat, Nat.mod_eq_of_lt (lengthExtra_fits h3 len.isLt).1]

/-- Every distance code fits `dc` (R36, R105). -/
theorem toNat_latchedDistanceCode {off : Nat} (h : off ≤ 32767) : (BitVec.ofNat 5 (dcode off)).toNat = dcode off := by
  rw [BitVec.toNat_ofNat, Nat.mod_eq_of_lt (distanceExtra_fits h).1]

theorem EmitsOnly.tOff {s t : State} (h : EmitsOnly s t) : t.tOff = s.tOff := by rw [h.1]

theorem EmitsOnly.tLen {s t : State} (h : EmitsOnly s t) : t.tLen = s.tLen := by rw [h.1]

theorem EmitsOnly.lc {s t : State} (h : EmitsOnly s t) : t.lc = s.lc := by rw [h.1]

theorem EmitsOnly.dc {s t : State} (h : EmitsOnly s t) : t.dc = s.dc := by rw [h.1]

/-- An emission reads and writes no `dc`. -/
theorem Appends.withDistanceCode {bits : List Bool} {s t : State} (h : Appends bits s t) (c : BitVec 5) :
    Appends bits { s with dc := c } { t with dc := c } := by
  obtain ⟨⟨heq, hout⟩, hrest⟩ := h
  exact ⟨⟨congrArg (fun u : State => { u with dc := c }) heq, hout⟩, hrest⟩

/-! ## What each state appends -/

/-- `ML_DIST_REP` (R220) on a good entry, with room for its code. -/
theorem mlDistRep_appends {s : State} (h : PackerReady s) (hg : GoodEntry .lit (257 + lcode s.tLen.toNat) s)
    (hroom : Room (entryLen .lit (257 + lcode s.tLen.toNat) s) s) :
    (mlDistRep s).st = .mlExtra ∧
      Appends (codeBits .lit (257 + lcode s.tLen.toNat) s) { s with lc := BitVec.ofNat 5 (lcode s.tLen.toNat) }
        (mlDistRep s) :=
  (emitCode_writes (s := { s with lc := BitVec.ofNat 5 (lcode s.tLen.toNat) })
    ⟨h.memCanonical, h.packed, h.bounded⟩ hg).finish_goto (by rwa [codeBits_length]) .mlExtra

/-- `ML_EXTRA` (R223) with its length code latched and room for the extra bits. -/
theorem mlExtra_appends {s : State} (h : PackerReady s) (h3 : 3 ≤ s.tLen.toNat)
    (hlc : s.lc.toNat = lcode s.tLen.toNat) (hroom : Room (lext (lcode s.tLen.toNat)) s) :
    (mlExtra s).st = .distRep ∧
      Appends (extraBits (s.tLen.toNat - lbase (lcode s.tLen.toNat)) (lext (lcode s.tLen.toNat))) s (mlExtra s) := by
  obtain ⟨-, hfit, hle⟩ := lengthExtra_fits h3 s.tLen.isLt
  rw [mlExtra, hlc]
  exact (putExtra_writes h hle hfit).finish_goto (by rwa [extraBits_length]) .distRep

/-- `DIST_REP` (R226) on a good entry, with room for its code. -/
theorem distRep_appends {s : State} (h : PackerReady s) (hg : GoodEntry .dist (dcode s.tOff.toNat) s)
    (hroom : Room (entryLen .dist (dcode s.tOff.toNat) s) s) :
    (distRep s).st = .distExtra ∧
      Appends (codeBits .dist (dcode s.tOff.toNat) s) { s with dc := BitVec.ofNat 5 (dcode s.tOff.toNat) }
        (distRep s) :=
  (emitCode_writes (s := { s with dc := BitVec.ofNat 5 (dcode s.tOff.toNat) })
    ⟨h.memCanonical, h.packed, h.bounded⟩ hg).finish_goto (by rwa [codeBits_length]) .distExtra

/-- `DIST_EXTRA` (R229) with its distance code latched and room for the extra bits. -/
theorem distExtra_appends {s : State} (h : PackerReady s) (hoff : s.tOff.toNat ≤ 32767)
    (hdc : s.dc.toNat = dcode s.tOff.toNat) (hroom : Room (dext (dcode s.tOff.toNat)) s) :
    (distExtra s).st = .writeToken ∧
      Appends (extraBits (s.tOff.toNat + 1 - dbase (dcode s.tOff.toNat)) (dext (dcode s.tOff.toNat))) s
        (distExtra s) := by
  obtain ⟨-, hfit, hle⟩ := distanceExtra_fits hoff
  rw [distExtra, hdc]
  exact (putExtra_writes h hle hfit).finish_goto (by rwa [extraBits_length]) .writeToken

/-! ## The four statements -/

theorem exec_mlExtra {s : State} (hf : s.fault = none) (hs : s.st = .mlExtra) :
    exec (.matchTok s.tLen s.tOff) s = .next (mlExtra s) := by
  simp [exec, execMatch, atToken, atState, latchedMatch, hf, hs]

theorem exec_distExtra {s : State} (hf : s.fault = none) (hs : s.st = .distExtra) :
    exec (.matchTok s.tLen s.tOff) s = .next (distExtra s) := by
  simp [exec, execMatch, atToken, atState, latchedMatch, hf, hs]

/-- Settles O29, by what `ML_DIST_REP` appends after its latch, which holds the code whole. -/
theorem lengthCodeIsAppended : Obligations.LengthCodeIsAppended := by
  rintro _ _ s hf hs rfl rfl h3 hw hp hg hroom
  obtain ⟨hst, happ⟩ := mlDistRep_appends (hroom.packerReady hw hp) hg hroom
  exact ⟨mlDistRep s, exec_mlDistRep hf hs, hst, by rw [happ.1.lc, toNat_latchedLengthCode h3], happ⟩

/-- Settles O30, by what `ML_EXTRA` appends. -/
theorem lengthExtraIsAppended : Obligations.LengthExtraIsAppended := by
  rintro _ _ s hf hs rfl rfl h3 hlc hw hp hroom
  exact ⟨mlExtra s, exec_mlExtra hf hs, mlExtra_appends (hroom.packerReady hw hp) h3 hlc hroom⟩

/-- Settles O31, by what `DIST_REP` appends after its latch, which holds the code whole. -/
theorem distanceCodeIsAppended : Obligations.DistanceCodeIsAppended := by
  rintro _ _ s hf hs rfl rfl hoff hw hp hg hroom
  obtain ⟨hst, happ⟩ := distRep_appends (hroom.packerReady hw hp) hg hroom
  exact ⟨distRep s, exec_distRep hf hs, hst, by rw [happ.1.dc, toNat_latchedDistanceCode hoff], happ⟩

/-- Settles O32, by what `DIST_EXTRA` appends. -/
theorem distanceExtraIsAppended : Obligations.DistanceExtraIsAppended := by
  rintro _ _ s hf hs rfl rfl hoff hdc hw hp hroom
  exact ⟨distExtra s, exec_distExtra hf hs, distExtra_appends (hroom.packerReady hw hp) hoff hdc hroom⟩

end Sys2Proof.Machine
end

section
/-! PROOFS. A match token in five core steps: its acceptance, the two states of the length and the two of the distance
(O36). -/

namespace Sys2Proof.Machine

/-! ## The two halves of a match -/

/-- The bits of a match's length: its code, then its extra bits (R220, R223). -/
def lengthBits (len : Byte) (s : State) : List Bool :=
  codeBits .lit (257 + lcode len.toNat) s ++ extraBits (len.toNat - lbase (lcode len.toNat)) (lext (lcode len.toNat))

/-- The bits of a match's distance: its code, then its extra bits (R226, R229). -/
def distanceBits (off : BitVec 16) (s : State) : List Bool :=
  codeBits .dist (dcode off.toNat) s ++
    extraBits (off.toNat + 1 - dbase (dcode off.toNat)) (dext (dcode off.toNat))

@[simp] theorem lengthBits_length (len : Byte) (s : State) :
    (lengthBits len s).length = entryLen .lit (257 + lcode len.toNat) s + lext (lcode len.toNat) := by
  simp [lengthBits]

@[simp] theorem distanceBits_length (off : BitVec 16) (s : State) :
    (distanceBits off s).length = entryLen .dist (dcode off.toNat) s + dext (dcode off.toNat) := by
  simp [distanceBits]

theorem EmitsOnly.distanceBits {s t : State} (h : EmitsOnly s t) (off : BitVec 16) :
    distanceBits off t = distanceBits off s := by
  rw [Machine.distanceBits, h.codeBits, Machine.distanceBits]

/-- From `ML_DIST_REP` two core steps append the length. -/
theorem Inv.length_run {s : State} (h : Inv s) (ht : s.turns = []) (hs : s.st = .mlDistRep)
    (hg : GoodEntry .lit (257 + lcode s.tLen.toNat) s) (hroom : Room (lengthBits s.tLen s).length s) :
    ∃ t, (∀ n, Host.Core.run Sys2Proof.core (n + 2) s = Host.Core.run Sys2Proof.core n t) ∧ Inv t ∧
      t.st = .distRep ∧ Appends (lengthBits s.tLen s) { s with lc := BitVec.ofNat 5 (lcode s.tLen.toNat) } t := by
  have hwork := h.working (by rw [hs]; rfl)
  rw [lengthBits_length] at hroom
  have hstep := step_mlDistRep ht hwork.noFault hs
  obtain ⟨hst, happ⟩ := mlDistRep_appends hwork.packerReady hg (hroom.of_le (Nat.le_add_right _ _))
  have hinv := stepKeepsInvariant s _ h hstep
  have hwork' := hinv.working (by rw [hst]; rfl)
  have hstep' := step_mlExtra (happ.1.turns.trans ht) hwork'.noFault hst
  have hlen : (mlDistRep s).tLen = s.tLen := happ.1.tLen
  have hrest := (happ.room_iff (lext (lcode s.tLen.toNat))).2 (by rwa [codeBits_length])
  obtain ⟨h3, -⟩ := hinv.matchLatch (by rw [hst]; rfl)
  obtain ⟨hend, hextra⟩ := mlExtra_appends hwork'.packerReady h3 (hinv.lengthCode hst) (by rwa [hlen])
  rw [hlen] at hextra
  exact ⟨mlExtra (mlDistRep s), fun n => (run_succ_of_step hstep (n + 1)).trans (run_succ_of_step hstep' n),
    stepKeepsInvariant _ _ hinv hstep', hend, happ.trans hextra⟩

/-- From `DIST_REP` two core steps append the distance. -/
theorem Inv.distance_run {s : State} {off : BitVec 16} (h : Inv s) (ht : s.turns = []) (hs : s.st = .distRep)
    (hoff : s.tOff = off) (hg : GoodEntry .dist (dcode off.toNat) s) (hroom : Room (distanceBits off s).length s) :
    ∃ t, (∀ n, Host.Core.run Sys2Proof.core (n + 2) s = Host.Core.run Sys2Proof.core n t) ∧
      t.st = .writeToken ∧ Appends (distanceBits off s) { s with dc := BitVec.ofNat 5 (dcode off.toNat) } t := by
  subst hoff
  have hwork := h.working (by rw [hs]; rfl)
  rw [distanceBits_length] at hroom
  have hstep := step_distRep ht hwork.noFault hs
  obtain ⟨hst, happ⟩ := distRep_appends hwork.packerReady hg (hroom.of_le (Nat.le_add_right _ _))
  have hinv := stepKeepsInvariant s _ h hstep
  have hwork' := hinv.working (by rw [hst]; rfl)
  have hstep' := step_distExtra (happ.1.turns.trans ht) hwork'.noFault hst
  have hoff : (distRep s).tOff = s.tOff := happ.1.tOff
  have hrest := (happ.room_iff (dext (dcode s.tOff.toNat))).2 (by rwa [codeBits_length])
  obtain ⟨-, hlegal⟩ := hinv.matchLatch (by rw [hst]; rfl)
  obtain ⟨hend, hextra⟩ := distExtra_appends hwork'.packerReady hlegal (hinv.distanceCode hst) (by rwa [hoff])
  rw [hoff] at hextra
  exact ⟨distExtra (distRep s), fun n => (run_succ_of_step hstep (n + 1)).trans (run_succ_of_step hstep' n), hend,
    happ.trans hextra⟩

/-! ## The whole token -/

/-- The state after `WRITE_TOKEN` has accepted a match (R155). -/
def matchAccepted (len : Byte) (off : BitVec 16) (s : State) : State :=
  goto .mlDistRep (countBytes (len.zeroExtend 32) { nextToken s with tLen := len, tOff := off })

theorem step_match {s : State} {len : Byte} {off : BitVec 16} (ht : s.turns = []) (hf : s.fault = none)
    (hs : s.st = .writeToken) (hrem : s.blkRem ≠ 0#32) (hp : s.tp.toNat < s.cfg.tokWords.toNat)
    (hd : decodeToken (element s.mem .tok s.tp.toNat) = .matchTok len off) (hoff : off.toNat ≤ 32767)
    (hlen : len.toNat ≤ s.blkRem.toNat) (hdist : off.toNat + 1 ≤ s.consumed.toNat) :
    step s = .next (matchAccepted len off s) := by
  rw [step_token ht hf hs hrem hp, hd]
  exact matchIsAccepted len off s hf hs hrem hoff hlen hdist

/-- A match covers its length of the block and of the input (R155). -/
theorem Working.matchAccepted_counts {s : State} (h : Working s) {len : Byte} (hlen : len.toNat ≤ s.blkRem.toNat)
    (off : BitVec 16) :
    (matchAccepted len off s).blkRem.toNat + len.toNat = s.blkRem.toNat ∧
      (matchAccepted len off s).consumed.toNat = s.consumed.toNat + len.toNat := by
  have hext : (len.zeroExtend 32).toNat = len.toNat := BitVec.toNat_setWidth_of_le (by decide)
  obtain ⟨hleft, hcovered⟩ := h.countBytes_toNat (n := len.zeroExtend 32) (by rwa [hext])
  rw [hext] at hleft hcovered
  exact ⟨(congrArg (· + len.toNat) hleft).trans (Nat.sub_add_cancel hlen), hcovered⟩

/-- The bits of a match in the order of R231. -/
def matchBits (len : Byte) (off : BitVec 16) (s : State) : List Bool := lengthBits len s ++ distanceBits off s

theorem matchBits_length (len : Byte) (off : BitVec 16) (s : State) :
    (matchBits len off s).length =
      entryLen .lit (257 + lcode len.toNat) s + lext (lcode len.toNat) + entryLen .dist (dcode off.toNat) s +
        dext (dcode off.toNat) := by
  rw [matchBits, List.length_append, lengthBits_length, distanceBits_length, ← Nat.add_assoc]

/-- From `ML_DIST_REP` four core steps append the length and then the distance. -/
theorem Inv.match_run {s : State} (h : Inv s) (ht : s.turns = []) (hs : s.st = .mlDistRep)
    (hlit : GoodEntry .lit (257 + lcode s.tLen.toNat) s) (hdist : GoodEntry .dist (dcode s.tOff.toNat) s)
    (hroom : Room (matchBits s.tLen s.tOff s).length s) :
    ∃ t, Host.Core.run Sys2Proof.core 4 s = .next t ∧ t.st = .writeToken ∧
      Appends (matchBits s.tLen s.tOff s)
        { s with lc := BitVec.ofNat 5 (lcode s.tLen.toNat), dc := BitVec.ofNat 5 (dcode s.tOff.toNat) } t := by
  rw [matchBits, List.length_append] at hroom
  obtain ⟨u, hrunu, hinvu, hu, hlen⟩ := h.length_run ht hs hlit (hroom.of_le (Nat.le_add_right _ _))
  have he := hlen.1
  have hbits := he.distanceBits s.tOff
  obtain ⟨t, hrunt, hst, happ⟩ := hinvu.distance_run (he.turns.trans ht) hu he.tOff (he.goodEntry hdist)
    (by rw [hbits]; exact (hlen.room_iff _).2 hroom)
  rw [hbits] at happ
  exact ⟨t, (hrunu 2).trans (hrunt 0), hst, (hlen.withDistanceCode _).trans happ⟩

/-- Settles O36: the match is accepted, which moves the counters, and then its four states append its fields. -/
theorem matchTokenRun : Obligations.MatchTokenRun := by
  intro len off s hinv ht hs hrem hp hd hoff hlen hdist hlit hdst hroom
  have hwork := hinv.working (by rw [hs]; rfl)
  have hstep := step_match ht hwork.noFault hs hrem hp hd hoff hlen hdist
  have hcounts := hwork.matchAccepted_counts hlen off
  rw [← matchBits_length] at hroom
  obtain ⟨t, hrun, hst, happ⟩ := (stepKeepsInvariant s _ hinv hstep).match_run ht rfl hlit hdst hroom
  have hsame := happ.1.sameAccount
  have htp := happ.1.tp
  obtain ⟨-, -, hstream, -, hbits⟩ := happ
  rw [← hsame.blkRem, ← hsame.consumed] at hcounts
  refine ⟨t, (run_succ_of_step hstep 4).trans hrun, hst, htp, hcounts.1, hcounts.2, ?_, ?_⟩
  · calc streamBits t = streamBits s ++ matchBits len off s := hstream
      _ = _ := by simp only [matchBits, lengthBits, distanceBits, List.append_assoc]
  · calc blockBits t = blockBits s + (matchBits len off s).length := hbits hwork.buffered.2.2
      _ = _ := by simp only [matchBits_length, Nat.add_assoc]

end Sys2Proof.Machine
end

section
/-! PROOFS. The end of a block: when `SEND_OUTPUT` goes on no bit is pending (O43), and with a good entry of EOB and
room it writes the code, the flush and the block's byte count (O42). -/

namespace Sys2Proof.Machine

/-! ## After the flush -/

/-- A writing operation that has gone on had the room, so it has appended its bits. -/
theorem Writes.appends_of_ok {bits : List Bool} {s t : State} {a : Act} (h : Writes bits s a) (hok : a = .ok t) :
    Appends bits s t := by
  subst hok
  by_cases hroom : Room bits.length s
  · obtain ⟨u, hu, -, -, happ⟩ := h.room hroom
    cases hu
    exact happ
  · obtain ⟨u, hu, -⟩ := h.full hroom
    cases hu

/-- The flush ends at a byte boundary (R251, R252). -/
theorem Appends.flushed {s t : State} (h : Appends (flushBits s.nbits.toNat s) s t) : t.nbits.toNat = 0 := by
  rw [h.nbits, flushBits_length, flushLength]
  split_ifs <;> omega

/-- No bit is pending (R258). -/
def Aligned (s : State) : Prop := s.nbits = 0#5 ∧ s.acc = 0#32

theorem Packed.aligned {s : State} (h : Packed s) (h0 : s.nbits.toNat = 0) : Aligned s :=
  ⟨BitVec.eq_of_toNat_eq h0, h.acc_eq_zero h0⟩

/-- The state between the flush and `RecordSize` (R250): only the bit-packer has moved, its counters are in range, and
no bit is pending. -/
structure Flushed (s u : State) : Prop where
  emits : EmitsOnly s u
  memCanonical : Arrays.wf u.mem = true
  bounded : OutBounded u
  aligned : Aligned u

/-- Whenever the code of EOB and the flush go on, they end so. -/
theorem Working.flushed {s u : State} (h : Working s)
    (hok : andThen (emitCode .lit eobSymbol s) flushBlock = .ok u) : Flushed s u := by
  obtain ⟨t, ht, htu⟩ := andThen_eq_ok.1 hok
  obtain ⟨het, -, hwt⟩ := (emitCode_spec .lit eobSymbol s h.memCanonical).ok t ht
  obtain ⟨heu, -, hwu⟩ := (flushBlock_spec t hwt).ok u htu
  have hbt : Buffered t := keeps_emitCode .lit eobSymbol s t h.buffered ht
  have happ := (flushBlock_writes ⟨hwt, hbt.1, hbt.2.1⟩).appends_of_ok htu
  exact ⟨het.trans heu, hwu, (keeps_flushBlock t u hbt htu).2, happ.2.1.aligned happ.flushed⟩

/-! ## The record, and what follows it -/

/-- The state `RecordSize` leaves (R255). -/
def recorded (s : State) : State :=
  { s with mem := withElement s.mem .size s.blk.toNat s.blkOut, blk := s.blk + 1 }

theorem recordSize_of_lt {s : State} (h : s.blk.toNat < s.cfg.maxBlocks.toNat) : recordSize s = .ok (recorded s) := by
  rw [recordSize, memWrite, if_pos (show s.blk.toNat < capacity s.cfg .size from h)]
  rfl

/-- `NextOrDone` (R257) moves `st` and `DONE` and nothing else. -/
theorem nextOrDone_eq (s : State) :
    nextOrDone s =
      { s with
        done := (if s.consumed = s.latInputSize then true else s.done)
        st := (if s.consumed = s.latInputSize then .idle else .blkStart) } := by
  unfold nextOrDone
  split_ifs <;> rfl

/-- How `SEND_OUTPUT` ends (R250): after the flush it records the block's byte count and goes on, or it has raised. -/
theorem Working.sendOutput_ends {s : State} (h : Working s) :
    (∃ u, Flushed s u ∧ sendOutput s = nextOrDone (recorded u)) ∨ ∃ u c, sendOutput s = raise c u := by
  rcases sendOutput_cases s h.memCanonical with ⟨u, -, -, -, hok, heq⟩ | ⟨u, c, heq, -⟩
  · exact .inl ⟨u, h.flushed hok, heq⟩
  · exact .inr ⟨u, c, heq⟩

/-- Settles O43: the record and what follows it leave the bit-packer as the flush did. -/
theorem blockEndsByteAligned : Obligations.BlockEndsByteAligned := by
  intro s t h hturns hs hstep hfault
  have hwork := h.working (by rw [hs]; rfl)
  rw [step_sendOutput hturns hwork.noFault hs] at hstep
  cases hstep
  rcases hwork.sendOutput_ends with ⟨u, hu, heq⟩ | ⟨u, c, heq⟩
  · rw [heq, nextOrDone_eq]
    exact hu.aligned
  · rw [heq] at hfault
    cases hfault

/-! ## The rule of R250 -/

/-- The flush takes at most 42 bits (R251). -/
theorem flushLength_le (n : Nat) (s : State) : flushLength n s ≤ 42 := by
  unfold flushLength
  split_ifs <;> omega

/-- On a good entry with room the step goes on, and what it has written is the code and the flush. -/
theorem Working.sendOutput_appends {s : State} (h : Working s) (hg : GoodEntry .lit eobSymbol s)
    (hroom : Room (entryLen .lit eobSymbol s + 42) s) :
    ∃ u, Flushed s u ∧ sendOutput s = nextOrDone (recorded u) ∧
      Appends (codeBits .lit eobSymbol s ++ flushBits (s.nbits.toNat + entryLen .lit eobSymbol s) s) s u := by
  have hflush := flushLength_le (s.nbits.toNat + entryLen .lit eobSymbol s) s
  obtain ⟨u, hok, -, -, happ⟩ := (blockEnd_writes h.packerReady hg).room
    (hroom.of_le (by rw [List.length_append, codeBits_length, flushBits_length]; omega))
  have hblk : u.blk.toNat < u.cfg.maxBlocks.toNat := by rw [happ.1.blk, happ.1.cfg]; exact h.blockIndex
  refine ⟨u, h.flushed hok, ?_, happ⟩
  rw [sendOutput_eq, hok, andThen_ok, recordSize_of_lt hblk]
  rfl

/-- The marker's three zero bits and its padding in one run (R107, R251). -/
theorem flushBits_eq (n : Nat) (s : State) :
    flushBits n s =
      if s.cfg.flush = .sync ∧ s.bfinal = 0#1 then
        List.replicate (3 + (8 - (n + 3) % 8) % 8) false ++ byteBits 0x00 ++ byteBits 0x00 ++ byteBits 0xFF ++
          byteBits 0xFF
      else List.replicate ((8 - n % 8) % 8) false := by
  simp only [flushBits, padBits, List.replicate_add, List.append_assoc]

/-- Whole bytes: what the block has gained is what `OUT` has gained (R33). -/
theorem Appends.blkOut_of_aligned {bits : List Bool} {s u : State} (h : Appends bits s u) (h0 : u.nbits.toNat = 0)
    (hle : s.blkOut.toNat ≤ s.op.toNat) : u.blkOut.toNat = s.blkOut.toNat + (u.op.toNat - s.op.toNat) := by
  have hnb := h.nbits
  obtain ⟨-, -, -, hop, hbits⟩ := h
  have hcount := hbits hle
  unfold blockBits at hcount
  omega

/-- The block's byte count stands in `SIZE[blk]`, and no other element has changed (R255). -/
theorem Flushed.element_size {s u : State} (h : Flushed s u) :
    element (recorded u).mem .size s.blk.toNat = u.blkOut ∧
      ∀ i, i ≠ s.blk.toNat → element (recorded u).mem .size i = element s.mem .size i := by
  rw [← h.emits.blk]
  refine ⟨element_withElement_same (sp := .size) u.mem _ _ (by decide) h.memCanonical, fun i hi => ?_⟩
  calc element (recorded u).mem .size i
      = element u.mem .size i := element_withElement_ne (sp := .size) u.mem _ hi h.memCanonical
    _ = element s.mem .size i := h.emits.element (by decide) i

/-- The whole frame of a step that ends a block (R250 to R257). -/
theorem Flushed.nextOrDone_frame {s u : State} (h : Flushed s u) :
    nextOrDone (recorded u) =
      { s with
        acc := 0, nbits := 0, op := u.op, blkOut := u.blkOut, blk := s.blk + 1
        done := (if s.consumed = s.latInputSize then true else s.done)
        st := (if s.consumed = s.latInputSize then .idle else .blkStart)
        mem := { s.mem with out := u.mem.out, size := (recorded u).mem.size } } := by
  obtain ⟨⟨heq, -, -⟩, -, -, hnbits, hacc⟩ := h
  rw [hnbits, hacc] at heq
  rw [nextOrDone_eq]
  conv_lhs => rw [heq]
  conv_rhs => rw [heq]
  rfl

/-- Settles O42, by what the step has appended before the record, and by its frame. -/
theorem blockEndFollowsItsRule : Obligations.BlockEndFollowsItsRule := by
  intro s h hturns hs hg hroom
  have hwork := h.working (by rw [hs]; rfl)
  obtain ⟨u, hu, hsend, happ⟩ := hwork.sendOutput_appends hg hroom
  have hframe := hu.nextOrDone_frame
  obtain ⟨hsize, hothers⟩ := hu.element_size
  obtain ⟨hemits, -, -, hnbits, hacc⟩ := hu
  rw [nextOrDone_eq] at hsend hframe
  have hstep := (step_sendOutput hturns hwork.noFault hs).trans (congrArg _ hsend)
  have hfault := hemits.fault.trans hwork.noFault
  have hstream : streamBits u = _ := happ.2.2.1
  rw [flushBits_eq, ← List.append_assoc] at hstream
  have hgain := happ.blkOut_of_aligned (congrArg BitVec.toNat hnbits) hwork.buffered.2.2
  exact ⟨_, hstep, hfault, hnbits, hacc, hstream, hgain, hsize, hothers, hemits.2.2, hframe⟩

end Sys2Proof.Machine
end

section
/-! PROOFS. Where the block at work began in `OUT`: an action of the core moves `op` and `blk_out` together (R131), so
that only `BLK_START` moves the difference of the two. -/

namespace Sys2Proof.Machine

/-- The output position at which the block at work began: `op` less the block's own bytes (R33). -/
def blockBase (s : State) : Word := s.op - s.blkOut

/-- Part of a step that keeps the block's base, whether it goes on or raises. -/
def KeepsBase (s : State) (a : Act) : Prop := blockBase (finish a) = blockBase s

theorem keepsBase_raise (c : FaultCode) (s : State) : KeepsBase s (.error (raise c s)) := rfl

theorem KeepsBase.andThen {s : State} {a : Act} {k : State → Act} (h : KeepsBase s a) (hk : ∀ t, KeepsBase t (k t)) :
    KeepsBase s (andThen a k) := by
  cases a with
  | ok t => exact (hk t).trans h
  | error t => exact h

/-- A last action that only moves registers which the base does not read. -/
theorem KeepsBase.finish_map {s : State} {a : Act} {f : State → State} (h : KeepsBase s a)
    (hf : ∀ t, blockBase (f t) = blockBase t) :
    blockBase (finish (Machine.andThen a fun t => .ok (f t))) = blockBase s :=
  h.andThen hf

/-! ## The emitting operations -/

theorem blockBase_emitted (b : Byte) (s : State) : blockBase (emitted b s) = blockBase s :=
  add_sub_add_right_eq_sub s.op s.blkOut 1

theorem keepsBase_outByte (b : Byte) (s : State) : KeepsBase s (outByte b s) := by
  rw [outByte_eq]
  split_ifs
  · exact blockBase_emitted b s
  · exact keepsBase_raise .outOverflow s

theorem keepsBase_drain (k : Nat) (s : State) : KeepsBase s (drain k s) := by
  induction k generalizing s with
  | zero => rfl
  | succ k ih => exact (keepsBase_outByte _ s).andThen fun t => ih { t with acc := t.acc >>> 8, nbits := t.nbits - 8 }

theorem keepsBase_putBits (v : Word) (n : Nat) (s : State) : KeepsBase s (putBits v n s) :=
  keepsBase_drain _ (appendBits v n s)

theorem keepsBase_padToByte (s : State) : KeepsBase s (padToByte s) := by
  unfold padToByte
  split_ifs
  · exact keepsBase_putBits _ _ s
  · rfl

theorem keepsBase_putExtra (v e : Nat) (s : State) : KeepsBase s (putExtra v e s) := by
  unfold putExtra
  split_ifs
  · rfl
  · exact keepsBase_putBits _ _ s

theorem keepsBase_emitCode (t : Table) (sym : Nat) (s : State) : KeepsBase s (emitCode t sym s) := by
  unfold emitCode
  split
  · exact keepsBase_raise _ s
  · exact keepsBase_putBits _ _ s

theorem keepsBase_putClen (sym : Nat) (s : State) : KeepsBase s (putClen sym s) := by
  unfold putClen
  split
  · exact keepsBase_raise _ s
  · split_ifs
    · exact keepsBase_raise _ s
    · exact keepsBase_putBits _ _ s

theorem keepsBase_putClens (l : List Nat) (s : State) : KeepsBase s (putClens l s) := by
  induction l generalizing s with
  | nil => rfl
  | cons sym l ih => exact (keepsBase_putClen sym s).andThen ih

theorem keepsBase_putItems (l : List Item) (s : State) : KeepsBase s (putItems l s) := by
  induction l generalizing s with
  | nil => rfl
  | cons i l ih => exact ((keepsBase_emitCode .bl i.sym s).andThen (keepsBase_putBits _ _)).andThen ih

theorem keepsBase_sendTree (t : Table) (n : Nat) (s : State) : KeepsBase s (sendTree t n s) := by
  unfold sendTree
  split
  · exact keepsBase_raise _ s
  · exact keepsBase_putItems _ s

theorem keepsBase_flushBlock (s : State) : KeepsBase s (flushBlock s) := by
  unfold flushBlock
  split_ifs
  · exact (keepsBase_putBits 0 3 s).andThen fun t => (keepsBase_padToByte t).andThen fun t =>
      (keepsBase_outByte _ t).andThen fun t => (keepsBase_outByte _ t).andThen fun t =>
        (keepsBase_outByte _ t).andThen (keepsBase_outByte _)
  · exact keepsBase_padToByte s

/-! ## The core's actions -/

theorem blockBase_hdrFixed (s : State) : blockBase (hdrFixed s) = blockBase s :=
  (keepsBase_putBits _ _ s).andThen fun t => (keepsBase_putBits _ _ t).andThen fun t =>
    (keepsBase_putBits _ _ t).andThen fun t => (keepsBase_putBits _ _ t).finish_map fun _ => rfl

theorem blockBase_hdrTree (s : State) : blockBase (hdrTree s) = blockBase s :=
  (keepsBase_sendTree _ _ s).andThen fun t => (keepsBase_sendTree _ _ t).finish_map fun _ => rfl

theorem blockBase_acceptToken (i : Instr) (s : State) : blockBase (acceptToken i s) = blockBase s := by
  cases i with
  | matchTok len off =>
    show blockBase (acceptMatch len off s) = blockBase s
    rcases acceptMatch_cases len off s with ⟨-, -, -, h⟩ | ⟨c, h⟩ <;> rw [h] <;> rfl
  | _ => rfl

theorem blockBase_writeToken (s : State) : blockBase (writeToken s) = blockBase s := by
  unfold writeToken
  split_ifs
  · rfl
  · exact blockBase_acceptToken _ s
  · rfl

theorem blockBase_nextOrDone (s : State) : blockBase (nextOrDone s) = blockBase s := by rw [nextOrDone_eq]; rfl

theorem keepsBase_recordSize (s : State) : KeepsBase s (recordSize s) := by
  unfold recordSize memWrite
  by_cases h : s.blk.toNat < capacity s.cfg .size
  · rw [if_pos h]
    rfl
  · rw [if_neg h]
    rfl

theorem blockBase_sendOutput (s : State) : blockBase (sendOutput s) = blockBase s :=
  (keepsBase_emitCode _ _ s).andThen fun t => (keepsBase_flushBlock t).andThen fun t =>
    (keepsBase_recordSize t).finish_map blockBase_nextOrDone

/-- Every action of the core but `BLK_START` keeps the base of the block at work. -/
theorem blockBase_coreStep {s : State} (hs : s.st ≠ .blkStart) : blockBase (coreStep s) = blockBase s := by
  unfold coreStep
  cases h : s.st with
  | idle => rfl
  | fault => rfl
  | blkStart => exact absurd h hs
  | hdrFixed => exact blockBase_hdrFixed s
  | hdrClen => exact (keepsBase_putClens _ s).finish_map fun _ => rfl
  | hdrTree => exact blockBase_hdrTree s
  | writeToken => exact blockBase_writeToken s
  | litRep => exact (keepsBase_emitCode _ _ s).finish_map fun _ => rfl
  | mlDistRep =>
    exact (keepsBase_emitCode _ _ { s with lc := BitVec.ofNat 5 (lcode s.tLen.toNat) }).finish_map fun _ => rfl
  | mlExtra => exact (keepsBase_putExtra _ _ s).finish_map fun _ => rfl
  | distRep =>
    exact (keepsBase_emitCode _ _ { s with dc := BitVec.ofNat 5 (dcode s.tOff.toNat) }).finish_map fun _ => rfl
  | distExtra => exact (keepsBase_putExtra _ _ s).finish_map fun _ => rfl
  | sendOutput => exact blockBase_sendOutput s

end Sys2Proof.Machine
end

section
/-! PROOFS. The account of the output: the sizes recorded for the finished blocks and the bytes of the block at work are
the bytes written (O56). -/

namespace Sys2Proof.Machine

/-! ## The account by kind of state -/

theorem sizesAccounted_of_not_busy {s : State} (h : s.st.busy = false) : SizesAccounted s :=
  fun hb => by rw [h] at hb; cases hb

theorem sizesAccounted_blkStart {s : State} (h : s.st = .blkStart) :
    SizesAccounted s ↔ sizeSum s.mem s.blk.toNat = s.op.toNat := by
  simp [SizesAccounted, h, St.busy, St.inBlock]

theorem blockBase_toNat {s : State} (h : s.blkOut.toNat ≤ s.op.toNat) :
    (blockBase s).toNat + s.blkOut.toNat = s.op.toNat := by
  rw [blockBase, BitVec.toNat_sub_of_le h, Nat.sub_add_cancel h]

/-- Inside a block the account says that the finished blocks end where the block at work began. -/
theorem Inv.sizesAccounted_inBlock {s : State} (h : Inv s) (hin : s.st.inBlock = true) :
    SizesAccounted s ↔ sizeSum s.mem s.blk.toNat = (blockBase s).toNat := by
  have hbase := blockBase_toNat (h.working hin).buffered.2.2
  have hbusy := busy_of_inBlock hin
  simp only [SizesAccounted, hbusy, hin, forall_const, if_true, ← hbase, Nat.add_right_cancel_iff]

/-! ## The sum of the sizes -/

theorem sizeSum_congr {a b : Arrays} {n : Nat} (h : ∀ i < n, element b .size i = element a .size i) :
    sizeSum b n = sizeSum a n := by
  induction n with
  | zero => rfl
  | succ n ih => rw [sizeSum, sizeSum, ih fun i hi => h i (Nat.lt_succ_of_lt hi), h n n.lt_succ_self]

/-- The record puts the block's bytes on top of the sum (R255). -/
theorem Flushed.sizeSum_recorded {s u : State} (h : Flushed s u) :
    sizeSum (recorded u).mem (s.blk.toNat + 1) = sizeSum s.mem s.blk.toNat + u.blkOut.toNat := by
  obtain ⟨hsize, hothers⟩ := h.element_size
  rw [sizeSum, hsize, sizeSum_congr fun i hi => hothers i (Nat.ne_of_lt hi)]

/-! ## Steps of the core -/

/-- At a block's end the recorded sizes are the bytes written (R255). -/
theorem sizeSum_sendOutput {s : State} (h : Inv s) (hs : s.st = .sendOutput) (ha : SizesAccounted s)
    (hfault : (sendOutput s).fault = none) :
    sizeSum (sendOutput s).mem (sendOutput s).blk.toNat = (sendOutput s).op.toNat := by
  have hin : s.st.inBlock = true := by rw [hs]; rfl
  have hwork := h.working hin
  have hkept := blockBase_sendOutput s
  rcases hwork.sendOutput_ends with ⟨u, hu, heq⟩ | ⟨u, c, heq⟩
  · have hblk : (recorded u).blk.toNat = s.blk.toNat + 1 := by
      rw [← toNat_add_one hwork.blockIndex, ← hu.emits.blk]
      rfl
    rw [heq, blockBase_nextOrDone] at hkept
    rw [heq, nextOrDone_eq]
    calc sizeSum (recorded u).mem (recorded u).blk.toNat
        = sizeSum s.mem s.blk.toNat + u.blkOut.toNat := by rw [hblk, hu.sizeSum_recorded]
      _ = (blockBase u).toNat + u.blkOut.toNat := by rw [(h.sizesAccounted_inBlock hin).1 ha, ← hkept]; rfl
      _ = u.op.toNat := blockBase_toNat hu.bounded.2
  · rw [heq] at hfault
    cases hfault

/-- Short of its end a block stays the block at work, or is given up with a raise. -/
theorem Advance.stays_inBlock {s t : State} (h : Advance s t) (hin : s.st.inBlock = true) (hne : s.st ≠ .sendOutput) :
    t.st = .fault ∨ t.st.inBlock = true ∧ t.blk = s.blk := by
  cases h with
  | raised c hu => exact .inl rfl
  | opened a b c hs => rw [hs] at hin; cases hin
  | emitted hs ht => exact .inr ⟨(emitNext_inBlock hs).2, ht.blk⟩
  | token hs hu hpos hle hx => exact .inr ⟨by rcases hx with rfl | rfl <;> rfl, hu.blk⟩
  | blockEnd hs hrem => exact .inr ⟨rfl, rfl⟩
  | sent hs ht => exact absurd hs hne

theorem sizesAccounted_blockStep {s : State} (h : Inv s) (hin : s.st.inBlock = true) (hne : s.st ≠ .sendOutput)
    (ha : SizesAccounted s) : SizesAccounted (coreStep s) := by
  rcases (coreStep_advance h.memCanonical (busy_of_inBlock hin)).stays_inBlock hin hne with hst | ⟨hst, hblk⟩
  · exact sizesAccounted_of_not_busy (congrArg St.busy hst)
  · have hsize := (coreStep_onlyResultsWritten h.memCanonical).2.2.1 hne
    have hbase := blockBase_coreStep (s := s) fun hs => by rw [hs] at hin; cases hin
    rw [(inv_coreStep h).sizesAccounted_inBlock hst, hblk, hbase,
      sizeSum_congr (a := s.mem) fun i _ => congrArg (Memory.readWord · i) hsize]
    exact (h.sizesAccounted_inBlock hin).1 ha

/-- A block begins with none of the bytes written (R152). -/
theorem sizesAccounted_blkStart_step {s : State} (hs : s.st = .blkStart) (ha : SizesAccounted s) :
    SizesAccounted (blkStart s) := by
  rcases blkStart_cases s with ⟨c, heq⟩ | ⟨bs, a, b, c, heq, -⟩ <;> rw [heq]
  · exact sizesAccounted_of_not_busy rfl
  · exact fun _ => (sizesAccounted_blkStart hs).1 ha

/-- After `SEND_OUTPUT` another block is about to begin, or no invocation runs. -/
theorem sizesAccounted_sendOutput {s : State} (h : Inv s) (hs : s.st = .sendOutput) (ha : SizesAccounted s) :
    SizesAccounted (sendOutput s) := by
  have hsum := sizeSum_sendOutput h hs ha
  rcases Machine.sendOutput_ends h.memCanonical with hsent | ⟨u, c, heq, -⟩
  · rcases hsent.ends with hst | ⟨hst, -⟩
    · have hinv := inv_sendOutput (h.working (by rw [hs]; rfl))
      exact (sizesAccounted_blkStart hst).2 (hsum (hinv.faultState.2 (by rw [hst]; decide)))
    · exact sizesAccounted_of_not_busy (congrArg St.busy hst)
  · rw [heq]
    exact sizesAccounted_of_not_busy rfl

/-- An action of the core keeps the account: a core that is idle or faulted has none. -/
theorem sizesAccounted_coreStep {s : State} (h : Inv s) (ha : SizesAccounted s) : SizesAccounted (coreStep s) := by
  by_cases hb : s.st.busy = true
  · by_cases hin : s.st.inBlock = true
    · by_cases hs : s.st = .sendOutput
      · have heq : coreStep s = sendOutput s := by rw [coreStep, hs]
        rw [heq]
        exact sizesAccounted_sendOutput h hs ha
      · exact sizesAccounted_blockStep h hin hs ha
    · have hs : s.st = .blkStart := by simpa [St.busy, hin] using hb
      have heq : coreStep s = blkStart s := by rw [coreStep, hs]
      rw [heq]
      exact sizesAccounted_blkStart_step hs ha
  · rwa [coreStep_eq_self (idle_or_fault_of_not_busy hb)]

/-! ## Moves of the host -/

theorem sizesAccounted_start {s t : State} (ha : SizesAccounted s) (ht : exec .start s = .next t) :
    SizesAccounted t := by
  rw [exec_start_eq] at ht
  cases ht
  split_ifs with hacc hsize
  · exact sizesAccounted_of_not_busy (by rw [setDone_st]; exact congrArg St.busy hacc.1)
  · exact (sizesAccounted_blkStart rfl).2 rfl
  · exact ha

theorem sizesAccounted_hostMove {s t : State} {a : HostAct} (ha : SizesAccounted s)
    (ht : perform (hostMove a s) = .next t) : SizesAccounted t := by
  rcases hostMove_frame ht with h | h | h
  · exact sizesAccounted_start ha h
  · exact sizesAccounted_of_not_busy (congrArg St.busy h)
  · rw [h]
    exact ha

/-! ## Every step -/

/-- What a step can do once the oldest listed turn is off the list: an action of the core, a turn that passes, or a move
of the host (R20, R21). -/
theorem step_movers {s t : State} (h : step s = .next t) :
    ∃ rest, t = coreStep { s with turns := rest } ∨ t = { s with turns := rest } ∨
      ∃ a, perform (hostMove a { s with turns := rest }) = .next t := by
  cases hturns : s.turns with
  | nil => exact ⟨s.turns, .inl (eq_coreStep_of_step hturns h).2.2⟩
  | cons turn rest =>
    refine ⟨rest, ?_⟩
    cases turn with
    | host a =>
      rw [step_listed_host hturns] at h
      exact .inr (.inr ⟨a, h⟩)
    | core =>
      rw [step_listed_core hturns] at h
      by_cases hf : s.fault = none
      · rw [perform_coreMove (s := { s with turns := rest }) hf] at h
        cases h
        exact .inl rfl
      · rw [perform_coreMove_faulted (s := { s with turns := rest }) hf] at h
        cases h
        exact .inr (.inl rfl)

/-- Every step, of either agent, keeps the account. -/
theorem sizesAccounted_step {s t : State} (h : Inv s) (ha : SizesAccounted s) (hstep : step s = .next t) :
    SizesAccounted t := by
  obtain ⟨rest, rfl | rfl | ⟨a, ht⟩⟩ := step_movers hstep
  · exact sizesAccounted_coreStep (h.withTurns rest) ha
  · exact ha
  · exact sizesAccounted_hostMove (s := { s with turns := rest }) ha ht

/-- Settles O56: the account by mover, and at the block's end by what `SEND_OUTPUT` records. -/
theorem sizesAddUpToOutput : Obligations.SizesAddUpToOutput := by
  refine ⟨sizesAccounted_of_not_busy rfl, fun s t hs _ ht => ?_, fun s t h ha hstep => ?_⟩
  · exact sizesAccounted_start (sizesAccounted_of_not_busy (congrArg St.busy hs)) ht
  · refine ⟨sizesAccounted_step h ha hstep, fun hturns hs hfault => ?_⟩
    rw [step_sendOutput hturns (eq_coreStep_of_step hturns hstep).1 hs] at hstep
    cases hstep
    exact sizeSum_sendOutput h hs ha hfault

end Sys2Proof.Machine
end

section
/-! PROOFS. What can still move once the core has faulted: nothing of the core before the host's reset (O55). -/

namespace Sys2Proof.Machine

/-- A nonzero fault code names the state (R271). -/
theorem Inv.st_of_fault {s : State} {c : FaultCode} (h : Inv s) (hf : s.fault = some c) : s.st = .fault := by
  by_contra hst
  rw [h.faultState.2 hst] at hf
  cases hf

/-- `CTRL` reads 0 while the core is neither idle nor done (R24). -/
theorem ctrlWord_eq_zero {s : State} (hd : s.done = false) (hst : s.st ≠ .idle) : ctrlWord s = 0 := by
  simp [ctrlWord, idleFlag, hd, hst]

/-- START is accepted only while `fault` reads 0 (R150). -/
theorem exec_start_faulted {s : State} {c : FaultCode} (hf : s.fault = some c) : exec .start s = .next s := by
  rw [exec_start_eq, if_neg fun hacc => Option.some_ne_none c (hf.symm.trans hacc.2)]

/-- While the core is not idle, a move of the host other than reset is START, or moves only the argument registers and
the host's own fields: writes of the arrays wait for `CTRL.IDLE` (R71(e)). -/
theorem hostMove_frame_busy {s t : State} {a : HostAct} (hst : s.st ≠ .idle) (ha : a ≠ .reset)
    (h : perform (hostMove a s) = .next t) :
    exec .start s = .next t ∨
      t = { s with
        inputSize := t.inputSize, blockSizeKb := t.blockSizeKb, hostRd := t.hostRd, drawn := t.drawn } := by
  cases a with
  | reset => exact absurd rfl ha
  | writeArray sp i v => exact absurd (idle_of_hostWriteArray h).1 hst
  | writeCtrl off width v =>
    simp only [hostMove, hostWriteCtrl, decodeCtrl] at h
    split_ifs at h
    · cases h
    · cases h
    · exact .inl h
    · cases h
      exact .inr rfl
    · cases h
      unfold ctrlWrite
      split_ifs <;> exact .inr rfl
  | readCtrl off width =>
    simp only [hostMove, hostReadCtrl] at h
    split_ifs at h <;> cases h
    exact .inr rfl
  | readArray sp i =>
    simp only [hostMove, perform_answer, hostReadArray] at h
    split_ifs at h <;> cases h <;> exact .inr rfl

/-- With the core faulted, every step but the host's reset moves only the argument registers, the list of moves and what
the host has read: a listed turn of the core passes (log 7), and a START is ignored (R272). -/
theorem step_frame_faulted {s t : State} {c : FaultCode} (hf : s.fault = some c) (hst : s.st = .fault)
    (hstep : step s = .next t) (hreset : s.turns.head? ≠ some (.host .reset)) :
    t =
      { s with
        inputSize := t.inputSize, blockSizeKb := t.blockSizeKb, turns := t.turns, hostRd := t.hostRd,
        drawn := t.drawn } := by
  cases hturns : s.turns with
  | nil =>
    rw [step_faulted hturns hf] at hstep
    cases hstep
  | cons turn rest =>
    cases turn with
    | core =>
      rw [step_listed_core hturns, perform_coreMove_faulted (by simp [hf])] at hstep
      cases hstep
      rfl
    | host a =>
      have ha : a ≠ .reset := fun heq => hreset (by rw [hturns, heq]; rfl)
      rw [step_listed_host hturns] at hstep
      rcases hostMove_frame_busy (s := { s with turns := rest }) (by simp [hst]) ha hstep with h | h
      · rw [exec_start_faulted (s := { s with turns := rest }) hf] at h
        cases h
        rfl
      · rw [show t.turns = rest from congrArg State.turns h]
        exact h

/-- Settles O55: the invariant puts a faulted core in `FAULT` with `DONE` at 0, and its frame keeps it there. -/
theorem faultLastsUntilReset : Obligations.FaultLastsUntilReset := by
  intro s c h hf
  have hst : s.st = .fault := h.st_of_fault hf
  have hbusy : s.st ≠ .idle := by simp [hst]
  refine ⟨ctrlWord_eq_zero (h.notDone hbusy) hbusy, exec_start_faulted hf, fun hturns => step_faulted hturns hf,
    fun t hstep hreset => ?_⟩
  have hframe := step_frame_faulted hf hst hstep hreset
  exact ⟨(congrArg State.fault hframe).trans hf, (congrArg State.st hframe).trans hst, hframe⟩

end Sys2Proof.Machine
end

section
/-! PROOFS. What the states of a block may write: whenever an operation goes on, it has written at most so many bits
(R321). -/

namespace Sys2Proof.Machine

/-- t is s after an emission of at most n bits, with the bit-packer ready for another. -/
structure Spent (n : Nat) (s t : State) : Prop where
  emits : EmitsOnly s t
  ready : PackerReady t
  ownBytes : t.blkOut.toNat ≤ t.op.toNat
  bits : blockBits t ≤ blockBits s + n

/-- The operation goes on having written at most n bits, or it has raised. -/
structure Spends (n : Nat) (s : State) (a : Act) : Prop where
  ok : ∀ t, a = .ok t → Spent n s t
  error : ∀ t, a = .error t → t.st = .fault

theorem spends_raise (n : Nat) (s u : State) (c : FaultCode) : Spends n s (.error (raise c u)) :=
  ⟨fun t ht => (by cases ht), fun t ht => by cases ht; rfl⟩

theorem Spends.of_le {m n : Nat} {s : State} {a : Act} (h : Spends m s a) (hmn : m ≤ n) : Spends n s a := by
  refine ⟨fun t ht => ?_, h.error⟩
  obtain ⟨hemits, hready, hown, hbits⟩ := h.ok t ht
  exact ⟨hemits, hready, hown, hbits.trans (Nat.add_le_add_left hmn _)⟩

/-- One operation after another. -/
theorem Spends.andThen {m n : Nat} {s : State} {a : Act} {k : State → Act} (h : Spends m s a)
    (hk : ∀ t, Spent m s t → Spends n t (k t)) : Spends (m + n) s (andThen a k) := by
  constructor
  · intro u hu
    obtain ⟨t, ht, htu⟩ := andThen_eq_ok.1 hu
    have hst := h.ok t ht
    obtain ⟨hemits, hready, hown, hbits⟩ := (hk t hst).ok u htu
    exact ⟨hst.emits.trans hemits, hready, hown, by have := hst.bits; omega⟩
  · intro u hu
    rcases andThen_eq_error.1 hu with ha | ⟨t, ht, htu⟩
    · exact h.error u ha
    · exact (hk t (h.ok t ht)).error u htu

/-- An operation that writes an exact list of bits writes at most as many. -/
theorem Writes.spends {bits : List Bool} {s : State} {a : Act} (h : Writes bits s a)
    (hown : s.blkOut.toNat ≤ s.op.toNat) : Spends bits.length s a := by
  by_cases hroom : Room bits.length s
  · obtain ⟨t, rfl, -, hw, happ⟩ := h.room hroom
    have hn := happ.nbits
    have hready := happ.packerReady hw hroom
    obtain ⟨hemits, -, -, hop, hbits⟩ := happ
    have hblk := hbits hown
    have hown' : t.blkOut.toNat ≤ t.op.toNat := by
      unfold blockBits at hblk
      omega
    exact ⟨fun u hu => by cases hu; exact ⟨hemits, hready, hown', hblk.le⟩, fun u hu => by cases hu⟩
  · obtain ⟨u, rfl, -⟩ := h.full hroom
    exact spends_raise _ s u .outOverflow

section
variable {s : State} (h : PackerReady s) (hown : s.blkOut.toNat ≤ s.op.toNat)
include h hown

theorem putBits_spends {v : Word} {n : Nat} (hn : n ≤ 16) (hv : v.toNat < 2 ^ n) : Spends n s (putBits v n s) := by
  simpa only [fieldBits_length] using (putBits_writes h hn hv).spends hown

/-- `EmitCode` checks a code's length against its table's maximum (R134). -/
theorem emitCode_spends (tb : Table) (sym : Nat) : Spends tb.maxLen s (emitCode tb sym s) := by
  unfold emitCode
  cases hl : lookupCode tb sym s with
  | error c => exact spends_raise _ s s c
  | ok p =>
    obtain ⟨-, hfield, -, hmax, hcode, -⟩ := lookupCode_ok hl
    have h15 := tb.maxLen_le
    refine (putBits_spends h hown (by omega) ?_).of_le hmax
    rw [hfield]
    exact codeField_toNat_lt _ (by omega) hcode

theorem putExtra_spends {v e : Nat} (he : e ≤ 16) (hv : v < 2 ^ e) : Spends e s (putExtra v e s) := by
  simpa only [extraBits_length] using (putExtra_writes h he hv).spends hown

theorem putClen_spends (sym : Nat) : Spends 3 s (putClen sym s) := by
  unfold putClen
  cases codeLen .bl sym s with
  | error c => exact spends_raise 3 s s c
  | ok v =>
    show Spends 3 s (if maxLenBl < v.toNat then _ else _)
    split_ifs with hlong
    · exact spends_raise 3 s s .lenRange
    · exact putBits_spends h hown (by decide) (Nat.lt_succ_of_le (Nat.not_lt.1 hlong))

end

theorem putClens_spends {s : State} (h : PackerReady s) (hown : s.blkOut.toNat ≤ s.op.toNat) (l : List Nat) :
    Spends (3 * l.length) s (putClens l s) := by
  induction l generalizing s with
  | nil => exact (Writes.nothing h).spends hown
  | cons sym l ih =>
    refine ((putClen_spends h hown sym).andThen fun t ht => ih ht.ready ht.ownBytes).of_le ?_
    rw [List.length_cons]
    omega

/-- No item of R99 has more than 7 extra bits, and the value fits them. -/
theorem bits_le_seven_of_itemInRange {i : Item} (h : itemInRange i = true) : i.bits ≤ 7 ∧ i.extra < 2 ^ i.bits := by
  simp only [itemInRange, Bool.or_eq_true, Bool.and_eq_true, decide_eq_true_eq] at h
  obtain ((⟨⟨-, hb⟩, he⟩ | ⟨⟨-, hb⟩, he⟩) | ⟨⟨-, hb⟩, he⟩) | ⟨⟨-, hb⟩, he⟩ := h <;> rw [hb] <;> omega

/-- An item is a code of at most 7 bits and at most 7 extra bits (R188, R321). -/
theorem putItems_spends {s : State} (h : PackerReady s) (hown : s.blkOut.toNat ≤ s.op.toNat) {l : List Item}
    (hl : ∀ i ∈ l, itemInRange i = true) : Spends (14 * l.length) s (putItems l s) := by
  induction l generalizing s with
  | nil => exact (Writes.nothing h).spends hown
  | cons i l ih =>
    rw [List.forall_mem_cons] at hl
    obtain ⟨hbits, hextra⟩ := bits_le_seven_of_itemInRange hl.1
    have hitem : Spends (7 + 7) s (putItem i s) := (emitCode_spends h hown .bl i.sym).andThen fun t ht =>
      (putBits_spends ht.ready ht.ownBytes (by omega) (toNat_ofNat_lt hextra)).of_le hbits
    refine (hitem.andThen fun t ht => ih ht.ready ht.ownBytes hl.2).of_le ?_
    rw [List.length_cons]
    omega

/-- A table has at most as many items as lengths (R321). -/
theorem sendTree_spends {s : State} (h : PackerReady s) (hown : s.blkOut.toNat ≤ s.op.toNat) (tb : Table) (n : Nat) :
    Spends (14 * n) s (sendTree tb n s) := by
  unfold sendTree
  cases hl : readLens tb 0 n s with
  | error c => exact spends_raise _ s s c
  | ok lens =>
    obtain ⟨hlens, hle⟩ := readLens_ok hl
    have hcodes := treeItems_codes fun l hl => (hle l hl).trans tb.maxLen_le
    have hshort := hcodes.short
    rw [show lens.length = n by simp [hlens]] at hshort
    exact (putItems_spends h hown hcodes.inRange).of_le (Nat.mul_le_mul_left 14 hshort)

/-! ## The states of a block -/

/-- The most bits that the step of a state whose step only emits may write (R321). -/
def emitAllowance : St → Nat
  | .hdrFixed => 17
  | .hdrClen => 57
  | .hdrTree => 14 * 316
  | .mlExtra => 5
  | .distExtra => 13
  | _ => 15

/-- A step that ends with a `goto`: it goes on having written at most n bits, or has raised. -/
theorem Spends.finish_goto {n : Nat} {s : State} {a : Act} (h : Spends n s a) (x : St) :
    (finish (Machine.andThen a fun t => .ok (goto x t))).st = .fault ∨
      blockBits (finish (Machine.andThen a fun t => .ok (goto x t))) ≤ blockBits s + n := by
  cases ha : a with
  | ok t => exact .inr (h.ok t ha).bits
  | error t => exact .inl (h.error t ha)

theorem lext_le (c : Nat) : lext c ≤ 5 := by
  by_cases hc : c < 29
  · exact (by decide : ∀ c < 29, lext c ≤ 5) c hc
  · rw [lext, List.getD_eq_default _ _ (Nat.not_lt.1 hc)]
    decide

theorem dext_le (c : Nat) : dext c ≤ 13 := by
  by_cases hc : c < 30
  · exact (by decide : ∀ c < 30, dext c ≤ 13) c hc
  · rw [dext, List.getD_eq_default _ _ (Nat.not_lt.1 hc)]
    decide

theorem putFixedHeader_spends {s : State} (h : Working s) : Spends 17 s (putFixedHeader s) := by
  simpa using (putFixedHeader_writes h.packerReady h.maxCodes).spends h.buffered.2.2

theorem putTrees_spends {s : State} (h : Working s) : Spends (14 * 316) s (putTrees s) := by
  obtain ⟨⟨-, h0⟩, ⟨-, h1⟩, -⟩ := maxCodesInRange_iff.1 h.maxCodes
  refine ((sendTree_spends h.packerReady h.buffered.2.2 .lit s.m0.toNat).andThen fun t ht => ?_).of_le
    (show 14 * s.m0.toNat + 14 * s.m1.toNat ≤ _ by omega)
  rw [← ht.emits.m1]
  exact sendTree_spends ht.ready ht.ownBytes .dist t.m1.toNat

/-- A state whose step only emits goes on having written no more than its allowance, or raises. -/
theorem Inv.emit_blockBits {s : State} {x : St} (h : Inv s) (hx : emitNext s.st = some x) :
    (coreStep s).st = .fault ∨ blockBits (coreStep s) ≤ blockBits s + emitAllowance s.st := by
  have hwork := h.working (emitNext_inBlock hx).1
  have hready := hwork.packerReady
  have hown := hwork.buffered.2.2
  unfold coreStep
  cases hs : s.st <;> rw [hs] at hx <;> cases hx
  case hdrFixed =>
    simp only [hdrFixed_eq]
    exact (putFixedHeader_spends hwork).finish_goto _
  case hdrClen =>
    obtain ⟨-, -, -, h2⟩ := maxCodesInRange_iff.1 hwork.maxCodes
    have hle : 3 * (blOrder.take s.m2.toNat).length ≤ 57 := by
      rw [List.length_take]
      omega
    exact ((putClens_spends hready hown _).of_le hle).finish_goto _
  case hdrTree =>
    simp only [hdrTree_eq]
    exact (putTrees_spends hwork).finish_goto _
  case litRep => exact (emitCode_spends hready hown .lit s.tLit.toNat).finish_goto _
  case mlDistRep =>
    have hlatched : PackerReady { s with lc := BitVec.ofNat 5 (lcode s.tLen.toNat) } :=
      ⟨hready.memCanonical, hready.packed, hready.bounded⟩
    exact (emitCode_spends hlatched hown .lit _).finish_goto _
  case mlExtra =>
    obtain ⟨h3, -⟩ := h.matchLatch (by rw [hs]; rfl)
    obtain ⟨-, hfit, hle⟩ := lengthExtra_fits h3 s.tLen.isLt
    rw [← h.lengthCode hs] at hfit hle
    exact ((putExtra_spends hready hown hle hfit).of_le (lext_le _)).finish_goto _
  case distRep =>
    have hlatched : PackerReady { s with dc := BitVec.ofNat 5 (dcode s.tOff.toNat) } :=
      ⟨hready.memCanonical, hready.packed, hready.bounded⟩
    exact (emitCode_spends hlatched hown .dist _).finish_goto _
  case distExtra =>
    obtain ⟨-, hoff⟩ := h.matchLatch (by rw [hs]; rfl)
    obtain ⟨-, hfit, hle⟩ := distanceExtra_fits hoff
    rw [← h.distanceCode hs] at hfit hle
    exact ((putExtra_spends hready hown hle hfit).of_le (dext_le _)).finish_goto _

/-- The end of a block writes at most the code of EOB and the longest flush (R321). -/
theorem blockEnd_spends {s : State} (h : Working s) :
    Spends 57 s (andThen (emitCode .lit eobSymbol s) flushBlock) :=
  (emitCode_spends h.packerReady h.buffered.2.2 .lit eobSymbol).andThen fun t ht => by
    have hflush := (flushBlock_writes ht.ready).spends ht.ownBytes
    rw [flushBits_length] at hflush
    exact hflush.of_le (flushLength_le _ _)

end Sys2Proof.Machine
end

section
/-! PROOFS. The bit budget of a block: the header's allowance, and 16 bits for each byte that tokens have covered
(O58). -/

namespace Sys2Proof.Machine

theorem withinBudget_of_not_inBlock {s : State} (h : s.st.inBlock = false) : WithinBudget s :=
  fun hin => by rw [h] at hin; cases hin

/-- What a state may have written and what its step may write is what the next state may have written. -/
theorem headerAllowance_step {x y : St} (h : emitNext x = some y) :
    headerAllowance x + emitAllowance x ≤ headerAllowance y := by
  cases x <;> cases h <;> decide

theorem withinBudget_emitStep {s : State} {x : St} (h : Inv s) (hx : emitNext s.st = some x) (ha : WithinBudget s) :
    WithinBudget (coreStep s) := by
  obtain ⟨hin, -⟩ := emitNext_inBlock hx
  obtain ⟨hrem, hbits⟩ := ha hin
  rcases coreStep_emitStep h.memCanonical hx with ⟨he, hst, -⟩ | ⟨u, c, heq, -⟩
  · have hsame := (latchCode_sameAccount s).trans he.sameAccount
    rcases h.emit_blockBits hx with hfault | hgain
    · exact withinBudget_of_not_inBlock (congrArg St.inBlock hfault)
    · have hallow := headerAllowance_step hx
      intro _
      rw [hst, element_desc_congr hsame.desc, hsame.blk, hsame.blkRem]
      exact ⟨hrem, by omega⟩
  · rw [heq]
    exact withinBudget_of_not_inBlock rfl

/-- A token pays for its code with 16 bits a byte (R321). -/
theorem withinBudget_countBytes {s u : State} {n : Word} {x : St} (ha : WithinBudget s) (hs : s.st = .writeToken)
    (hu : SameAccount s u) (hbits : blockBits u = blockBits s) (hle : n.toNat ≤ s.blkRem.toNat)
    (hpay : 4498 ≤ headerAllowance x + 16 * n.toNat) : WithinBudget (goto x (countBytes n u)) := by
  obtain ⟨hrem, hspent⟩ := ha (by rw [hs]; rfl)
  have hsub : (s.blkRem - n).toNat = s.blkRem.toNat - n.toNat := BitVec.toNat_sub_of_le hle
  have hsame : blockBits (goto x (countBytes n u)) = blockBits u := rfl
  have hstart : headerAllowance s.st = 4498 := by rw [hs]; rfl
  intro _
  simp only [goto_mem, goto_blk, goto_blkRem, goto_st, countBytes_mem, countBytes_blk, countBytes_blkRem]
  rw [element_desc_congr hu.desc, hu.blk, hu.blkRem, hsub, hsame, hbits]
  exact ⟨by omega, by omega⟩

/-- A literal pays 16 bits and a match of 3 bytes or more 48, as much as their codes may take (R321). -/
theorem withinBudget_acceptToken {s : State} (hs : s.st = .writeToken) (hrem : s.blkRem ≠ 0#32) (ha : WithinBudget s)
    (i : Instr) (hlen : ∀ len off, i = .matchTok len off → 3 ≤ len.toNat) : WithinBudget (acceptToken i s) := by
  cases i with
  | lit b =>
    have hpos : s.blkRem.toNat ≠ 0 := fun h => hrem (BitVec.eq_of_toNat_eq h)
    exact withinBudget_countBytes (u := { nextToken s with tLit := b }) (n := 1) ha hs ⟨rfl, rfl, rfl, rfl, rfl⟩ rfl
      (Nat.pos_of_ne_zero hpos) (by decide)
  | matchTok len off =>
    show WithinBudget (acceptMatch len off s)
    rcases acceptMatch_cases len off s with ⟨-, hle, -, heq⟩ | ⟨c, heq⟩ <;> rw [heq]
    · have hn : (len.zeroExtend 32).toNat = len.toNat := BitVec.toNat_setWidth_of_le (by decide)
      have h3 := hlen len off rfl
      have hallow : headerAllowance .mlDistRep = 4498 - 48 := rfl
      exact withinBudget_countBytes (u := { nextToken s with tLen := len, tOff := off }) (n := len.zeroExtend 32) ha hs
        ⟨rfl, rfl, rfl, rfl, rfl⟩ rfl (by omega) (by omega)
    · exact withinBudget_of_not_inBlock rfl
  | _ => exact withinBudget_of_not_inBlock rfl

theorem withinBudget_writeToken {s : State} (hs : s.st = .writeToken) (ha : WithinBudget s) :
    WithinBudget (writeToken s) := by
  unfold writeToken
  split_ifs with hrem hp
  · have hbudget := ha (by rw [hs]; rfl)
    rw [hs] at hbudget
    exact fun _ => hbudget
  · exact withinBudget_acceptToken hs hrem ha _ fun len off => three_le_of_decodeToken
  · exact withinBudget_of_not_inBlock rfl

/-- A block begins with no bit written and no byte covered (R152). -/
theorem withinBudget_blkStart (s : State) : WithinBudget (blkStart s) := by
  rcases blkStart_cases s with ⟨c, heq⟩ | ⟨bs, a, b, c, heq, rfl, -⟩ <;> rw [heq]
  · exact withinBudget_of_not_inBlock rfl
  · exact fun _ => ⟨le_rfl, Nat.zero_le _⟩

theorem withinBudget_sendOutput {s : State} (hw : Arrays.wf s.mem = true) : WithinBudget (sendOutput s) := by
  refine withinBudget_of_not_inBlock ?_
  rcases sendOutput_ends hw with hsent | ⟨u, c, heq, -⟩
  · rcases hsent.ends with hst | ⟨hst, -⟩ <;> rw [hst] <;> rfl
  · rw [heq]
    rfl

/-- An action of the core keeps the budget. -/
theorem withinBudget_coreStep {s : State} (h : Inv s) (ha : WithinBudget s) : WithinBudget (coreStep s) := by
  cases hx : emitNext s.st with
  | some x => exact withinBudget_emitStep h hx ha
  | none =>
    unfold coreStep
    cases hs : s.st <;> rw [hs] at hx <;> simp only
    case idle => exact ha
    case fault => exact ha
    case blkStart => exact withinBudget_blkStart s
    case writeToken => exact withinBudget_writeToken hs ha
    case sendOutput => exact withinBudget_sendOutput h.memCanonical
    all_goals cases hx

theorem withinBudget_start {s t : State} (ha : WithinBudget s) (ht : exec .start s = .next t) : WithinBudget t := by
  rw [exec_start_eq] at ht
  cases ht
  split_ifs with hacc hsize
  · exact withinBudget_of_not_inBlock (congrArg St.inBlock hacc.1)
  · exact withinBudget_of_not_inBlock rfl
  · exact ha

theorem withinBudget_hostMove {s t : State} {a : HostAct} (ha : WithinBudget s)
    (ht : perform (hostMove a s) = .next t) : WithinBudget t := by
  rcases hostMove_frame ht with h | h | h
  · exact withinBudget_start ha h
  · exact withinBudget_of_not_inBlock (congrArg St.inBlock h)
  · rw [h]
    exact ha

/-- Every step, of either agent, keeps the budget. -/
theorem withinBudget_step {s t : State} (h : Inv s) (ha : WithinBudget s) (hstep : step s = .next t) :
    WithinBudget t := by
  obtain ⟨rest, rfl | rfl | ⟨a, ht⟩⟩ := step_movers hstep
  · exact withinBudget_coreStep (h.withTurns rest) ha
  · exact ha
  · exact withinBudget_hostMove (s := { s with turns := rest }) ha ht

/-- The block's recorded byte count: its budget at `SEND_OUTPUT` and the 57 bits of its end, in whole bytes (R321). -/
theorem recordedSize_le {s : State} (h : Inv s) (hs : s.st = .sendOutput) (ha : WithinBudget s)
    (hfault : (sendOutput s).fault = none) :
    (element (sendOutput s).mem .size s.blk.toNat).toNat ≤ 2 * (element s.mem .desc s.blk.toNat).toNat + 570 := by
  have hin : s.st.inBlock = true := by rw [hs]; rfl
  have hwork := h.working hin
  obtain ⟨-, hbits⟩ := ha hin
  have hstart : headerAllowance s.st = 4498 := by rw [hs]; rfl
  rcases sendOutput_cases s h.memCanonical with ⟨u, -, -, -, hok, heq⟩ | ⟨u, c, heq, -⟩
  · have hend := ((blockEnd_spends hwork).ok u hok).bits
    have hsize : element (sendOutput s).mem .size s.blk.toNat = u.blkOut := by
      rw [heq, nextOrDone_eq]
      exact (hwork.flushed hok).element_size.1
    rw [hsize]
    unfold blockBits at hend hbits
    omega
  · rw [heq] at hfault
    cases hfault

/-- Settles O58: the budget by mover, and at the block's end by what `SEND_OUTPUT` records. -/
theorem outputWithinBound : Obligations.OutputWithinBound := by
  refine ⟨withinBudget_of_not_inBlock rfl, fun s t hs _ ht => ?_, fun s t h ha hstep => ?_⟩
  · exact withinBudget_start (withinBudget_of_not_inBlock (congrArg St.inBlock hs)) ht
  · refine ⟨withinBudget_step h ha hstep, fun hturns hs hfault => ?_⟩
    rw [step_sendOutput hturns (eq_coreStep_of_step hturns hstep).1 hs] at hstep
    cases hstep
    exact recordedSize_le h hs ha hfault

end Sys2Proof.Machine
end

section
/-! PROOFS. What two runs of one session share while a block is at work, and that no emitting operation tells the two
apart (R312). -/

namespace Sys2Proof.Machine

/-! ## What is shared -/

/-- The part of `SameSession` that every state of the core shares, over canonical arrays. -/
structure SameRegisters (s t : State) : Prop where
  canonical : Arrays.wf s.mem = true ∧ Arrays.wf t.mem = true
  cfg : s.cfg = t.cfg
  arrays : sameInputArrays s.mem t.mem
  fault : s.fault = t.fault
  done : s.done = t.done
  latInputSize : s.latInputSize = t.latInputSize
  latBskb : s.latBskb = t.latBskb
  tp : s.tp = t.tp
  consumed : s.consumed = t.consumed
  op : s.op = t.op
  blk : s.blk = t.blk
  out : ∀ a, a < s.op.toNat → Memory.read s.mem.out a = Memory.read t.mem.out a
  size : ∀ i, i < s.blk.toNat → element s.mem .size i = element t.mem .size i

/-- What the states of a block share beside that. -/
structure SameBlock (s t : State) : Prop extends SameRegisters s t where
  blkRem : s.blkRem = t.blkRem
  blkOut : s.blkOut = t.blkOut
  acc : s.acc = t.acc
  nbits : s.nbits = t.nbits
  m0 : s.m0 = t.m0
  m1 : s.m1 = t.m1
  m2 : s.m2 = t.m2
  bfinal : s.bfinal = t.bfinal

/-- The latches that the rule of the state x reads (R35, R36). -/
structure SameLatches (x : St) (s t : State) : Prop where
  literal : x = .litRep → s.tLit = t.tLit
  matchLatch : x.inMatch = true → s.tLen = t.tLen ∧ s.tOff = t.tOff
  lengthCode : x = .mlExtra → s.lc = t.lc
  distanceCode : x = .distExtra → s.dc = t.dc

theorem SameSession.registers {s t : State} (h : SameSession s t) (hs : Arrays.wf s.mem = true)
    (ht : Arrays.wf t.mem = true) : SameRegisters s t := by
  obtain ⟨hop, hblk, hout, hsize⟩ := h.results
  exact ⟨⟨hs, ht⟩, h.cfg, h.arrays, h.fault, h.done, h.arguments.1, h.arguments.2, h.pointers.1, h.pointers.2, hop,
    hblk, hout, hsize⟩

theorem SameSession.sameBlock {s t : State} (h : SameSession s t) (hs : Arrays.wf s.mem = true)
    (ht : Arrays.wf t.mem = true) (hin : s.st.inBlock = true) : SameBlock s t := by
  obtain ⟨hrem, hout, hacc, hnbits, h0, h1, h2, hfinal⟩ := h.block hin
  exact ⟨h.registers hs ht, hrem, hout, hacc, hnbits, h0, h1, h2, hfinal⟩

theorem SameSession.latches {s t : State} (h : SameSession s t) : SameLatches s.st s t :=
  ⟨h.literal, h.matchLatch, h.lengthCode, h.distanceCode⟩

/-- A state of a block reads the block's registers and the latches of its rule. -/
theorem SameBlock.sameSession {s t : State} (h : SameBlock s t) (hst : s.st = t.st) (hl : SameLatches s.st s t) :
    SameSession s t where
  cfg := h.cfg
  arrays := h.arrays
  st := hst
  fault := h.fault
  done := h.done
  arguments := ⟨h.latInputSize, h.latBskb⟩
  pointers := ⟨h.tp, h.consumed⟩
  results := ⟨h.op, h.blk, h.out, h.size⟩
  block _ := ⟨h.blkRem, h.blkOut, h.acc, h.nbits, h.m0, h.m1, h.m2, h.bfinal⟩
  literal := hl.literal
  matchLatch := hl.matchLatch
  lengthCode := hl.lengthCode
  distanceCode := hl.distanceCode

/-- Outside a block no rule reads a register of the block or a latch. -/
theorem SameRegisters.sameSession {s t : State} (h : SameRegisters s t) (hst : s.st = t.st)
    (hout : s.st.inBlock = false) : SameSession s t where
  cfg := h.cfg
  arrays := h.arrays
  st := hst
  fault := h.fault
  done := h.done
  arguments := ⟨h.latInputSize, h.latBskb⟩
  pointers := ⟨h.tp, h.consumed⟩
  results := ⟨h.op, h.blk, h.out, h.size⟩
  block hin := by rw [hout] at hin; cases hin
  literal hx := by rw [hx] at hout; cases hout
  matchLatch hx := by rcases inMatch_iff.1 hx with h | h | h | h <;> rw [h] at hout <;> cases hout
  lengthCode hx := by rw [hx] at hout; cases hout
  distanceCode hx := by rw [hx] at hout; cases hout

theorem SameRegisters.raise {s t : State} (h : SameRegisters s t) (c : FaultCode) :
    SameSession (raise c s) (raise c t) :=
  SameRegisters.sameSession { h with fault := rfl } rfl rfl

theorem SameBlock.goto {x : St} {s t : State} (h : SameBlock s t) (hl : SameLatches x s t) :
    SameSession (goto x s) (goto x t) :=
  SameBlock.sameSession { h with } rfl { hl with }

theorem sameLatches_of_plain {x : St} (hlit : x ≠ .litRep) (hmatch : x.inMatch = false) (s t : State) :
    SameLatches x s t where
  literal hx := absurd hx hlit
  matchLatch hx := by rw [hmatch] at hx; cases hx
  lengthCode hx := by rw [hx] at hmatch; cases hmatch
  distanceCode hx := by rw [hx] at hmatch; cases hmatch

theorem SameLatches.emit {x : St} {s t u v : State} (h : SameLatches x s t) (hx : x ≠ .litRep) (hu : EmitsOnly s u)
    (hv : EmitsOnly t v) : SameLatches x u v where
  literal h := absurd h hx
  matchLatch hx := by rw [hu.tLen, hu.tOff, hv.tLen, hv.tOff]; exact h.matchLatch hx
  lengthCode hx := by rw [hu.lc, hv.lc]; exact h.lengthCode hx
  distanceCode hx := by rw [hu.dc, hv.dc]; exact h.distanceCode hx

/-! ## Reads -/

theorem element_congr {a b : Arrays} (h : sameInputArrays a b) {sp : Space} (hsp : sp.isOutput = false) (i : Nat) :
    element a sp i = element b sp i := by
  obtain ⟨h1, h2, h3, h4, h5, h6, h7, h8, h9⟩ := h
  cases sp <;> cases hsp <;> simp only [element, Arrays.get, *]

theorem SameRegisters.memRead {s t : State} (h : SameRegisters s t) {sp : Space} (hsp : sp.isOutput = false) (i : Nat) :
    memRead sp i s = memRead sp i t := by
  simp only [Machine.memRead, h.cfg, element_congr h.arrays hsp]

theorem SameRegisters.codeLen {s t : State} (h : SameRegisters s t) (tb : Table) (sym : Nat) :
    codeLen tb sym s = codeLen tb sym t := by
  simp only [Machine.codeLen, tableIndex, h.blk]
  exact h.memRead (by cases tb <;> rfl) _

theorem SameRegisters.lookupCode {s t : State} (h : SameRegisters s t) (tb : Table) (sym : Nat) :
    lookupCode tb sym s = lookupCode tb sym t := by
  have hvalue : codeValue tb sym s = codeValue tb sym t := by
    simp only [codeValue, tableIndex, h.blk]
    exact h.memRead (by cases tb <;> rfl) _
  simp only [Machine.lookupCode, h.codeLen, hvalue, h.cfg]

theorem SameRegisters.readLens {s t : State} (h : SameRegisters s t) (tb : Table) (k n : Nat) :
    readLens tb k n s = readLens tb k n t := by
  induction n generalizing k with
  | zero => rfl
  | succ n ih => simp only [Machine.readLens, h.codeLen, ih]

/-! ## The emitting operations -/

/-- Two runs' parts of a step end alike: both go on, or both have taken the same fault. -/
inductive EndAlike : Act → Act → Prop
  | goesOn {s t : State} (h : SameBlock s t) : EndAlike (.ok s) (.ok t)
  | raised {s t : State} (c : FaultCode) (h : SameRegisters s t) : EndAlike (.error (raise c s)) (.error (raise c t))

/-- The operation ends alike in two states of a block that share what is shared. -/
def SessionOnly (k : State → Act) : Prop := ∀ s t, SameBlock s t → EndAlike (k s) (k t)

theorem EndAlike.andThen {a b : Act} {f g : State → Act} (h : EndAlike a b)
    (hk : ∀ s t, SameBlock s t → EndAlike (f s) (g t)) : EndAlike (andThen a f) (andThen b g) := by
  cases h with
  | goesOn h => exact hk _ _ h
  | raised c h => exact .raised c h

theorem SessionOnly.andThen {f g : State → Act} (hf : SessionOnly f) (hg : SessionOnly g) :
    SessionOnly fun s => andThen (f s) g :=
  fun s t h => (hf s t h).andThen hg

/-- A step whose last action takes a state to its next one. -/
theorem EndAlike.finish_map {a b : Act} {f : State → State} (h : EndAlike a b)
    (hf : ∀ u v, a = .ok u → b = .ok v → SameBlock u v → SameSession (f u) (f v)) :
    SameSession (finish (Machine.andThen a fun t => .ok (f t))) (finish (Machine.andThen b fun t => .ok (f t))) := by
  cases h with
  | goesOn h => exact hf _ _ rfl rfl h
  | raised c h => exact h.raise c

/-- A step that ends with a `goto` to a state whose rule reads no latch. -/
theorem EndAlike.finish_goto {a b : Act} {x : St} (h : EndAlike a b) (hlit : x ≠ .litRep) (hmatch : x.inMatch = false) :
    SameSession (finish (Machine.andThen a fun t => .ok (goto x t)))
      (finish (Machine.andThen b fun t => .ok (goto x t))) :=
  h.finish_map fun u v _ _ huv => huv.goto (sameLatches_of_plain hlit hmatch u v)

/-- A step that ends with a `goto` to a later state of the match: an emission leaves the latches as they are. -/
theorem EndAlike.finish_goto_match {s t : State} {a b : Act} {x : St} {codes : FaultCode → Prop} (h : EndAlike a b)
    (hlit : x ≠ .litRep) (hs : EmitSpec s a codes) (ht : EmitSpec t b codes) (hl : SameLatches x s t) :
    SameSession (finish (Machine.andThen a fun t => .ok (goto x t)))
      (finish (Machine.andThen b fun t => .ok (goto x t))) :=
  h.finish_map fun u v hu hv huv => huv.goto (hl.emit hlit (hs.ok u hu).1 (ht.ok v hv).1)

theorem sessionOnly_ok : SessionOnly Except.ok := fun _ _ h => .goesOn h

theorem sessionOnly_raise (c : FaultCode) : SessionOnly fun s => .error (raise c s) :=
  fun _ _ h => .raised c h.toSameRegisters

theorem SessionOnly.ite {f g : State → Act} {p : State → Prop} [DecidablePred p]
    (hp : ∀ s t, SameBlock s t → (p s ↔ p t)) (hf : SessionOnly f) (hg : SessionOnly g) :
    SessionOnly fun s => if p s then f s else g s := by
  intro s t h
  by_cases hs : p s
  · simpa only [if_pos hs, if_pos ((hp s t h).1 hs)] using hf s t h
  · simpa only [if_neg hs, if_neg (mt (hp s t h).2 hs)] using hg s t h

/-- A byte stored at `op` is the same byte of both outputs (R131). -/
theorem SameBlock.emitted {s t : State} (h : SameBlock s t) (hroom : s.op.toNat < s.cfg.outBytes.toNat) (b : Byte) :
    SameBlock (emitted b s) (emitted b t) :=
  { h with
    canonical := ⟨emitted_wf b s h.canonical.1, emitted_wf b t h.canonical.2⟩
    op := congrArg (· + 1) h.op
    blkOut := congrArg (· + 1) h.blkOut
    out := fun a ha => by
      have hlt : a < (s.op + 1).toNat := ha
      rw [toNat_add_one hroom] at hlt
      have hs := Memory.read_write s.mem.out s.op.toNat a b ((Arrays.wf_iff _).1 h.canonical.1 .out)
      have ht := Memory.read_write t.mem.out t.op.toNat a b ((Arrays.wf_iff _).1 h.canonical.2 .out)
      refine hs.trans (Eq.trans ?_ ht.symm)
      rw [← h.op]
      split_ifs with heq
      · rfl
      · exact h.out a (by omega) }

theorem sessionOnly_outByte (b : Byte) : SessionOnly (outByte b) := by
  intro s t h
  rw [outByte_eq, outByte_eq, ← h.op, ← h.cfg]
  split_ifs with hroom
  · exact .goesOn (h.emitted hroom b)
  · exact .raised _ h.toSameRegisters

/-- The accumulator moves alike (R130). -/
theorem SameBlock.setPending {s t : State} (h : SameBlock s t) (acc : Word) (nbits : BitVec 5) :
    SameBlock { s with acc := acc, nbits := nbits } { t with acc := acc, nbits := nbits } :=
  { h with acc := rfl, nbits := rfl }

theorem sessionOnly_drain (k : Nat) : SessionOnly (drain k) := by
  induction k with
  | zero => exact sessionOnly_ok
  | succ k ih =>
    intro s t h
    have hbyte := sessionOnly_outByte (s.acc.setWidth 8) s t h
    rw [drain, drain, ← h.acc]
    refine hbyte.andThen fun u v huv => ?_
    rw [← huv.acc, ← huv.nbits]
    exact ih _ _ (huv.setPending _ _)

theorem sessionOnly_putBits (v : Word) (n : Nat) : SessionOnly (putBits v n) := by
  intro s t h
  rw [putBits, putBits, appendBits, appendBits, ← h.acc, ← h.nbits]
  exact sessionOnly_drain _ _ _ (h.setPending _ _)

theorem sessionOnly_padToByte : SessionOnly padToByte := by
  intro s t h
  rw [padToByte, padToByte, ← h.nbits]
  split_ifs
  · exact sessionOnly_putBits _ _ s t h
  · exact .goesOn h

theorem sessionOnly_putExtra (v e : Nat) : SessionOnly (putExtra v e) :=
  SessionOnly.ite (p := fun _ => e = 0) (fun _ _ _ => Iff.rfl) sessionOnly_ok (sessionOnly_putBits _ e)

theorem sessionOnly_emitCode (tb : Table) (sym : Nat) : SessionOnly (emitCode tb sym) := by
  intro s t h
  unfold emitCode
  rw [← h.lookupCode]
  cases lookupCode tb sym s with
  | error c => exact .raised c h.toSameRegisters
  | ok p => exact sessionOnly_putBits p.2 p.1 s t h

theorem sessionOnly_putClen (sym : Nat) : SessionOnly (putClen sym) := by
  intro s t h
  unfold putClen
  rw [← h.codeLen]
  cases codeLen .bl sym s with
  | error c => exact .raised c h.toSameRegisters
  | ok v =>
    exact SessionOnly.ite (p := fun _ => maxLenBl < v.toNat) (fun _ _ _ => Iff.rfl) (sessionOnly_raise .lenRange)
      (sessionOnly_putBits v 3) s t h

theorem sessionOnly_putClens (l : List Nat) : SessionOnly (putClens l) := by
  induction l with
  | nil => exact sessionOnly_ok
  | cons sym l ih => exact (sessionOnly_putClen sym).andThen ih

theorem sessionOnly_putItems (l : List Item) : SessionOnly (putItems l) := by
  induction l with
  | nil => exact sessionOnly_ok
  | cons i l ih => exact ((sessionOnly_emitCode .bl i.sym).andThen (sessionOnly_putBits _ i.bits)).andThen ih

theorem sessionOnly_sendTree (tb : Table) (n : Nat) : SessionOnly (sendTree tb n) := by
  intro s t h
  unfold sendTree
  rw [← h.readLens]
  cases readLens tb 0 n s with
  | error c => exact .raised c h.toSameRegisters
  | ok lens => exact sessionOnly_putItems (treeItems lens) s t h

theorem sessionOnly_putTrees : SessionOnly putTrees := by
  intro s t h
  rw [putTrees, putTrees, ← h.m0]
  refine (sessionOnly_sendTree .lit _ s t h).andThen fun u v huv => ?_
  rw [← huv.m1]
  exact sessionOnly_sendTree .dist _ u v huv

theorem sessionOnly_putFixedHeader : SessionOnly putFixedHeader := by
  intro s t h
  rw [putFixedHeader, putFixedHeader, ← h.bfinal, ← h.m0, ← h.m1, ← h.m2]
  exact ((sessionOnly_putBits _ 3).andThen <| (sessionOnly_putBits _ 5).andThen <|
    (sessionOnly_putBits _ 5).andThen (sessionOnly_putBits _ 4)) s t h

theorem sessionOnly_flushSync : SessionOnly flushSync :=
  (sessionOnly_putBits 0 3).andThen <| sessionOnly_padToByte.andThen <| (sessionOnly_outByte _).andThen <|
    (sessionOnly_outByte _).andThen <| (sessionOnly_outByte _).andThen (sessionOnly_outByte _)

theorem sessionOnly_flushBlock : SessionOnly flushBlock :=
  SessionOnly.ite (p := fun s => s.cfg.flush = .sync ∧ s.bfinal = 0#1) (fun s t h => by rw [h.cfg, h.bfinal])
    sessionOnly_flushSync sessionOnly_padToByte

end Sys2Proof.Machine
end

section
/-! PROOFS. Two runs of one session step alike (R312), and so they stay alike from START on (O60). -/

namespace Sys2Proof.Machine

/-! ## The tokens -/

theorem SameBlock.nextToken {s t : State} (h : SameBlock s t) : SameBlock (nextToken s) (nextToken t) :=
  { h with tp := congrArg (· + 1) h.tp }

theorem SameBlock.countBytes {s t : State} (h : SameBlock s t) (n : Word) :
    SameBlock (countBytes n s) (countBytes n t) :=
  { h with blkRem := congrArg (· - n) h.blkRem, consumed := congrArg (· + n) h.consumed }

theorem SameBlock.acceptLit {s t : State} (h : SameBlock s t) (b : Byte) :
    SameSession (acceptLit b s) (acceptLit b t) := by
  have hlatched : SameBlock { Machine.nextToken s with tLit := b } { Machine.nextToken t with tLit := b } :=
    { h.nextToken with }
  exact (hlatched.countBytes 1).goto ⟨fun _ => rfl, nofun, nofun, nofun⟩

theorem SameBlock.acceptMatch {s t : State} (h : SameBlock s t) (len : Byte) (off : BitVec 16) :
    SameSession (acceptMatch len off s) (acceptMatch len off t) := by
  have hcheck : checkMatch len off s = checkMatch len off t := by simp only [checkMatch, h.blkRem, h.consumed]
  have hlatched :
      SameBlock { Machine.nextToken s with tLen := len, tOff := off }
        { Machine.nextToken t with tLen := len, tOff := off } := { h.nextToken with }
  unfold Machine.acceptMatch
  rw [← hcheck]
  cases checkMatch len off s with
  | error c => exact h.nextToken.raise c
  | ok _ => exact (hlatched.countBytes (len.zeroExtend 32)).goto ⟨nofun, fun _ => ⟨rfl, rfl⟩, nofun, nofun⟩

theorem SameBlock.acceptToken {s t : State} (h : SameBlock s t) (i : Instr) :
    SameSession (acceptToken i s) (acceptToken i t) := by
  cases i with
  | lit b => exact h.acceptLit b
  | matchTok len off => exact h.acceptMatch len off
  | _ => exact h.nextToken.raise .tokenRsv

theorem SameBlock.writeToken {s t : State} (h : SameBlock s t) : SameSession (writeToken s) (writeToken t) := by
  unfold Machine.writeToken
  rw [← h.blkRem, ← h.tp, ← h.cfg, ← element_congr h.arrays rfl]
  split_ifs
  · exact h.goto (sameLatches_of_plain (by decide) rfl s t)
  · exact h.acceptToken _
  · exact h.raise .tokenOverrun

/-! ## The block's start and end -/

theorem SameRegisters.readMaxCodes {s t : State} (h : SameRegisters s t) : readMaxCodes s = readMaxCodes t := by
  simp only [Machine.readMaxCodes, h.blk, h.memRead (sp := .maxc) rfl]

theorem SameRegisters.badBlockSize {s t : State} (h : SameRegisters s t) (bs : Nat) :
    badBlockSize bs s = badBlockSize bs t := by
  simp only [Machine.badBlockSize, h.latBskb, h.cfg, h.latInputSize, h.consumed]

/-- `BLK_START` writes the block's registers, so that from then on they are shared (R152). -/
theorem SameRegisters.openBlock {s t : State} (h : SameRegisters s t) (bs a b c : Word) :
    SameSession (openBlock bs a b c s) (openBlock bs a b c t) := by
  have hfinal : bfinalOf bs.toNat s = bfinalOf bs.toNat t := by simp only [bfinalOf, h.cfg, h.consumed, h.latInputSize]
  have hopen : SameBlock (Machine.openBlock bs a b c s) (Machine.openBlock bs a b c t) :=
    { h with
      blkRem := rfl, blkOut := rfl, acc := rfl, nbits := rfl, m0 := rfl, m1 := rfl, m2 := rfl, bfinal := hfinal }
  exact hopen.sameSession rfl (sameLatches_of_plain (x := .hdrFixed) (by decide) rfl _ _)

theorem SameRegisters.blkStart {s t : State} (h : SameRegisters s t) : SameSession (blkStart s) (blkStart t) := by
  unfold Machine.blkStart
  rw [← h.blk, ← h.memRead rfl, ← h.readMaxCodes]
  cases Machine.memRead .desc s.blk.toNat s with
  | error c => exact h.raise c
  | ok bs =>
    simp only [← h.badBlockSize]
    cases Machine.badBlockSize bs.toNat s with
    | true => exact h.raise .badBlockSize
    | false =>
      cases Machine.readMaxCodes s with
      | error c => exact h.raise c
      | ok abc =>
        obtain ⟨a, b, c⟩ := abc
        simp only
        cases maxCodesInRange a.toNat b.toNat c.toNat with
        | true => exact h.openBlock bs a b c
        | false => exact h.raise .badMaxCodes

/-- The record is the same element of both `SIZE` arrays (R255). -/
theorem SameBlock.recorded {s t : State} (h : SameBlock s t) (hblk : s.blk.toNat < s.cfg.maxBlocks.toNat) :
    SameBlock (recorded s) (recorded t) :=
  { h with
    canonical := ⟨wf_withElement _ _ _ _ h.canonical.1, wf_withElement _ _ _ _ h.canonical.2⟩
    blk := congrArg (· + 1) h.blk
    size := fun i hi => by
      have hlt : i < (s.blk + 1).toNat := hi
      rw [toNat_add_one hblk] at hlt
      show element (withElement s.mem .size s.blk.toNat s.blkOut) .size i =
        element (withElement t.mem .size t.blk.toNat t.blkOut) .size i
      rw [← h.blk, ← h.blkOut]
      by_cases heq : i = s.blk.toNat
      · rw [heq, element_withElement_same _ _ _ (by decide) h.canonical.1,
          element_withElement_same _ _ _ (by decide) h.canonical.2]
      · rw [element_withElement_ne _ _ heq h.canonical.1, element_withElement_ne _ _ heq h.canonical.2]
        exact h.size i (by omega) }

theorem recordSize_of_not_lt {s : State} (h : ¬ s.blk.toNat < s.cfg.maxBlocks.toNat) :
    recordSize s = .error (raise .blockOverrun s) := by
  rw [recordSize, memWrite, if_neg (show ¬ s.blk.toNat < capacity s.cfg .size from h)]
  rfl

theorem sessionOnly_recordSize : SessionOnly recordSize := by
  intro s t h
  by_cases hs : s.blk.toNat < s.cfg.maxBlocks.toNat
  · rw [recordSize_of_lt hs, recordSize_of_lt (by rwa [← h.blk, ← h.cfg])]
    exact .goesOn (h.recorded hs)
  · rw [recordSize_of_not_lt hs, recordSize_of_not_lt (by rwa [← h.blk, ← h.cfg])]
    exact .raised _ h.toSameRegisters

theorem SameRegisters.nextOrDone {s t : State} (h : SameRegisters s t) :
    SameSession (nextOrDone s) (nextOrDone t) := by
  unfold Machine.nextOrDone
  rw [← h.consumed, ← h.latInputSize]
  split_ifs
  · exact SameRegisters.sameSession { h with done := rfl } rfl rfl
  · exact SameRegisters.sameSession { h with } rfl rfl

theorem SameBlock.sendOutput {s t : State} (h : SameBlock s t) : SameSession (sendOutput s) (sendOutput t) := by
  have hend := ((sessionOnly_emitCode .lit eobSymbol).andThen <| sessionOnly_flushBlock.andThen sessionOnly_recordSize)
    s t h
  have hnext := hend.finish_map fun u v _ _ huv => huv.nextOrDone
  simpa only [Machine.sendOutput, andThen_assoc] using hnext

/-! ## The states that emit -/

theorem SameBlock.litRep {s t : State} (h : SameBlock s t) (hl : SameLatches .litRep s t) :
    SameSession (litRep s) (litRep t) := by
  unfold Machine.litRep
  rw [← hl.literal rfl]
  exact (sessionOnly_emitCode .lit _ s t h).finish_goto (by decide) rfl

theorem SameBlock.mlDistRep {s t : State} (h : SameBlock s t) (hl : SameLatches .mlDistRep s t) :
    SameSession (mlDistRep s) (mlDistRep t) := by
  obtain ⟨hlen, hoff⟩ := hl.matchLatch rfl
  have hcode : lcode s.tLen.toNat = lcode t.tLen.toNat := by rw [hlen]
  have hlatched (c : BitVec 5) : SameBlock { s with lc := c } { t with lc := c } := { h with }
  have hnext (c : BitVec 5) : SameLatches .mlExtra { s with lc := c } { t with lc := c } :=
    ⟨nofun, fun _ => ⟨hlen, hoff⟩, fun _ => rfl, nofun⟩
  have hemit (c : Nat) := (sessionOnly_emitCode .lit (257 + c) _ _ (hlatched (BitVec.ofNat 5 c))).finish_goto_match
    (by decide) (emitCode_spec _ _ _ h.canonical.1) (emitCode_spec _ _ _ h.canonical.2) (hnext _)
  simpa only [Machine.mlDistRep, hcode] using hemit (lcode t.tLen.toNat)

theorem SameBlock.mlExtra {s t : State} (h : SameBlock s t) (hl : SameLatches .mlExtra s t) :
    SameSession (mlExtra s) (mlExtra t) := by
  obtain ⟨hlen, hoff⟩ := hl.matchLatch rfl
  simp only [Machine.mlExtra, ← hlen, ← hl.lengthCode rfl]
  have hnext : SameLatches .distRep s t := ⟨nofun, fun _ => ⟨hlen, hoff⟩, nofun, nofun⟩
  exact (sessionOnly_putExtra _ _ s t h).finish_goto_match (by decide) (putExtra_spec _ _ s h.canonical.1)
    (putExtra_spec _ _ t h.canonical.2) hnext

theorem SameBlock.distRep {s t : State} (h : SameBlock s t) (hl : SameLatches .distRep s t) :
    SameSession (distRep s) (distRep t) := by
  obtain ⟨hlen, hoff⟩ := hl.matchLatch rfl
  have hcode : dcode s.tOff.toNat = dcode t.tOff.toNat := by rw [hoff]
  have hlatched (c : BitVec 5) : SameBlock { s with dc := c } { t with dc := c } := { h with }
  have hnext (c : BitVec 5) : SameLatches .distExtra { s with dc := c } { t with dc := c } :=
    ⟨nofun, fun _ => ⟨hlen, hoff⟩, nofun, fun _ => rfl⟩
  have hemit (c : Nat) := (sessionOnly_emitCode .dist c _ _ (hlatched (BitVec.ofNat 5 c))).finish_goto_match
    (by decide) (emitCode_spec _ _ _ h.canonical.1) (emitCode_spec _ _ _ h.canonical.2) (hnext _)
  simpa only [Machine.distRep, hcode] using hemit (dcode t.tOff.toNat)

theorem SameBlock.distExtra {s t : State} (h : SameBlock s t) (hl : SameLatches .distExtra s t) :
    SameSession (distExtra s) (distExtra t) := by
  obtain ⟨-, hoff⟩ := hl.matchLatch rfl
  simp only [Machine.distExtra, ← hoff, ← hl.distanceCode rfl]
  exact (sessionOnly_putExtra _ _ s t h).finish_goto (by decide) rfl

/-! ## Every step of the core -/

/-- A state of a block takes both runs the same way. -/
theorem SameBlock.coreStep {s t : State} (h : SameBlock s t) (hin : s.st.inBlock = true) (hst : s.st = t.st)
    (hl : SameLatches s.st s t) : SameSession (coreStep s) (coreStep t) := by
  unfold Machine.coreStep
  rw [← hst]
  cases hs : s.st <;> rw [hs] at hin hl <;> simp only
  case writeToken => exact h.writeToken
  case mlDistRep => exact h.mlDistRep hl
  case litRep => exact h.litRep hl
  case sendOutput => exact h.sendOutput
  case mlExtra => exact h.mlExtra hl
  case distRep => exact h.distRep hl
  case distExtra => exact h.distExtra hl
  case hdrFixed =>
    rw [hdrFixed_eq, hdrFixed_eq]
    exact (sessionOnly_putFixedHeader s t h).finish_goto (by decide) rfl
  case hdrClen =>
    unfold hdrClen
    rw [← h.m2]
    exact (sessionOnly_putClens _ s t h).finish_goto (by decide) rfl
  case hdrTree =>
    rw [hdrTree_eq, hdrTree_eq]
    exact (sessionOnly_putTrees s t h).finish_goto (by decide) rfl
  all_goals cases hin

/-- An action of the core keeps two runs of one session alike. -/
theorem SameSession.coreStep {s t : State} (h : SameSession s t) (hs : Inv s) (ht : Inv t) :
    SameSession (coreStep s) (coreStep t) := by
  by_cases hin : s.st.inBlock = true
  · exact (h.sameBlock hs.memCanonical ht.memCanonical hin).coreStep hin h.st h.latches
  · by_cases hb : s.st = .blkStart
    · rw [Machine.coreStep, Machine.coreStep, ← h.st, hb]
      exact (h.registers hs.memCanonical ht.memCanonical).blkStart
    · have hrest : s.st = .idle ∨ s.st = .fault := idle_or_fault_of_not_busy (by simp [St.busy, hin, hb])
      rwa [coreStep_eq_self hrest, coreStep_eq_self (by rwa [← h.st])]

/-! ## Whole runs -/

/-- With no move listed an unfaulted core takes the action of its state. -/
theorem Inv.step_eq_coreStep {s : State} (h : Inv s) (hturns : s.turns = []) (hf : s.fault = none) :
    step s = .next (coreStep s) := by
  rw [step_core hturns hf (h.faultState.1 hf), perform_coreMove hf]

/-- Two states of one session stay alike for any number of core steps, or stop with the same fault. -/
theorem SameSession.run {s t : State} (h : SameSession s t) (hs : Inv s) (ht : Inv t) (hsturns : s.turns = [])
    (htturns : t.turns = []) (n : Nat) :
    (∃ s' t', Host.Core.run Sys2Proof.core n s = .next s' ∧ Host.Core.run Sys2Proof.core n t = .next t' ∧
        SameSession s' t') ∨
      ∃ c, Host.Core.run Sys2Proof.core n s = .fault c ∧ Host.Core.run Sys2Proof.core n t = .fault c := by
  induction n generalizing s t with
  | zero => exact .inl ⟨s, t, rfl, rfl, h⟩
  | succ n ih =>
    cases hf : s.fault with
    | some c =>
      have hstop {u : State} (hu : u.turns = []) (hc : u.fault = some c) :
          Host.Core.run Sys2Proof.core (n + 1) u = .fault (.coreFaulted c) := by
        have hcore : Sys2Proof.core.step u = .fault (.coreFaulted c) := step_faulted hu hc
        simp only [Host.Core.run, hcore]
      exact .inr ⟨_, hstop hsturns hf, hstop htturns (h.fault ▸ hf)⟩
    | none =>
      have hft : t.fault = none := h.fault ▸ hf
      rw [run_succ_of_step (hs.step_eq_coreStep hsturns hf), run_succ_of_step (ht.step_eq_coreStep htturns hft)]
      exact ih (h.coreStep hs ht) (inv_coreStep hs) (inv_coreStep ht) ((coreStep_turns s).trans hsturns)
        ((coreStep_turns t).trans htturns)

/-- START writes every register that a state outside a block shares (R150), whatever was left in it. -/
theorem sameRegisters_latchArguments {s t : State} (hs : Inv s) (ht : Inv t) (hf : s.fault = t.fault)
    (hcfg : s.cfg = t.cfg) (hsize : s.inputSize = t.inputSize) (hkb : s.blockSizeKb = t.blockSizeKb)
    (harrays : sameInputArrays s.mem t.mem) : SameRegisters (latchArguments s) (latchArguments t) where
  canonical := ⟨hs.memCanonical, ht.memCanonical⟩
  cfg := hcfg
  arrays := harrays
  fault := hf
  done := rfl
  latInputSize := hsize
  latBskb := hkb
  tp := rfl
  consumed := rfl
  op := rfl
  blk := rfl
  out _ ha := absurd ha (Nat.not_lt_zero _)
  size _ hi := absurd hi (Nat.not_lt_zero _)

/-- START takes the two machines the same way (R150, R151). -/
theorem sameSession_start {s t s0 t0 : State} (hs : s.st = .idle ∧ s.fault = none) (ht : t.st = .idle ∧ t.fault = none)
    (hsize : s.inputSize = t.inputSize) (h : SameRegisters (latchArguments s) (latchArguments t))
    (hs0 : exec .start s = .next s0) (ht0 : exec .start t = .next t0) :
    SameSession s0 t0 ∧ s0.turns = s.turns ∧ t0.turns = t.turns := by
  rw [exec_start_eq, if_pos hs] at hs0
  rw [exec_start_eq, if_pos ht, ← hsize] at ht0
  cases hs0
  cases ht0
  split_ifs
  · have hdone : SameRegisters (setDone (latchArguments s)) (setDone (latchArguments t)) := { h with done := rfl }
    exact ⟨hdone.sameSession (hs.1.trans ht.1.symm) (congrArg St.inBlock hs.1), rfl, rfl⟩
  · exact ⟨SameRegisters.sameSession { h with } rfl rfl, rfl, rfl⟩

/-- Settles O60: START makes the two machines alike, and the core's steps keep them so. -/
theorem sessionsAreClean : Obligations.SessionsAreClean := by
  intro s t n hs ht hsi hti hsturns htturns hcfg hsize hkb harrays s0 t0 hs0 ht0
  have hfs : s.fault = none := hs.faultState.2 (by simp [hsi])
  have hft : t.fault = none := ht.faultState.2 (by simp [hti])
  have hlatched := sameRegisters_latchArguments hs ht (hfs.trans hft.symm) hcfg hsize hkb harrays
  obtain ⟨hsame, hs0turns, ht0turns⟩ := sameSession_start ⟨hsi, hfs⟩ ⟨hti, hft⟩ hsize hlatched hs0 ht0
  exact hsame.run (inv_start hs hs0) (inv_start ht ht0) (hs0turns.trans hsturns) (ht0turns.trans htturns) n

end Sys2Proof.Machine
end

section
/-! PROOFS. Reset as a move of the host (R310): what it leaves of the core's state (O48). -/

namespace Sys2Proof.Machine

/-- An idle core that is not done reads 4 in `CTRL` (R24). -/
theorem ctrlWord_idle {s : State} (hst : s.st = .idle) (hd : s.done = false) : ctrlWord s = 0x00000004#32 := by
  simp [ctrlWord, idleFlag, hst, hd]

/-- Settles O48: the reset move answers `resetEvent`, which takes every register from the reset state. -/
theorem resetLeavesIdle : Obligations.ResetLeavesIdle := by
  intro s rest hturns
  refine ⟨resetEvent { s with turns := rest }, step_listed_host hturns, ?_⟩
  exact ⟨rfl, rfl, rfl, rfl, rfl, rfl, ctrlWord_idle rfl rfl⟩

end Sys2Proof.Machine
end
